-- ==== Sys2Proof/Word.lean ====
section
/-! DEFINITION. The two word types of the engine (00_scope.md R10): bytes of 8 bits, and 64-bit values, which are
lanes, register contents, command words and DMA addresses alike. -/

namespace Sys2Proof

/-- A byte (00_scope.md R10). -/
abbrev Byte := BitVec 8

/-- A 64-bit value: a lane, a register of the block, a command word or a DMA address (00_scope.md R10). -/
abbrev Word := BitVec 64

end Sys2Proof
end

