-- ==== Sys2Proof/Syntax.lean ====
section
/-! DEFINITION. The commands of KSE-1, one constructor per row of spec/opcode_table.json (30_encoding.md R94), and the
three ways a command word is illegal (R95). -/

namespace Sys2Proof

/-- A command (30_encoding.md R94). Only INIT has operands in its word (R91); ABSORB, SQUEEZE and PERMUTE take theirs
from R.SRC, R.DST and R.LEN. -/
inductive Instr where
  /-- NOP: no operation (43_control.md R220). -/
  | nop
  /-- INIT: start a new sponge context with this rate and this domain separator (41_sponge.md R160). -/
  | init (rate delim : Byte)
  /-- ABSORB: XOR R.LEN bytes at R.SRC into the rate window (41_sponge.md R161). -/
  | absorb
  /-- FINALIZE: pad and permute (41_sponge.md R163). -/
  | finalize
  /-- SQUEEZE: write R.LEN bytes of output to R.DST (41_sponge.md R165). -/
  | squeeze
  /-- PERMUTE: Keccak-f[1600] of the 200 bytes at R.SRC, written to R.DST (40_permutation.md R133). -/
  | permute
  /-- RESET: return to the reset state (43_control.md R221). -/
  | reset
  deriving DecidableEq, Repr

/-- Why a word is illegal (30_encoding.md R95). -/
inductive IllegalWord where
  /-- R95 (a): OP in 0x6..0xE. -/
  | reservedOp
  /-- R95 (b): OP is not INIT's, and some bit of W[63:4] is set. -/
  | bitsAboveOp
  /-- R95 (c): OP is INIT's, and some bit of W[7:4] or W[63:24] is set. -/
  | initReservedBits
  deriving DecidableEq, Repr

end Sys2Proof
end

