-- ==== Sys2Proof/WellFormed.lean ====
section
/-! DEFINITION. Well-formedness of command words and commands. The fields of a command are bytes, so every term of
Instr has an encoding (30_encoding.md R95: an INIT with an illegal rate is a legal encoding); what can be ill-formed is a
WORD (no row of the opcode map matches it, R94) and an INIT's OPERAND (the rate, 41_sponge.md R160). -/

namespace Sys2Proof

/-- One row of the opcode map (30_encoding.md R94): a word is the row's when (W & mask) = match. -/
structure OpcodeRow where
  mnemonic : String
  mask     : Word
  bits     : Word
  deriving DecidableEq, Repr

/-- The opcode map of 30_encoding.md R94, row by row. -/
def opcodeMap : List OpcodeRow :=
  [ { mnemonic := "NOP",      mask := 0xFFFFFFFFFFFFFFFF, bits := 0x0000000000000000 },
    { mnemonic := "INIT",     mask := 0xFFFFFFFFFF0000FF, bits := 0x0000000000000001 },
    { mnemonic := "ABSORB",   mask := 0xFFFFFFFFFFFFFFFF, bits := 0x0000000000000002 },
    { mnemonic := "FINALIZE", mask := 0xFFFFFFFFFFFFFFFF, bits := 0x0000000000000003 },
    { mnemonic := "SQUEEZE",  mask := 0xFFFFFFFFFFFFFFFF, bits := 0x0000000000000004 },
    { mnemonic := "PERMUTE",  mask := 0xFFFFFFFFFFFFFFFF, bits := 0x0000000000000005 },
    { mnemonic := "RESET",    mask := 0xFFFFFFFFFFFFFFFF, bits := 0x000000000000000F } ]

/-- The row matches the word (30_encoding.md R94). -/
def OpcodeRow.matchesWord (r : OpcodeRow) (w : Word) : Bool := w &&& r.mask == r.bits

/-- A word is legal when some row of the opcode map matches it (30_encoding.md R94). -/
def legalWord (w : Word) : Bool := opcodeMap.any fun r => r.matchesWord w

/-- The mnemonic a command has in the opcode map. -/
def Instr.mnemonic : Instr → String
  | .nop      => "NOP"
  | .init _ _ => "INIT"
  | .absorb   => "ABSORB"
  | .finalize => "FINALIZE"
  | .squeeze  => "SQUEEZE"
  | .permute  => "PERMUTE"
  | .reset    => "RESET"

/-- INIT's rate is 1 to 200 bytes (00_scope.md R8, 41_sponge.md R160, 90_conflicts.md C1). -/
def legalRate (rate : Byte) : Bool := 1 ≤ rate.toNat && rate.toNat ≤ 200

/-- The command's own operands are legal: only INIT's rate can fail (41_sponge.md R160). -/
def Instr.wellFormed : Instr → Bool
  | .nop         => true
  | .init rate _ => legalRate rate
  | .absorb      => true
  | .finalize    => true
  | .squeeze     => true
  | .permute     => true
  | .reset       => true

end Sys2Proof
end

