-- ==== Sys2Proof/Decode.lean ====
section
/-! DEFINITION. The decoder and the encoder of command words (30_encoding.md R90, R91, R94, R95, R97). A decoder needs the
word alone: no mode and no state changes what a word decodes to (R98). -/

namespace Sys2Proof

/-- The field OP = W[3:0] (30_encoding.md R90). -/
def opField (w : Word) : BitVec 4 := w.extractLsb' 0 4

/-- The field RATE = W[15:8] (30_encoding.md R90). -/
def rateField (w : Word) : Byte := w.extractLsb' 8 8

/-- The field DELIM = W[23:16] (30_encoding.md R90). -/
def delimField (w : Word) : Byte := w.extractLsb' 16 8

/-- Every bit of W[63:4] is 0: what every command but INIT requires (30_encoding.md R95 (b)). -/
def zeroAboveOp (w : Word) : Bool := w.extractLsb' 4 60 == 0#60

/-- W[7:4] and W[63:24] are 0: what INIT requires (30_encoding.md R95 (c)). -/
def initBitsClear (w : Word) : Bool := w.extractLsb' 4 4 == 0#4 && w.extractLsb' 24 40 == 0#40

/-- The command a word with W[63:4] = 0 and OP ≠ 1 stands for (the case table of 30_encoding.md R97). -/
def commandOfOp (op : BitVec 4) : Except IllegalWord Instr :=
  if op = 0x0#4 then .ok .nop
  else if op = 0x2#4 then .ok .absorb
  else if op = 0x3#4 then .ok .finalize
  else if op = 0x4#4 then .ok .squeeze
  else if op = 0x5#4 then .ok .permute
  else if op = 0xF#4 then .ok .reset
  else .error .reservedOp

/-- Decode a command word, in the test order of 30_encoding.md R97. -/
def decode (w : Word) : Except IllegalWord Instr :=
  if opField w = 0x1#4 then
    if initBitsClear w then .ok (.init (rateField w) (delimField w)) else .error .initReservedBits
  else if zeroAboveOp w then commandOfOp (opField w)
  else .error .bitsAboveOp

/-- The word of a command (30_encoding.md R94, and R90's field places for INIT). -/
def encode : Instr → Word
  | .nop             => 0x0000000000000000#64
  | .init rate delim => 0x0000000000#40 ++ delim ++ rate ++ 0x01#8
  | .absorb          => 0x0000000000000002#64
  | .finalize        => 0x0000000000000003#64
  | .squeeze         => 0x0000000000000004#64
  | .permute         => 0x0000000000000005#64
  | .reset           => 0x000000000000000F#64

/-- What the decoder reads from a command whose bits are w, of which the opcode table gives nbits. A command is one
64-bit register write (30_encoding.md R90), so the bits above nbits are 0 and a number of more than 64 bits is no command. -/
def decodeTableWord (nbits w : Nat) : Option Instr :=
  let bits := w % 2 ^ nbits
  if bits < 2 ^ 64 then
    match decode (BitVec.ofNat 64 bits) with
    | .ok i => some i
    | .error _ => none
  else none

end Sys2Proof
end

