-- ==== Sys2Proof/Config.lean ====
section
/-! DEFINITION. The fixed parameters of the engine (00_scope.md R8, R9) and the free values: constants without a body,
so that nothing can be proved of what they are. Each free value takes the serial number of the bus event it is drawn in
(State.serial) and an address, so that no two draws are forced to agree. -/

namespace Sys2Proof.Config

/-- N_LANES (00_scope.md R8). -/
abbrev laneCount : Nat := 25

/-- STATE_BYTES (00_scope.md R8): the byte view's size, and the size of a PERMUTE buffer (40_permutation.md R133). -/
abbrev stateBytes : Nat := 200

/-- N_ROUNDS (00_scope.md R8). -/
abbrev roundCount : Nat := 24

/-- The pad's final byte (00_scope.md R8). -/
abbrev padFinalByte : Byte := 0x80#8

/-- The DMA space has 2^ADDR_W bytes, with ADDR_W = 64 (00_scope.md R9, 20_memory.md R60). -/
abbrev dmaSpace : Nat := 2 ^ 64

/-- The register block's size in bytes (10_state.md R33). -/
abbrev blockBytes : Nat := 256

/-- What a host-memory address reads as that nothing has written. DESIGN CHOICE (unsafe, log 4): the spec gives memory
no initial contents; the test-vector convention of 95_test_vectors.md takes 0. -/
abbrev unwrittenByte : Byte := 0x00#8

/-- FREE VALUE: what the DMA reads at a SRC byte that is raced (20_memory.md R70, log 5) or whose host store is not yet
ordered or not yet visible to the DMA (R71, R75, log 8). -/
opaque unsettledByte (serial addr : Nat) : Byte

/-- FREE VALUE: whether the raced access number index, a load of a DST byte, sees the new byte or the old one
(20_memory.md R70, log 6). -/
opaque racedLoadSeesNew (serial index : Nat) : Bool

/-- FREE VALUE: a DST byte that another agent stores to during the command, after the raced access number index.
DESIGN CHOICE (safe, log 7): the spec states no result for it. -/
opaque doublyWrittenByte (serial index : Nat) : Byte

/-- FREE VALUE: a DST byte after the command where a host store to it, not yet ordered or not yet made visible when the
command ran, may land later. DESIGN CHOICE (safe, log 25): the spec states no result for it. -/
opaque lateStoreByte (serial addr : Nat) : Byte

/-- FREE VALUE: what a host load gives at a DST byte the host need not see yet (70_reset_and_hazards.md R284 with
93_implementation_defined.md S15, 20_memory.md R75 with S16, and R71 (b), R72, logs 9, 26). -/
opaque unseenByte (serial addr : Nat) : Byte

/-- FREE VALUE: the same for the raced access number index, a load (logs 9, 26). -/
opaque unseenRacedByte (serial index : Nat) : Byte

/-- FREE VALUE: whether a DST byte was written before a hardware reset cut the command short
(70_reset_and_hazards.md R280, 93_implementation_defined.md S11, log 10). -/
opaque landedBeforeReset (serial addr : Nat) : Bool

end Sys2Proof.Config
end

