-- ==== Sys2Proof/Machine/State.lean ====
section
/-! DEFINITION. The state of one engine instance, of the host memory it reaches by DMA, and of its host side
(10_state.md; 00_scope.md R16, R17; 43_control.md R224, R225), as plain data, and the state after reset (10_state.md R39). -/

namespace Sys2Proof.Machine

/-! ### The engine's own registers -/

/-- The lane file: 25 lanes, lane (x, y) at index x + 5·y (10_state.md R20). -/
abbrev Lanes := Vector Word Config.laneCount

/-- R.PHASE (10_state.md R27). -/
inductive Phase where
  | uninit
  | absorbing
  | finalized
  | squeezing
  deriving DecidableEq, Repr

/-- R.CAUSE (10_state.md R30, 60_exceptions.md R241). The codes 0x09 to 0xFF are reserved and never produced, so they
have no constructor (log 16). -/
inductive Cause where
  | none
  | illegalCommand
  | badRate
  | notInitialised
  | absorbAfterFinalize
  | finalizeTwice
  | squeezeBeforeFinalize
  | memFault
  | rangeWrap
  deriving DecidableEq, Repr

/-- The sponge context: the lane file, the registers of 10_state.md §2, and the count of context permutations since the
context began (R35). -/
structure Sponge where
  /-- A (10_state.md R20). -/
  lanes   : Lanes
  /-- R.RATE (10_state.md R24). -/
  rate    : Byte
  /-- R.DELIM (10_state.md R25). -/
  delim   : Byte
  /-- R.POS (10_state.md R26). -/
  pos     : Byte
  /-- R.PHASE (10_state.md R27). -/
  phase   : Phase
  /-- R.PERMCNT (10_state.md R35). -/
  permcnt : Word
  deriving DecidableEq, Repr

/-- The four fault registers (60_exceptions.md R240). -/
structure FaultRegs where
  /-- R.ERR (10_state.md R29). -/
  err     : Bool
  /-- R.CAUSE (10_state.md R30). -/
  cause   : Cause
  /-- R.ERRCMD (10_state.md R31). -/
  errcmd  : Word
  /-- R.ERRADDR (10_state.md R31). -/
  erraddr : Word
  deriving DecidableEq, Repr

/-- The operand registers (10_state.md R34). -/
structure OperandRegs where
  /-- R.SRC. -/
  src : Word
  /-- R.DST. -/
  dst : Word
  /-- R.LEN. -/
  len : Word
  deriving DecidableEq, Repr

/-! ### Memory and the platform -/

/-- Host memory: addresses strictly rising, no entry equal to Config.unwrittenByte (20_memory.md R60, log 4). -/
abbrev Memory := List Host.Cell

/-- What a DMA access does to a byte (20_memory.md R61). -/
inductive AccessKind where
  | read
  | write
  deriving DecidableEq, Repr

/-- A run of `size` DMA addresses from `base` with what the platform admits there (20_memory.md R61, log 2). -/
structure Region where
  base     : Nat
  size     : Nat
  readable : Bool
  writable : Bool
  deriving DecidableEq, Repr

/-- A run of `len` addresses from `base`. -/
structure Span where
  base : Nat
  len  : Nat
  deriving DecidableEq, Repr

/-- The platform parameters of 00_scope.md R9 (log 2). -/
structure Platform where
  /-- BASE: where this instance's register block lies (20_memory.md R77). -/
  base         : Word
  /-- The register blocks of the platform's other instances: N_ENGINES is one more than their number
  (60_exceptions.md R257). -/
  otherBases   : List Word
  /-- Admit, as the regions it is true on (20_memory.md R61). -/
  regions      : List Region
  /-- HOST_ORDER asks for no fence: host stores are ordered before a later register write, and host loads after an earlier
  register access (20_memory.md R71, R72). -/
  hostOrdered  : Bool
  /-- DMA_COHERENT (20_memory.md R75). -/
  dmaCoherent  : Bool
  /-- A host's CMD store may retire before the write completes (70_reset_and_hazards.md R284). -/
  postedWrites : Bool
  deriving DecidableEq, Repr

/-! ### The host side -/

/-- A one-byte memory access by a host or another agent (43_control.md R225, 20_memory.md R70). DESIGN CHOICE (log 33): a
wider access of a host is several of these. -/
inductive MemAccess where
  | store (addr : Word) (value : Byte)
  | load (addr : Word)
  deriving DecidableEq, Repr

/-- What the engine's surroundings do to it, one interaction of 43_control.md R225 each (log 1). -/
inductive BusEvent where
  /-- A host write of `value` to the register block, `width` bytes wide, `offset` bytes above BASE. -/
  | write (offset width : Nat) (value : Word)
  /-- A host read of the register block, `width` bytes wide, `offset` bytes above BASE. -/
  | read (offset width : Nat)
  /-- A memory access, by a host or another agent (log 31), that overlaps no command. -/
  | memory (access : MemAccess)
  /-- A memory access of another agent that falls inside the next command (20_memory.md R70). -/
  | race (access : MemAccess)
  /-- The host fence HOST_ORDER asks for around register accesses (20_memory.md R72). -/
  | fence
  /-- The host's cache maintenance where DMA is not coherent, both duties at once (20_memory.md R75, log 32). -/
  | maintain
  /-- The platform sets Admit anew (70_reset_and_hazards.md R282, 43_control.md R225, log 23). -/
  | configureAdmit (regions : List Region)
  /-- The reset signal, with no command in progress (70_reset_and_hazards.md R280). -/
  | hardwareReset
  /-- A host write of `word` to CMD whose command a hardware reset abandons (70_reset_and_hazards.md R280). -/
  | commandCutByReset (word : Word)
  deriving DecidableEq, Repr

/-- What an interaction gives back (43_control.md R225, log 12). -/
inductive Answer where
  /-- A CMD write has completed (43_control.md R224). -/
  | completed
  /-- The value of the register read. -/
  | register (value : Word)
  /-- The byte a memory access between commands loaded. -/
  | loaded (value : Byte)
  /-- The byte a racing load gave its agent (20_memory.md R70). -/
  | racedLoad (value : Byte)
  deriving DecidableEq, Repr

/-- The DST span of a command, with what a host load of its bytes still waits for: each command has its own
(70_reset_and_hazards.md R284, 20_memory.md R71 (b), R72, R75; logs 9, 26). -/
structure WrittenSpan where
  /-- The bytes the command wrote. -/
  span      : Span
  /-- The host has not seen that the command has completed, where CMD writes are posted. -/
  posted    : Bool
  /-- No fence has yet ordered later host loads after the completion, where HOST_ORDER asks for one. -/
  unordered : Bool
  /-- The host may hold stale cached bytes, where DMA is not coherent. -/
  cached    : Bool
  deriving DecidableEq, Repr

/-- What the two sides of the DMA need not see yet (20_memory.md R71, R72, R75; 70_reset_and_hazards.md R284; logs 8, 9,
26). The lists name no agent: a fence or a maintenance by any host agent counts for all (log 27). -/
structure Visibility where
  /-- Addresses stored to since the last fence, where HOST_ORDER asks for one. -/
  unfenced  : List Nat
  /-- Addresses stored to since the last cache maintenance, where DMA is not coherent. -/
  uncleaned : List Nat
  /-- The DST spans of commands that a host load still waits for something to see, the latest first. -/
  written   : List WrittenSpan
  deriving DecidableEq, Repr

/-! ### The state -/

/-- The machine: one engine instance (10_state.md), host memory (20_memory.md R60), the platform's parameters and the
host side. -/
structure State where
  /-- The sponge context. -/
  sponge     : Sponge
  /-- The fault registers. -/
  faults     : FaultRegs
  /-- The operand registers. -/
  operands   : OperandRegs
  /-- Host memory. -/
  mem        : Memory
  /-- The platform parameters; no step changes any but Admit, and only `configureAdmit` changes that. -/
  platform   : Platform
  /-- What the surroundings have sent and the engine has not yet served, in arrival order (43_control.md R224). -/
  pending    : List BusEvent
  /-- The accesses of other agents that fall inside the next command (20_memory.md R70). -/
  overlap    : List MemAccess
  /-- What the two sides of the DMA need not see yet. -/
  visibility : Visibility
  /-- What the engine has given back, oldest first. -/
  answers    : List Answer
  /-- How many bus events have been served: what keeps free values fresh (log 13). -/
  serial     : Nat
  deriving DecidableEq, Repr

/-- Why a step stops. -/
inductive Fault where
  /-- Raised by `serve` (Machine/Bus.lean) for an access that has no step: a register access that is not an aligned
  8-byte access inside the block (10_state.md R40, 93_implementation_defined.md S5), and a byte access to an address
  inside a register block. SAFE: the spec gives such an access no step (log 11). -/
  | accessNotAdmitted
  deriving DecidableEq, Repr

/-- Why the model refuses an instruction. -/
inductive Refusal where
  /-- An arm of `exec` without a meaning; no arm is left so. SAFE: nothing follows from a refusal. -/
  | notModelled (mnemonic : String)
  deriving DecidableEq, Repr

/-! ### Reset -/

/-- The sponge context after reset (10_state.md R39). -/
def Sponge.reset : Sponge :=
  { lanes := Vector.replicate Config.laneCount 0, rate := 0, delim := 0, pos := 0, phase := .uninit, permcnt := 0 }

/-- The fault registers after reset (10_state.md R39). -/
def FaultRegs.reset : FaultRegs := { err := false, cause := .none, errcmd := 0, erraddr := 0 }

/-- The operand registers after reset (10_state.md R39). -/
def OperandRegs.reset : OperandRegs := { src := 0, dst := 0, len := 0 }

/-- The platform of State.reset. DESIGN CHOICE (unsafe, log 3): the spec leaves every one of these open. Nothing is
admitted until the platform configures Admit (70_reset_and_hazards.md R282). -/
def Platform.initial : Platform :=
  { base := 0, otherBases := [], regions := [], hostOrdered := true, dmaCoherent := true, postedWrites := false }

/-- Nothing is waiting to be seen. DESIGN CHOICE (logs 8, 9, 26). -/
def Visibility.settled : Visibility := { unfenced := [], uncleaned := [], written := [] }

/-- The machine right after reset: the engine as 10_state.md R39 says, memory with nothing listed (log 4), the platform
of log 3, and nothing on the bus (log 1). -/
def State.reset : State :=
  { sponge := Sponge.reset, faults := FaultRegs.reset, operands := OperandRegs.reset, mem := [],
    platform := Platform.initial, pending := [], overlap := [], visibility := Visibility.settled, answers := [],
    serial := 0 }

end Sys2Proof.Machine
end

