-- ==== Sys2Proof/Machine/Flags.lean ====
section
/-! DEFINITION. The status register and the codes of its fields (10_state.md R27, R29, R30, R32; 60_exceptions.md R241). -/

namespace Sys2Proof.Machine

/-- The encoding of R.PHASE (10_state.md R27). -/
def phaseCode : Phase → BitVec 2
  | .uninit    => 0
  | .absorbing => 1
  | .finalized => 2
  | .squeezing => 3

/-- The cause codes (60_exceptions.md R241). -/
def causeCode : Cause → Byte
  | .none                  => 0x00
  | .illegalCommand        => 0x01
  | .badRate               => 0x02
  | .notInitialised        => 0x03
  | .absorbAfterFinalize   => 0x04
  | .finalizeTwice         => 0x05
  | .squeezeBeforeFinalize => 0x06
  | .memFault              => 0x07
  | .rangeWrap             => 0x08

/-- R.ERR as a bit (10_state.md R29). -/
def errBit (f : FaultRegs) : BitVec 1 := BitVec.ofBool f.err

/-- STATUS as a host reads it: PHASE in bits 1:0, ERR in bit 2, CAUSE in bits 15:8, the reserved bits 0
(10_state.md R32). -/
def statusWord (c : Sponge) (f : FaultRegs) : Word :=
  0#48 ++ causeCode f.cause ++ 0#5 ++ errBit f ++ phaseCode c.phase

end Sys2Proof.Machine
end

