-- ==== Sys2Proof/Machine/Permutation.lean ====
section
/-! DEFINITION. The permutation Keccak-f[1600] (40_permutation.md R120 to R128) on the 25 lanes, with the rotation
offsets and round constants as the spec's tables and as its generating rules. -/

namespace Sys2Proof.Machine

/-- ROTL64 (00_scope.md R11). -/
def rotl64 (v : Word) (n : Nat) : Word := (v <<< (n % 64)) ||| (v >>> (64 - n % 64))

/-- Lane i of the file, A[i] (00_scope.md R12). There is no lane past 24; such an index reads 0 (log 17). -/
def lane (A : Lanes) (i : Nat) : Word := A[i]?.getD 0

/-- A[x, y], with both indices mod 5 (00_scope.md R11, R12). -/
def laneAt (A : Lanes) (x y : Nat) : Word := lane A (x % 5 + 5 * (y % 5))

/-- The lane file whose lane (x, y) is f x y (10_state.md R20). -/
def lanesOfXY (f : Nat → Nat → Word) : Lanes := Vector.ofFn fun i => f (i.val % 5) (i.val / 5)

/-- Theta's C[x], the parity of column x (40_permutation.md R122). -/
def columnParity (A : Lanes) (x : Nat) : Word :=
  laneAt A x 0 ^^^ laneAt A x 1 ^^^ laneAt A x 2 ^^^ laneAt A x 3 ^^^ laneAt A x 4

/-- Theta's D[x] (40_permutation.md R122; x − 1 mod 5 is x + 4 mod 5). -/
def thetaMask (A : Lanes) (x : Nat) : Word := columnParity A (x + 4) ^^^ rotl64 (columnParity A (x + 1)) 1

/-- Theta (40_permutation.md R122). -/
def theta (A : Lanes) : Lanes := lanesOfXY fun x y => laneAt A x y ^^^ thetaMask A x

/-- The rotation offsets by lane index x + 5y (40_permutation.md R123). -/
def rotationOffsets : List Nat :=
  [ 0,  1, 62, 28, 27,
   36, 44,  6, 55, 20,
    3, 10, 43, 25, 39,
   41, 45, 15, 21,  8,
   18,  2, 61, 56, 14]

/-- r[x, y] (40_permutation.md R123). -/
def rotationOffset (x y : Nat) : Nat := rotationOffsets.getD (x % 5 + 5 * (y % 5)) 0

/-- RhoPi, by its destination: B[x, y] = ROTL64(A[(x + 3y) mod 5, x], r[(x + 3y) mod 5, x]) (40_permutation.md R124). -/
def rhoPi (A : Lanes) : Lanes :=
  lanesOfXY fun x y => rotl64 (laneAt A (x + 3 * y) x) (rotationOffset (x + 3 * y) x)

/-- Chi, every right-hand side from the step's input (40_permutation.md R125). -/
def chi (B : Lanes) : Lanes :=
  lanesOfXY fun x y => laneAt B x y ^^^ (~~~ laneAt B (x + 1) y &&& laneAt B (x + 2) y)

/-- The rows of the table of round constants: row k holds RC[k] and RC[k + 12] (40_permutation.md R127). -/
def roundConstantRows : List (Word × Word) :=
  [(0x0000000000000001, 0x000000008000808B),
   (0x0000000000008082, 0x800000000000008B),
   (0x800000000000808A, 0x8000000000008089),
   (0x8000000080008000, 0x8000000000008003),
   (0x000000000000808B, 0x8000000000008002),
   (0x0000000080000001, 0x8000000000000080),
   (0x8000000080008081, 0x000000000000800A),
   (0x8000000000008009, 0x800000008000000A),
   (0x000000000000008A, 0x8000000080008081),
   (0x0000000000000088, 0x8000000000008080),
   (0x0000000080008009, 0x0000000080000001),
   (0x000000008000000A, 0x8000000080008008)]

/-- RC[ir]: the left column for the first twelve rounds, the right one for the others (40_permutation.md R127). -/
def roundConstant (ir : Nat) : Word :=
  if ir < 12 then (roundConstantRows.getD ir (0, 0)).1 else (roundConstantRows.getD (ir - 12) (0, 0)).2

/-- Iota: the round constant into lane (0, 0) only (40_permutation.md R126). -/
def iota (A : Lanes) (ir : Nat) : Lanes :=
  lanesOfXY fun x y => if x = 0 ∧ y = 0 then laneAt A 0 0 ^^^ roundConstant ir else laneAt A x y

/-- One round (40_permutation.md R121). -/
def keccakRound (A : Lanes) (ir : Nat) : Lanes := iota (chi (rhoPi (theta A))) ir

/-- Permute: the rounds 0 to 23 in that order (40_permutation.md R120). -/
def permuteLanes (A : Lanes) : Lanes := (List.range Config.roundCount).foldl keccakRound A

/-! ### The generating rules of the tables -/

/-- The walk of 40_permutation.md R123's generating rule: the lanes it visits from (x, y) at step t, with their
offsets, for n steps. -/
def offsetWalk : Nat → Nat → Nat → Nat → List (Nat × Nat)
  | 0, _, _, _ => []
  | n + 1, t, x, y => (x + 5 * y, ((t + 1) * (t + 2) / 2) % 64) :: offsetWalk n (t + 1) y ((2 * x + 3 * y) % 5)

/-- r[x, y] by the generating rule of 40_permutation.md R123, for the lane index i = x + 5y. -/
def generatedOffset (i : Nat) : Nat :=
  match (offsetWalk 24 0 1 0).find? fun p => p.1 == i with
  | some p => p.2
  | none => 0

/-- One step of the LFSR of 40_permutation.md R128 on R[0..7]: 0 is prepended, R[8] is fed back into R[0], R[4], R[5]
and R[6], and R is cut back to eight bits. -/
def lfsrStep (r : List Bool) : List Bool :=
  let fed : List Bool := false :: r
  let top := fed.getD 8 false
  [fed.getD 0 false ^^ top, fed.getD 1 false, fed.getD 2 false, fed.getD 3 false, fed.getD 4 false ^^ top,
   fed.getD 5 false ^^ top, fed.getD 6 false ^^ top, fed.getD 7 false]

/-- R after n steps of the LFSR (40_permutation.md R128). -/
def lfsrAfter : Nat → List Bool
  | 0 => [true, false, false, false, false, false, false, false]
  | n + 1 => lfsrStep (lfsrAfter n)

/-- rc(t) (40_permutation.md R128). -/
def rcBit (t : Nat) : Bool := if t % 255 = 0 then true else (lfsrAfter (t % 255)).getD 0 false

/-- RC[ir] by the generating rule of 40_permutation.md R128: bit 2^j − 1 is rc(j + 7·ir), for j = 0..6. -/
def generatedConstant (ir : Nat) : Word :=
  (List.range 7).foldl (fun acc j => if rcBit (j + 7 * ir) then acc ||| (1#64 <<< (2 ^ j - 1)) else acc) 0

end Sys2Proof.Machine
end

