-- ==== Sys2Proof/Machine/Operands.lean ====
section
/-! DEFINITION. The forms a command's operands take: the byte view of the lane file (10_state.md R21, 20_memory.md R62),
the 200-byte state buffer (R63), the buffers a command takes from R.SRC, R.DST and R.LEN (30_encoding.md R91), and their
range checks (20_memory.md R61, R67). -/

namespace Sys2Proof.Machine

/-! ### The byte view -/

/-- Byte j of a lane: bits 8·j+7 .. 8·j (10_state.md R21). -/
def laneByte (l : Word) (j : Nat) : Byte := l.extractLsb' (8 * j) 8

/-- The lane with byte j replaced and every other bit kept (10_state.md R21). -/
def setLaneByte (l : Word) (j : Nat) (v : Byte) : Word :=
  (l &&& ~~~ (0xFF#64 <<< (8 * j))) ||| (v.setWidth 64 <<< (8 * j))

/-- S[k] (10_state.md R21). -/
def stateByte (A : Lanes) (k : Nat) : Byte := laneByte (lane A (k / 8)) (k % 8)

/-- The lane file after S[k] <- v (10_state.md R21). There is no byte past 199; writing one does nothing (log 17). -/
def setStateByte (A : Lanes) (k : Nat) (v : Byte) : Lanes :=
  A.setIfInBounds (k / 8) (setLaneByte (lane A (k / 8)) (k % 8) v)

/-- The lane file after S[k] <- S[k] ^ v (41_sponge.md R161, R163). -/
def xorStateByte (A : Lanes) (k : Nat) (v : Byte) : Lanes := setStateByte A k (stateByte A k ^^^ v)

/-- The lane whose bytes, lowest first, are b0 to b7 (20_memory.md R62, R63). -/
def wordOfBytes (b0 b1 b2 b3 b4 b5 b6 b7 : Byte) : Word := b7 ++ b6 ++ b5 ++ b4 ++ b3 ++ b2 ++ b1 ++ b0

/-- The lanes of a state buffer: lane i is the little-endian value of its bytes 8i .. 8i+7
(20_memory.md R63, 40_permutation.md R133). -/
def lanesOfBytes (buf : List Byte) : Lanes :=
  Vector.ofFn fun i =>
    wordOfBytes (buf.getD (8 * i.val) 0) (buf.getD (8 * i.val + 1) 0) (buf.getD (8 * i.val + 2) 0)
      (buf.getD (8 * i.val + 3) 0) (buf.getD (8 * i.val + 4) 0) (buf.getD (8 * i.val + 5) 0)
      (buf.getD (8 * i.val + 6) 0) (buf.getD (8 * i.val + 7) 0)

/-- The 200 bytes of a lane file, S[0] first (10_state.md R21, 40_permutation.md R133). -/
def bytesOfLanes (A : Lanes) : List Byte := (List.range Config.stateBytes).map (stateByte A)

/-! ### Admission -/

/-- The address lies in the region. -/
def Region.covers (r : Region) (a : Nat) : Bool := r.base ≤ a && a < r.base + r.size

/-- The region's permission for an access of this kind. -/
def Region.allows (r : Region) : AccessKind → Bool
  | .read  => r.readable
  | .write => r.writable

/-- The address lies in the span. -/
def Span.covers (p : Span) (a : Nat) : Bool := p.base ≤ a && a < p.base + p.len

/-- The address lies in the 256 bytes of the register block at this base (10_state.md R33). -/
def inBlockAt (base : Word) (a : Nat) : Bool := base.toNat ≤ a && a < base.toNat + Config.blockBytes

/-- The address lies in the register block of some engine instance (20_memory.md R61). -/
def inRegisterBlock (p : Platform) (a : Nat) : Bool := (p.base :: p.otherBases).any fun b => inBlockAt b a

/-- Admit(a, k): a register block is never admitted, and elsewhere the platform's regions decide (20_memory.md R61). -/
def admits (p : Platform) (k : AccessKind) (a : Nat) : Bool :=
  !inRegisterBlock p a && p.regions.any fun r => r.covers a && r.allows k

/-! ### Buffers and their range checks -/

/-- A buffer of a command: its base address, its length in bytes and what the command does there (20_memory.md R67). -/
structure Buffer where
  base : Word
  len  : Nat
  kind : AccessKind
  deriving DecidableEq, Repr

/-- WRAPS(b, n), for n > 0 (20_memory.md R67). -/
def Buffer.wraps (b : Buffer) : Bool := 0 < b.len && Config.dmaSpace < b.base.toNat + b.len

/-- The lowest of the n addresses from a that is not admitted (20_memory.md R67, 60_exceptions.md R248). -/
def firstNotAdmitted (p : Platform) (k : AccessKind) : Nat → Nat → Option Nat
  | _, 0 => none
  | a, n + 1 => if admits p k a then firstNotAdmitted p k (a + 1) n else some a

/-- A buffer's lowest byte that is not admitted, as a fault to raise (60_exceptions.md R248). -/
def admissionFault (p : Platform) (b : Buffer) : Option (Cause × Word) :=
  match firstNotAdmitted p b.kind b.base.toNat b.len with
  | some a => some (.memFault, BitVec.ofNat 64 a)
  | none => none

/-- The range checks of 20_memory.md R67 on a command's buffers, in the order given: every wrap check, then the admission
of every byte. The result is the cause and the address of the fault to raise. -/
def rangeFault (p : Platform) (buffers : List Buffer) : Option (Cause × Word) :=
  match buffers.find? Buffer.wraps with
  | some b => some (.rangeWrap, b.base)
  | none => buffers.findSome? (admissionFault p)

/-- ABSORB's input buffer (30_encoding.md R91). -/
def absorbSource (o : OperandRegs) : Buffer := { base := o.src, len := o.len.toNat, kind := .read }

/-- SQUEEZE's output buffer (30_encoding.md R91). -/
def squeezeDestination (o : OperandRegs) : Buffer := { base := o.dst, len := o.len.toNat, kind := .write }

/-- PERMUTE's input state buffer (30_encoding.md R91, 40_permutation.md R133). -/
def permuteSource (o : OperandRegs) : Buffer := { base := o.src, len := Config.stateBytes, kind := .read }

/-- PERMUTE's output state buffer (30_encoding.md R91, 40_permutation.md R133). -/
def permuteDestination (o : OperandRegs) : Buffer := { base := o.dst, len := Config.stateBytes, kind := .write }

end Sys2Proof.Machine
end

