-- ==== Sys2Proof/Machine/Ops.lean ====
section
/-! DEFINITION. The named operations: host memory and the DMA's byte accesses (20_memory.md), the sponge context's steps
(41_sponge.md, 40_permutation.md R132), the register block (10_state.md R33, R40), raising a fault (60_exceptions.md R240)
and returning from one (43_control.md R221), and the frame every command runs in (43_control.md R222). -/

namespace Sys2Proof.Machine

/-! ### Host memory -/

/-- The byte at an address: the listed one, else what an unlisted address reads as (log 4). -/
def Memory.read : Memory → Nat → Byte
  | [], _ => Config.unwrittenByte
  | (b, v) :: rest, a => if a = b then v else Memory.read rest a

/-- The memory with a cell put in front, unless an unlisted address reads so anyway. -/
def Memory.cons (a : Nat) (v : Byte) (m : Memory) : Memory := if v = Config.unwrittenByte then m else (a, v) :: m

/-- Store a byte, keeping the canonical form. -/
def Memory.write : Memory → Nat → Byte → Memory
  | [], a, v => Memory.cons a v []
  | (b, w) :: rest, a, v =>
    if a < b then Memory.cons a v ((b, w) :: rest)
    else if a = b then Memory.cons a v rest
    else (b, w) :: Memory.write rest a v

/-- Store bytes at rising addresses (20_memory.md R63). -/
def Memory.writeBytes : Memory → Nat → List Byte → Memory
  | m, _, [] => m
  | m, a, v :: vs => Memory.writeBytes (Memory.write m a v) (a + 1) vs

/-- The canonical form from address lo on: addresses strictly rising, inside the DMA space, no entry equal to what an
unlisted address reads as. -/
def Memory.wfFrom (lo : Nat) : Memory → Bool
  | [] => true
  | (a, v) :: rest => lo ≤ a && a < Config.dmaSpace && v != Config.unwrittenByte && Memory.wfFrom (a + 1) rest

/-- The canonical form. -/
def Memory.wf (m : Memory) : Bool := Memory.wfFrom 0 m

/-! ### DMA -/

/-- The access stores to address a. -/
def MemAccess.storesTo (acc : MemAccess) (a : Nat) : Bool :=
  match acc with
  | .store addr _ => addr.toNat == a
  | .load _ => false

/-- A store to a is on its way: it is not yet ordered before the next register write (20_memory.md R71), or not yet made
visible to the DMA (R75). -/
def waiting (s : State) (a : Nat) : Bool := s.visibility.unfenced.contains a || s.visibility.uncleaned.contains a

/-- The DMA cannot rely on the byte at a: another agent stores to it during this command (20_memory.md R70), or a store
to it is on its way. -/
def unsettled (s : State) (a : Nat) : Bool := s.overlap.any (fun acc => acc.storesTo a) || waiting s a

/-- MemRead(a, 1) (00_scope.md R13): host memory's byte, and a free value where the byte is not settled (logs 5, 8). -/
def dmaRead (s : State) (a : Nat) : Byte :=
  if unsettled s a then Config.unsettledByte s.serial a else s.mem.read a

/-- The n bytes the DMA reads from address a on (20_memory.md R63, R66). -/
def dmaReadBytes (s : State) : Nat → Nat → List Byte
  | _, 0 => []
  | a, n + 1 => dmaRead s a :: dmaReadBytes s (a + 1) n

/-! ### The sponge context -/

/-- PermuteContext (40_permutation.md R132). -/
def permuteContext (c : Sponge) : Sponge := { c with lanes := permuteLanes c.lanes, permcnt := c.permcnt + 1 }

/-- R.POS moves to the next byte of the rate window; the byte that fills the window permutes at once
(41_sponge.md R161, R165, R167). -/
def advance (c : Sponge) : Sponge :=
  if c.pos + 1 = c.rate then { permuteContext c with pos := 0 } else { c with pos := c.pos + 1 }

/-- One byte of ABSORB's loop (41_sponge.md R161). -/
def absorbByte (c : Sponge) (v : Byte) : Sponge :=
  advance { c with lanes := xorStateByte c.lanes c.pos.toNat v }

/-- ABSORB's loop (41_sponge.md R161). -/
def absorbBytes (c : Sponge) (input : List Byte) : Sponge := input.foldl absorbByte c

/-- FINALIZE's padding, in the order written (41_sponge.md R163). -/
def padContext (c : Sponge) : Sponge :=
  { c with lanes :=
      xorStateByte (xorStateByte c.lanes c.pos.toNat c.delim) (c.rate.toNat - 1) Config.padFinalByte }

/-- The n bytes SQUEEZE's loop writes out (41_sponge.md R165). -/
def squeezeOutput : Nat → Sponge → List Byte
  | 0, _ => []
  | n + 1, c => stateByte c.lanes c.pos.toNat :: squeezeOutput n (advance c)

/-- The context after n bytes of SQUEEZE's loop (41_sponge.md R165). -/
def squeezeContext : Nat → Sponge → Sponge
  | 0, c => c
  | n + 1, c => squeezeContext n (advance c)

/-- The context INIT starts (41_sponge.md R160). -/
def startedSponge (rate delim : Byte) : Sponge :=
  { lanes := Vector.replicate Config.laneCount 0, rate := rate, delim := delim, pos := 0, phase := .absorbing,
    permcnt := 0 }

/-! ### Faults -/

/-- raise Fault(cause, addr) in a command of word w: the four fault registers and nothing else (60_exceptions.md R240). -/
def raiseFault (w : Word) (cause : Cause) (addr : Word) (s : State) : State :=
  { s with faults := { err := true, cause := cause, errcmd := w, erraddr := addr } }

/-- The way out of a fault and back to the reset state: every register and lane to its value of 10_state.md R39; host
memory, the platform and the bus are not the engine's (43_control.md R221, 70_reset_and_hazards.md R280). -/
def resetEngine (s : State) : State :=
  { s with sponge := Sponge.reset, faults := FaultRegs.reset, operands := OperandRegs.reset }

/-- A command of word w as 43_control.md R222 carries it out: nothing under the error lockout (60_exceptions.md R250),
else the first fault its checks find, else its effect. -/
def runCommand (w : Word) (check : State → Option (Cause × Word)) (effect : State → State) (s : State) :
    Host.Outcome State Fault Refusal :=
  if s.faults.err then .next s
  else
    match check s with
    | some (cause, addr) => .next (raiseFault w cause addr s)
    | none => .next (effect s)

/-! ### The register block -/

/-- The block admits naturally aligned 8-byte accesses inside its 256 bytes, and no other (10_state.md R40). DESIGN CHOICE
(log 28): alignment is that of the offset, which is that of the bus address wherever BASE is a multiple of 8. -/
def admittedAccess (offset width : Nat) : Bool := width == 8 && offset % 8 == 0 && offset < Config.blockBytes

/-- The value a host reads at an offset (10_state.md R33): CMD and the reserved offsets read 0 (R40). -/
def readRegister (s : State) (offset : Nat) : Word :=
  match offset with
  | 0x08 => statusWord s.sponge s.faults
  | 0x10 => s.sponge.rate.setWidth 64
  | 0x18 => s.sponge.delim.setWidth 64
  | 0x20 => s.sponge.pos.setWidth 64
  | 0x28 => s.operands.src
  | 0x30 => s.operands.dst
  | 0x38 => s.operands.len
  | 0x40 => s.sponge.permcnt
  | 0x48 => s.faults.errcmd
  | 0x50 => s.faults.erraddr
  | _ => 0

/-- A host write to an offset other than CMD's: SRC, DST and LEN take it, the read-only registers and the reserved
offsets ignore it (10_state.md R33, R34, R40). -/
def writeRegister (s : State) (offset : Nat) (v : Word) : State :=
  match offset with
  | 0x28 => { s with operands := { s.operands with src := v } }
  | 0x30 => { s with operands := { s.operands with dst := v } }
  | 0x38 => { s with operands := { s.operands with len := v } }
  | _ => s

end Sys2Proof.Machine
end

