-- ==== Sys2Proof/Machine/Control.lean ====
section
/-! DEFINITION. NOP and RESET (43_control.md R220, R221). -/

namespace Sys2Proof.Machine

/-- NOP: nothing, in every phase (43_control.md R220). -/
def execNop (s : State) : Host.Outcome State Fault Refusal :=
  runCommand (encode .nop) (fun _ => none) (fun t => t) s

/-- RESET: the reset state, in every phase and under the error lockout (43_control.md R221, 60_exceptions.md R250). -/
def execReset (s : State) : Host.Outcome State Fault Refusal := .next (resetEngine s)

end Sys2Proof.Machine
end

