-- ==== Sys2Proof/Machine/PermuteCommand.lean ====
section
/-! DEFINITION. PERMUTE: Keccak-f[1600] of a 200-byte buffer in host memory (40_permutation.md R133). -/

namespace Sys2Proof.Machine

/-- PERMUTE's checks: both wrap checks, then SRC's admission, then DST's (40_permutation.md R133, 20_memory.md R67). It
is legal in every phase. -/
def permuteCheck (s : State) : Option (Cause × Word) :=
  rangeFault s.platform [permuteSource s.operands, permuteDestination s.operands]

/-- The state buffer PERMUTE reads: all 200 SRC bytes, before any DST byte is written (20_memory.md R69). -/
def permuteInput (s : State) : Lanes := lanesOfBytes (dmaReadBytes s s.operands.src.toNat Config.stateBytes)

/-- PERMUTE's effect: only the 200 DST bytes (40_permutation.md R133). -/
def permuteEffect (s : State) : State :=
  { s with mem := s.mem.writeBytes s.operands.dst.toNat (bytesOfLanes (permuteLanes (permuteInput s))) }

/-- PERMUTE (40_permutation.md R133). -/
def execPermute (s : State) : Host.Outcome State Fault Refusal :=
  runCommand (encode .permute) permuteCheck permuteEffect s

end Sys2Proof.Machine
end

