-- ==== Sys2Proof/Machine/SpongeCommands.lean ====
section
/-! DEFINITION. INIT, ABSORB, FINALIZE and SQUEEZE (41_sponge.md R160, R161, R163, R165): for each command its checks in
the order of 43_control.md R222, its effect, and its meaning. -/

namespace Sys2Proof.Machine

/-- INIT's check: BAD_RATE (41_sponge.md R160, 60_exceptions.md R243). -/
def initCheck (rate : Byte) : Option (Cause × Word) :=
  if rate.toNat = 0 ∨ 200 < rate.toNat then some (.badRate, 0) else none

/-- INIT (41_sponge.md R160). -/
def execInit (rate delim : Byte) (s : State) : Host.Outcome State Fault Refusal :=
  runCommand (encode (.init rate delim)) (fun _ => initCheck rate)
    (fun t => { t with sponge := startedSponge rate delim }) s

/-- ABSORB's checks: NOT_INITIALISED, ABSORB_AFTER_FINALIZE, then the range checks on SRC (41_sponge.md R161). -/
def absorbCheck (s : State) : Option (Cause × Word) :=
  if s.sponge.phase = .uninit then some (.notInitialised, 0)
  else if s.sponge.phase ≠ .absorbing then some (.absorbAfterFinalize, 0)
  else rangeFault s.platform [absorbSource s.operands]

/-- ABSORB's effect (41_sponge.md R161). -/
def absorbEffect (s : State) : State :=
  { s with sponge := absorbBytes s.sponge (dmaReadBytes s s.operands.src.toNat s.operands.len.toNat) }

/-- ABSORB (41_sponge.md R161). -/
def execAbsorb (s : State) : Host.Outcome State Fault Refusal :=
  runCommand (encode .absorb) absorbCheck absorbEffect s

/-- FINALIZE's checks: NOT_INITIALISED, FINALIZE_TWICE (41_sponge.md R163). -/
def finalizeCheck (s : State) : Option (Cause × Word) :=
  if s.sponge.phase = .uninit then some (.notInitialised, 0)
  else if s.sponge.phase ≠ .absorbing then some (.finalizeTwice, 0)
  else none

/-- FINALIZE's effect on the context (41_sponge.md R163). -/
def finalizeContext (c : Sponge) : Sponge :=
  { permuteContext (padContext c) with pos := 0, phase := .finalized }

/-- FINALIZE (41_sponge.md R163). -/
def execFinalize (s : State) : Host.Outcome State Fault Refusal :=
  runCommand (encode .finalize) finalizeCheck (fun t => { t with sponge := finalizeContext t.sponge }) s

/-- SQUEEZE's checks: NOT_INITIALISED, SQUEEZE_BEFORE_FINALIZE, then the range checks on DST (41_sponge.md R165). -/
def squeezeCheck (s : State) : Option (Cause × Word) :=
  if s.sponge.phase = .uninit then some (.notInitialised, 0)
  else if s.sponge.phase = .absorbing then some (.squeezeBeforeFinalize, 0)
  else rangeFault s.platform [squeezeDestination s.operands]

/-- SQUEEZE's effect (41_sponge.md R165). The DMA writes do not touch the context, so the output bytes are all computed
from it first; the order of the byte accesses is unspecified (20_memory.md R69, log 21). -/
def squeezeEffect (s : State) : State :=
  { s with
    sponge := { squeezeContext s.operands.len.toNat s.sponge with phase := .squeezing }
    mem := s.mem.writeBytes s.operands.dst.toNat (squeezeOutput s.operands.len.toNat s.sponge) }

/-- SQUEEZE (41_sponge.md R165). -/
def execSqueeze (s : State) : Host.Outcome State Fault Refusal :=
  runCommand (encode .squeeze) squeezeCheck squeezeEffect s

end Sys2Proof.Machine
end

