-- ==== Sys2Proof/Machine/Dispatch.lean ====
section
/-! DEFINITION. One arm per command (43_control.md R222). -/

namespace Sys2Proof.Machine

/-- Carry out a command (43_control.md R222): exec i s is what a CMD write of encode i does in s, the error lockout
included (log 15). -/
def exec (i : Instr) (s : State) : Host.Outcome State Fault Refusal :=
  match i with
  | .nop => Sys2Proof.Machine.execNop s
  | .init rate delim => Sys2Proof.Machine.execInit rate delim s
  | .absorb => Sys2Proof.Machine.execAbsorb s
  | .finalize => Sys2Proof.Machine.execFinalize s
  | .squeeze => Sys2Proof.Machine.execSqueeze s
  | .permute => Sys2Proof.Machine.execPermute s
  | .reset => Sys2Proof.Machine.execReset s

end Sys2Proof.Machine
end

