-- ==== Sys2Proof/Machine/Bus.lean ====
section
/-! DEFINITION. The host interface (43_control.md R222 to R226): accepting a command word, completing it, and serving one
interaction of the surroundings. -/

namespace Sys2Proof.Machine

/-! ### Accepting a command word -/

/-- A word that decodes as ILLEGAL (60_exceptions.md R242), ignored under the error lockout (30_encoding.md R95). -/
def illegalCommand (w : Word) (s : State) : Host.Outcome State Fault Refusal :=
  runCommand w (fun _ => some (.illegalCommand, 0)) (fun t => t) s

/-- OnCmdWrite(W) (43_control.md R222). -/
def acceptWord (w : Word) (s : State) : Host.Outcome State Fault Refusal :=
  match decode w with
  | .ok i => exec i s
  | .error _ => illegalCommand w s

/-! ### What a command leaves on the memory side -/

/-- The DST bytes a command writes from s; none where it does not run (60_exceptions.md R240, R250). -/
def writtenSpan (i : Instr) (s : State) : Option Span :=
  match i with
  | .nop      => none
  | .init _ _ => none
  | .absorb   => none
  | .finalize => none
  | .squeeze  =>
    if s.faults.err || (squeezeCheck s).isSome then none
    else some { base := s.operands.dst.toNat, len := s.operands.len.toNat }
  | .permute  =>
    if s.faults.err || (permuteCheck s).isSome then none
    else some { base := s.operands.dst.toNat, len := Config.stateBytes }
  | .reset    => none

/-- The DST bytes a command word writes from s. -/
def wordSpan (w : Word) (s : State) : Option Span :=
  match decode w with
  | .ok i => writtenSpan i s
  | .error _ => none

/-- The span holds the address. -/
def spanHolds (span : Option Span) (a : Nat) : Bool :=
  match span with
  | some p => p.covers a
  | none => false

/-- A host load of the span's bytes still waits for something: the host does not know that the command has completed
(70_reset_and_hazards.md R284), has not ordered the load after the completion (20_memory.md R71 (b), R72), or holds a stale
copy (R75; logs 9, 26). -/
def WrittenSpan.hides (x : WrittenSpan) : Bool := x.posted || x.unordered || x.cached

/-- After a register read the host knows that the command has completed (70_reset_and_hazards.md R284). -/
def WrittenSpan.afterRead (x : WrittenSpan) : WrittenSpan := { x with posted := false }

/-- A fence orders later loads after the completion of the command where the host knows of it
(20_memory.md R71 (b), R72; log 26). -/
def WrittenSpan.afterFence (x : WrittenSpan) : WrittenSpan := { x with unordered := x.posted && x.unordered }

/-- Cache maintenance discards the stale bytes of the command where the host knows of its completion and has ordered the
maintenance after it (20_memory.md R75; log 9). -/
def WrittenSpan.afterMaintain (x : WrittenSpan) : WrittenSpan :=
  { x with cached := (x.posted || x.unordered) && x.cached }

/-- Every written span changed by f; a span that waits for nothing more is dropped. -/
def updateWritten (f : WrittenSpan → WrittenSpan) (l : List WrittenSpan) : List WrittenSpan :=
  (l.map f).filter WrittenSpan.hides

/-- The span without the byte at a: what is left below it and above it. -/
def WrittenSpan.without (a : Nat) (x : WrittenSpan) : List WrittenSpan :=
  if x.span.covers a then
    let below : WrittenSpan := { x with span := { base := x.span.base, len := a - x.span.base } }
    let above : WrittenSpan := { x with span := { base := a + 1, len := x.span.base + x.span.len - (a + 1) } }
    [below, above].filter fun y => 0 < y.span.len
  else [x]

/-- A host load need not see what some command wrote at a. -/
def unseen (s : State) (a : Nat) : Bool := s.visibility.written.any fun x => x.hides && x.span.covers a

/-- What a store to a leaves to be seen: the next command's DMA need not see it before a fence where HOST_ORDER asks for
one (20_memory.md R71, R72) and before cache maintenance where DMA is not coherent (R75), and a load of the byte gives
what was stored, whatever a command wrote there before (43_control.md R225). -/
def markStored (a : Nat) (s : State) : State :=
  { s with visibility :=
      { unfenced := if s.platform.hostOrdered then s.visibility.unfenced else a :: s.visibility.unfenced
        uncleaned := if s.platform.dmaCoherent then s.visibility.uncleaned else a :: s.visibility.uncleaned
        written := s.visibility.written.flatMap (WrittenSpan.without a) } }

/-- A host store (43_control.md R225), with what the DMA need not see yet (20_memory.md R71, R75). DESIGN CHOICE (log 31):
a store by another engine instance is treated as a host store. Memory takes it at once; where it is on its way, the DMA's
reads of it are free (log 8), and so is a DST byte it may overtake (log 25). -/
def hostStore (a : Nat) (v : Byte) (s : State) : State := markStored a { s with mem := s.mem.write a v }

/-- The byte a racing load of address a gets (20_memory.md R70). The command takes memory from s.mem to `after`, t is the
state as the races so far leave it, and index is the access's number in s.overlap. A byte of an earlier command that the
host need not see yet is free; outside DST memory decides; a DST byte is the one before or after the command (log 6), or
any byte where another store is in play (logs 7, 25). -/
def racedLoadByte (s t : State) (span : Option Span) (after : Memory) (index a : Nat) : Byte :=
  if unseen t a then Config.unseenRacedByte s.serial index
  else if spanHolds span a then
    if unsettled s a then Config.doublyWrittenByte s.serial index
    else if Config.racedLoadSeesNew s.serial index then after.read a else s.mem.read a
  else t.mem.read a

/-- The racing accesses take their effect, in arrival order: a store lands as any host store does (log 5), but at a DST
byte what it leaves is not stated (log 7). -/
def settleRaces (s : State) (span : Option Span) (after : Memory) : Nat → List MemAccess → State → State
  | _, [], t => t
  | index, .store addr v :: rest, t =>
    settleRaces s span after (index + 1) rest
      (hostStore addr.toNat (if spanHolds span addr.toNat then Config.doublyWrittenByte s.serial index else v) t)
  | index, .load addr :: rest, t =>
    settleRaces s span after (index + 1) rest
      { t with answers := t.answers ++ [.racedLoad (racedLoadByte s t span after index addr.toNat)] }

/-- Each of the addresses that lies in the span is left at a free value: a store to it that was on its way may land after
what the command wrote there (43_control.md R225, 20_memory.md R71, R75; log 25). -/
def landLate (serial : Nat) (span : Option Span) : List Nat → Memory → Memory
  | [], m => m
  | a :: rest, m =>
    landLate serial span rest (if spanHolds span a then m.write a (Config.lateStoreByte serial a) else m)

/-- The overlap of a command that took memory from s.mem to t.mem, settled: stores on their way to DST may land late, and
the races take their effect. -/
def settleOverlap (span : Option Span) (s t : State) : State :=
  let late := landLate s.serial span (s.visibility.unfenced ++ s.visibility.uncleaned) t.mem
  { settleRaces s span t.mem 0 s.overlap { t with mem := late } with overlap := [] }

/-- What a host load need not see yet after a command that wrote the span (70_reset_and_hazards.md R284,
20_memory.md R71 (b), R72, R75, logs 9, 26). -/
def markWritten (span : Option Span) (s : State) : State :=
  match span with
  | none => s
  | some p =>
    let x : WrittenSpan :=
      { span := p, posted := s.platform.postedWrites, unordered := !s.platform.hostOrdered,
        cached := !s.platform.dmaCoherent }
    { s with visibility := { s.visibility with
        written := if x.hides then x :: s.visibility.written else s.visibility.written } }

/-- A CMD write completes: its races are settled and the host has its completion (43_control.md R224). -/
def completeCommand (span : Option Span) (s t : State) : State :=
  let u := markWritten span (settleOverlap span s t)
  { u with answers := u.answers ++ [.completed] }

/-- A host write of w to CMD, from acceptance to completion (43_control.md R222, R224). -/
def commandWrite (w : Word) (s : State) : Host.Outcome State Fault Refusal :=
  match acceptWord w s with
  | .next t => .next (completeCommand (wordSpan w s) s t)
  | .fault r => .fault r
  | .refused r => .refused r

/-! ### Hardware reset -/

/-- The n DST bytes from a on, each as the abandoned command would have left it or as it was
(70_reset_and_hazards.md R280, log 10). -/
def landSome (serial : Nat) (after : Memory) : Nat → Nat → Memory → Memory
  | _, 0, m => m
  | a, n + 1, m =>
    landSome serial after (a + 1) n (if Config.landedBeforeReset serial a then m.write a (after.read a) else m)

/-- Memory after a command that wrote the span was abandoned: `before` and `after` are memory around the command. -/
def partlyWritten (serial : Nat) (span : Option Span) (before after : Memory) : Memory :=
  match span with
  | none => before
  | some p => landSome serial after p.base p.len before

/-- A CMD write of w whose command a hardware reset abandons (70_reset_and_hazards.md R280): any subset of its DST bytes
is written, the races are settled, and the engine is reset. The host gets no completion (log 10). DESIGN CHOICE:
the accesses held behind the command stay pending and are served after the reset (log 29), and the host sees the bytes that
landed by what it does after the reset, as if the command had completed then (log 34). -/
def cutCommand (w : Word) (s : State) : Host.Outcome State Fault Refusal :=
  match acceptWord w s with
  | .next t =>
    .next (resetEngine (markWritten (wordSpan w s) (settleOverlap (wordSpan w s) s
      { s with mem := partlyWritten s.serial (wordSpan w s) s.mem t.mem })))
  | .fault r => .fault r
  | .refused r => .refused r

/-! ### Register and memory accesses of the host -/

/-- A read of any register of the block tells the host that every earlier command has completed (43_control.md R224,
70_reset_and_hazards.md R284); it has no other effect (10_state.md R40). DESIGN CHOICE (log 27): one host agent's read
counts for all. -/
def hostRead (offset : Nat) (s : State) : State :=
  { s with
    answers := s.answers ++ [.register (readRegister s offset)]
    visibility := { s.visibility with written := updateWritten .afterRead s.visibility.written } }

/-- A host load between commands (43_control.md R225). DESIGN CHOICE (log 31): a load by another engine instance is treated
as a host load. -/
def hostLoad (a : Nat) (s : State) : State :=
  { s with answers := s.answers ++
      [.loaded (if unseen s a then Config.unseenByte s.serial a else s.mem.read a)] }

/-- The HOST_ORDER fence: earlier stores are ordered before later register writes, and later loads after every command
whose completion the host knows of (20_memory.md R71, R72; log 26). DESIGN CHOICE (log 27): one host agent's fence counts
for all. -/
def hostFence (s : State) : State :=
  { s with visibility := { s.visibility with
      unfenced := []
      written := updateWritten .afterFence s.visibility.written } }

/-- Cache maintenance: stores are made visible to the DMA, and the stale cached DST bytes are discarded of every command
whose completion the host knows of and has ordered the maintenance after (20_memory.md R75, log 9). DESIGN CHOICE: one host
agent's maintenance counts for all (log 27), and one event does both duties of R75 at once, for every address (log 32). -/
def hostMaintain (s : State) : State :=
  { s with visibility := { s.visibility with
      uncleaned := []
      written := updateWritten .afterMaintain s.visibility.written } }

/-- The address a memory access touches. -/
def MemAccess.address : MemAccess → Nat
  | .store addr _ => addr.toNat
  | .load addr => addr.toNat

/-- A memory access to host memory; a byte access to a register block has no step (10_state.md R40). -/
def memoryAccess (acc : MemAccess) (s : State) : Host.Outcome State Fault Refusal :=
  if inRegisterBlock s.platform acc.address then .fault .accessNotAdmitted
  else
    match acc with
    | .store addr v => .next (hostStore addr.toNat v s)
    | .load addr => .next (hostLoad addr.toNat s)

/-- An access of another agent that will overlap the next command (20_memory.md R70). -/
def raceAccess (acc : MemAccess) (s : State) : Host.Outcome State Fault Refusal :=
  if inRegisterBlock s.platform acc.address then .fault .accessNotAdmitted
  else .next { s with overlap := s.overlap ++ [acc] }

/-! ### Serving one interaction -/

/-- A host write to the register block (10_state.md R33, R40). -/
def registerWrite (offset width : Nat) (v : Word) (s : State) : Host.Outcome State Fault Refusal :=
  if admittedAccess offset width then
    if offset = 0x00 then commandWrite v s else .next (writeRegister s offset v)
  else .fault .accessNotAdmitted

/-- A host read of the register block (10_state.md R33, R40). -/
def registerRead (offset width : Nat) (s : State) : Host.Outcome State Fault Refusal :=
  if admittedAccess offset width then .next (hostRead offset s) else .fault .accessNotAdmitted

/-- Serve one interaction (43_control.md R225). -/
def serve (e : BusEvent) (s : State) : Host.Outcome State Fault Refusal :=
  match e with
  | .write offset width v => registerWrite offset width v s
  | .read offset width => registerRead offset width s
  | .memory acc => memoryAccess acc s
  | .race acc => raceAccess acc s
  | .fence => .next (hostFence s)
  | .maintain => .next (hostMaintain s)
  | .configureAdmit regions => .next { s with platform := { s.platform with regions := regions } }
  | .hardwareReset => .next (resetEngine s)
  | .commandCutByReset w => cutCommand w s

/-- The state as the first pending interaction is taken up: it leaves the queue, and free values drawn for it are fresh
(log 13). -/
def takeUp (rest : List BusEvent) (s : State) : State := { s with pending := rest, serial := s.serial + 1 }

/-- One step: the first pending interaction is served, in arrival order (43_control.md R224); with none pending the
engine is idle and keeps all state (60_exceptions.md R261). -/
def serveFirst (s : State) : Host.Outcome State Fault Refusal :=
  match s.pending with
  | [] => .next s
  | e :: rest => serve e (takeUp rest s)

/-- The host access that brings a word of nbits bits as a command: an aligned 8-byte write to CMD (30_encoding.md R90). -/
def commandAccess (nbits w : Nat) : BusEvent := .write 0x00 8 (BitVec.ofNat 64 (w % 2 ^ nbits))

end Sys2Proof.Machine
end

