-- ==== Sys2Proof/Machine/Step.lean ====
section
/-! DEFINITION. One step of the machine, and where its next command comes from. -/

namespace Sys2Proof.Machine

/-- One step: the first pending interaction of the surroundings is served (43_control.md R224, R225). -/
def step (s : State) : Host.Outcome State Fault Refusal := serveFirst s

/-- s with the command word w next: the engine fetches nothing (20_memory.md R74), so its next command is the host's next
write to CMD, put in front of the pending accesses (log 14). -/
def State.withFetchWord (s : State) (nbits w : Nat) : State := { s with pending := commandAccess nbits w :: s.pending }

end Sys2Proof.Machine
end

