-- ==== Sys2Proof/Machine/HostSyntax.lean ====
section
/-! DEFINITION. What a host program is written in: the assembler syntax (30_encoding.md R99), the parameter sets
(42_parameter_sets.md R200, R201) and the one-shot pseudo-instructions (R203), each as the register accesses it expands
to. These are constants of host programs, not engine state (00_scope.md R17). -/

namespace Sys2Proof.Machine

/-- The registers of the block that have a name (10_state.md R33). -/
inductive RegName where
  | cmd | status | rate | delim | pos | src | dst | len | permcnt | errcmd | erraddr
  deriving DecidableEq, Repr

/-- The offset of a register (10_state.md R33). -/
def regOffset : RegName → Nat
  | .cmd     => 0x00
  | .status  => 0x08
  | .rate    => 0x10
  | .delim   => 0x18
  | .pos     => 0x20
  | .src     => 0x28
  | .dst     => 0x30
  | .len     => 0x38
  | .permcnt => 0x40
  | .errcmd  => 0x48
  | .erraddr => 0x50

/-- A line of the assembler syntax (30_encoding.md R99). -/
inductive AsmLine where
  | nop
  | init (rate delim : Byte)
  | absorb (src len : Word)
  | finalize
  | squeeze (dst len : Word)
  | permute (src dst : Word)
  | reset
  | rd (reg : RegName)
  | wr (reg : RegName) (value : Word)
  deriving DecidableEq, Repr

/-- One aligned 8-byte register write. -/
def regWrite (r : RegName) (v : Word) : BusEvent := .write (regOffset r) 8 v

/-- The register accesses a line assembles to, in order (30_encoding.md R99, log 22). -/
def assembleLine : AsmLine → List BusEvent
  | .nop             => [regWrite .cmd (encode .nop)]
  | .init rate delim => [regWrite .cmd (encode (.init rate delim))]
  | .absorb src len  => [regWrite .src src, regWrite .len len, regWrite .cmd (encode .absorb)]
  | .finalize        => [regWrite .cmd (encode .finalize)]
  | .squeeze dst len => [regWrite .dst dst, regWrite .len len, regWrite .cmd (encode .squeeze)]
  | .permute src dst => [regWrite .src src, regWrite .dst dst, regWrite .cmd (encode .permute)]
  | .reset           => [regWrite .cmd (encode .reset)]
  | .rd reg          => [.read (regOffset reg) 8]
  | .wr reg v        => [regWrite reg v]

/-- A list of lines, assembled. -/
def assemble (lines : List AsmLine) : List BusEvent := lines.flatMap assembleLine

/-- The named parameter sets (42_parameter_sets.md R200, R201). -/
inductive Variant where
  | keccak256 | sha3_224 | sha3_256 | sha3_384 | sha3_512 | shake128 | shake256
  deriving DecidableEq, Repr

/-- rate_V (42_parameter_sets.md R200, R201). -/
def variantRate : Variant → Byte
  | .keccak256 => 136
  | .sha3_224  => 144
  | .sha3_256  => 136
  | .sha3_384  => 104
  | .sha3_512  => 72
  | .shake128  => 168
  | .shake256  => 136

/-- delim_V (42_parameter_sets.md R200, R201). -/
def variantDelim : Variant → Byte
  | .keccak256 => 0x01
  | .sha3_224  => 0x06
  | .sha3_256  => 0x06
  | .sha3_384  => 0x06
  | .sha3_512  => 0x06
  | .shake128  => 0x1F
  | .shake256  => 0x1F

/-- out_V where the variant fixes it; the caller chooses a SHAKE's (42_parameter_sets.md R200, R201). -/
def variantOutput : Variant → Option Nat
  | .keccak256 => some 32
  | .sha3_224  => some 28
  | .sha3_256  => some 32
  | .sha3_384  => some 48
  | .sha3_512  => some 64
  | .shake128  => none
  | .shake256  => none

/-- The length a one-shot helper squeezes: out_V, or the caller's where the variant fixes none (42_parameter_sets.md
R202, R203). -/
def squeezeLength (v : Variant) (asked : Word) : Word :=
  match variantOutput v with
  | some n => BitVec.ofNat 64 n
  | none => asked

/-- hash.V SRCADDR, N, DSTADDR and xof.V SRCADDR, N, DSTADDR, L (42_parameter_sets.md R203). -/
def oneShotLines (v : Variant) (src n dst asked : Word) : List AsmLine :=
  [.init (variantRate v) (variantDelim v), .absorb src n, .finalize, .squeeze dst (squeezeLength v asked), .rd .status]

/-- The register accesses of a one-shot pseudo-instruction (42_parameter_sets.md R203). -/
def oneShot (v : Variant) (src n dst asked : Word) : List BusEvent := assemble (oneShotLines v src n dst asked)

end Sys2Proof.Machine
end

