-- ==== Sys2Proof/Safety.lean ====
section
/-! DEFINITION. What counts as a good run, and the invariant of the machine between steps. -/

namespace Sys2Proof.Machine

/-- A run is good only if no fault is recorded at its end (43_control.md R226). -/
def State.good (s : State) : Bool := !s.faults.err

/-- A context in use: a legal rate and a position below it (10_state.md R24, R26). -/
def Sponge.inUse (c : Sponge) : Prop := 1 ≤ c.rate.toNat ∧ c.rate.toNat ≤ 200 ∧ c.pos.toNat < c.rate.toNat

/-- The sponge context between commands: UNINIT holds the reset values, every other phase a legal rate and a position
below it (10_state.md R24, R25, R26, R35; 70_reset_and_hazards.md R280). -/
def Sponge.consistent (c : Sponge) : Prop :=
  (c.phase = .uninit → c = Sponge.reset) ∧ (c.phase ≠ .uninit → c.inUse)

/-- The fault registers between commands: all at their reset values while ERR = 0; a cause while ERR = 1; and an address
only for the two causes that record one (10_state.md R29, R30, R31; 60_exceptions.md R241). -/
def FaultRegs.consistent (f : FaultRegs) : Prop :=
  (f.err = false → f = FaultRegs.reset) ∧
    (f.err = true → f.cause ≠ .none) ∧
    (f.erraddr ≠ 0 → f.cause = .memFault ∨ f.cause = .rangeWrap)

/-- The machine's invariant: what every step keeps from every state that has it. -/
def State.Inv (s : State) : Prop :=
  s.sponge.consistent ∧ s.faults.consistent ∧ Memory.wf s.mem = true

/-! ### The terms claims are made in -/

/-- A buffer of `len` bytes from `base` that the range checks pass: empty, or not past the top of the DMA space with
every byte admitted (20_memory.md R67). -/
def admittedBuffer (p : Platform) (k : AccessKind) (base len : Nat) : Prop :=
  len = 0 ∨ (base + len ≤ 2 ^ 64 ∧ ∀ a, base ≤ a → a < base + len → admits p k a = true)

/-- The addresses the accesses load from, in order. -/
def loadedAddresses (accesses : List MemAccess) : List Nat :=
  accesses.filterMap fun acc =>
    match acc with
    | .store _ _ => none
    | .load addr => some addr.toNat

/-- The machine with other operand registers. -/
def State.withOperands (s : State) (src dst len : Word) : State :=
  { s with operands := { src := src, dst := dst, len := len } }

/-- The machine with another lane file. -/
def State.withLanes (s : State) (A : Lanes) : State := { s with sponge := { s.sponge with lanes := A } }

/-- The lane-wise XOR of two lane files. -/
def xorLanes (A B : Lanes) : Lanes := lanesOfXY fun x y => laneAt A x y ^^^ laneAt B x y

end Sys2Proof.Machine
end

