-- ==== Sys2Proof/Certificates/Slice0/Obligations.lean ====
section
/-! DEFINITION. The statements about the engine, taken from the numbered rules of spec/, family by family. -/

open Sys2Proof Sys2Proof.Machine

/-! ### Encoding (30_encoding.md) -/

/-- 30_encoding.md R90, R91, R94, R97: decoding and encoding agree, in both directions: a word decodes to a command
exactly when it is that command's word. -/
def Obligations.DecodeEncodeAgree : Prop := ∀ (w : Word) (i : Instr), decode w = .ok i ↔ w = encode i

/-- 30_encoding.md R94: a word decodes to a command exactly when a row of the opcode map matches it, and to the command
that row names; with the two examples of the rule. -/
def Obligations.LegalWordsAreTheOpcodeMaps : Prop :=
  (∀ (w : Word) (i : Instr), decode w = .ok i → ∃ r ∈ opcodeMap, r.mnemonic = i.mnemonic ∧ w &&& r.mask = r.bits) ∧
    (∀ (w : Word), ∀ r ∈ opcodeMap, w &&& r.mask = r.bits → ∃ i, decode w = .ok i ∧ i.mnemonic = r.mnemonic) ∧
    encode (.init 136 0x06) = 0x0000000000068801#64 ∧ encode (.init 136 0x01) = 0x0000000000018801#64

/-- 30_encoding.md R95: which words are illegal; an illegal word raises ILLEGAL_COMMAND when ERR = 0 and is ignored when
ERR = 1; an INIT with an illegal rate decodes, and raises BAD_RATE. -/
def Obligations.IllegalWordsFaultOrAreIgnored : Prop :=
  (∀ w : Word, (∀ i, decode w ≠ .ok i) ↔
      (6 ≤ w.toNat % 16 ∧ w.toNat % 16 ≤ 14) ∨
      (w.toNat % 16 ≠ 1 ∧ ∃ k, 4 ≤ k ∧ k < 64 ∧ w.getLsbD k = true) ∨
      (w.toNat % 16 = 1 ∧ ∃ k, ((4 ≤ k ∧ k < 8) ∨ (24 ≤ k ∧ k < 64)) ∧ w.getLsbD k = true)) ∧
    (∀ (w : Word) (s : State), (∀ i, decode w ≠ .ok i) → s.faults.err = false →
      acceptWord w s =
        .next { s with faults := { err := true, cause := .illegalCommand, errcmd := w, erraddr := 0 } }) ∧
    (∀ (w : Word) (s : State), (∀ i, decode w ≠ .ok i) → s.faults.err = true → acceptWord w s = .next s) ∧
    (∀ rate delim : Byte, rate.toNat = 0 ∨ 200 < rate.toNat →
      decode (encode (.init rate delim)) = .ok (.init rate delim) ∧
        ∀ s : State, s.faults.err = false →
          acceptWord (encode (.init rate delim)) s =
            .next { s with faults :=
              { err := true, cause := .badRate, errcmd := encode (.init rate delim), erraddr := 0 } })

/-- 30_encoding.md R94: a few words written out from the spec's encodings decode to the commands they stand for. -/
def Obligations.WordsOfTheSpecDecode : Prop :=
  decode 0x0000000000000000#64 = .ok .nop ∧
    decode 0x0000000000068801#64 = .ok (.init 136 0x06) ∧
    decode 0x00000000001FA801#64 = .ok (.init 168 0x1F) ∧
    decode 0x0000000000000002#64 = .ok .absorb ∧
    decode 0x0000000000000003#64 = .ok .finalize ∧
    decode 0x0000000000000004#64 = .ok .squeeze ∧
    decode 0x0000000000000005#64 = .ok .permute ∧
    decode 0x000000000000000F#64 = .ok .reset

/-- 42_parameter_sets.md R200, R201: the INIT words of the named parameter sets. The rates of the SHAKE128 and SHAKE256
clauses are the spec's own general knowledge (R201, D42, G9; log 30). -/
def Obligations.ParameterSetWords : Prop :=
  encode (.init (variantRate .keccak256) (variantDelim .keccak256)) = 0x0000000000018801#64 ∧
    encode (.init (variantRate .sha3_224) (variantDelim .sha3_224)) = 0x0000000000069001#64 ∧
    encode (.init (variantRate .sha3_256) (variantDelim .sha3_256)) = 0x0000000000068801#64 ∧
    encode (.init (variantRate .sha3_384) (variantDelim .sha3_384)) = 0x0000000000066801#64 ∧
    encode (.init (variantRate .sha3_512) (variantDelim .sha3_512)) = 0x0000000000064801#64 ∧
    encode (.init (variantRate .shake128) (variantDelim .shake128)) = 0x00000000001FA801#64 ∧
    encode (.init (variantRate .shake256) (variantDelim .shake256)) = 0x00000000001F8801#64

/-! ### The byte view and the status register (10_state.md) -/

/-- 10_state.md R21: what byte S[k] is, and that writing S[k] changes those 8 bits of that lane and no other bit. -/
def Obligations.ByteViewOfTheLanes : Prop :=
  (∀ (A : Lanes) (k b : Nat), k < 200 → b < 8 →
      (stateByte A k).getLsbD b = (laneAt A (k / 8 % 5) (k / 8 / 5)).getLsbD (8 * (k % 8) + b)) ∧
    (∀ (A : Lanes) (k : Nat) (v : Byte) (i b : Nat), k < 200 → i < 25 → b < 64 →
      (lane (setStateByte A k v) i).getLsbD b =
        if i = k / 8 ∧ b / 8 = k % 8 then v.getLsbD (b % 8) else (lane A i).getLsbD b)

/-- 20_memory.md R62, R63: the lanes of a state buffer and the bytes of a lane file are the same 1600 bits: each is
recovered from the other. -/
def Obligations.StateBufferIsTheLaneFile : Prop :=
  (∀ A : Lanes, lanesOfBytes (bytesOfLanes A) = A) ∧
    (∀ buf : List Byte, buf.length = 200 → bytesOfLanes (lanesOfBytes buf) = buf)

/-- 10_state.md R32: the fields of STATUS, its reserved bits, and the worked example; with the codes of R.PHASE
(10_state.md R27) and of R.CAUSE (the table of 60_exceptions.md R241) that the fields show. -/
def Obligations.StatusLayout : Prop :=
  (∀ (c : Sponge) (f : FaultRegs),
      (statusWord c f).extractLsb' 0 2 = phaseCode c.phase ∧
        (statusWord c f).getLsbD 2 = f.err ∧
        (∀ k, 3 ≤ k → k < 8 → (statusWord c f).getLsbD k = false) ∧
        (statusWord c f).extractLsb' 8 8 = causeCode f.cause ∧
        (∀ k, 16 ≤ k → (statusWord c f).getLsbD k = false)) ∧
    (∀ (c : Sponge) (f : FaultRegs), c.phase = .absorbing → f.err = false → f.cause = .none →
      statusWord c f = 0x0000000000000001#64) ∧
    (∀ (c : Sponge) (f : FaultRegs), c.phase = .finalized → f.err = true → f.cause = .absorbAfterFinalize →
      statusWord c f = 0x0000000000000406#64) ∧
    (phaseCode .uninit = 0 ∧ phaseCode .absorbing = 1 ∧ phaseCode .finalized = 2 ∧ phaseCode .squeezing = 3) ∧
    causeCode .none = 0x00 ∧ causeCode .illegalCommand = 0x01 ∧ causeCode .badRate = 0x02 ∧
    causeCode .notInitialised = 0x03 ∧ causeCode .absorbAfterFinalize = 0x04 ∧ causeCode .finalizeTwice = 0x05 ∧
    causeCode .squeezeBeforeFinalize = 0x06 ∧ causeCode .memFault = 0x07 ∧ causeCode .rangeWrap = 0x08

/-- 10_state.md R33: what a host reads at every offset of the register block. -/
def Obligations.RegisterMap : Prop :=
  ∀ s : State,
    readRegister s 0x00 = 0 ∧
      readRegister s 0x08 = statusWord s.sponge s.faults ∧
      readRegister s 0x10 = s.sponge.rate.setWidth 64 ∧
      readRegister s 0x18 = s.sponge.delim.setWidth 64 ∧
      readRegister s 0x20 = s.sponge.pos.setWidth 64 ∧
      readRegister s 0x28 = s.operands.src ∧
      readRegister s 0x30 = s.operands.dst ∧
      readRegister s 0x38 = s.operands.len ∧
      readRegister s 0x40 = s.sponge.permcnt ∧
      readRegister s 0x48 = s.faults.errcmd ∧
      readRegister s 0x50 = s.faults.erraddr ∧
      ∀ offset, 0x58 ≤ offset → readRegister s offset = 0

/-- 10_state.md R40: an access that is not an aligned 8-byte access inside the block has no step, which the model gives the
form of a named stop (its choice of form, log 11) and judges by the offset (its choice, log 28); a write to a read-only
register or a reserved offset has no effect; CMD and the reserved offsets read 0; and a read changes no register and no
memory. -/
def Obligations.RegisterAccessRules : Prop :=
  (∀ (s : State) (offset width : Nat) (v : Word) (rest : List BusEvent),
      s.pending = .write offset width v :: rest → ¬(width = 8 ∧ offset % 8 = 0 ∧ offset + width ≤ 256) →
      step s = .fault .accessNotAdmitted) ∧
    (∀ (s : State) (offset width : Nat) (rest : List BusEvent),
      s.pending = .read offset width :: rest → ¬(width = 8 ∧ offset % 8 = 0 ∧ offset + width ≤ 256) →
      step s = .fault .accessNotAdmitted) ∧
    (∀ (s : State) (offset : Nat) (v : Word) (rest : List BusEvent),
      s.pending = .write offset 8 v :: rest → offset % 8 = 0 → offset < 256 →
      offset ≠ 0x00 → offset ≠ 0x28 → offset ≠ 0x30 → offset ≠ 0x38 → step s = .next (takeUp rest s)) ∧
    (∀ (s : State) (offset : Nat) (rest : List BusEvent),
      s.pending = .read offset 8 :: rest → offset % 8 = 0 → offset < 256 →
      ∃ t, step s = .next t ∧ t.answers = s.answers ++ [.register (readRegister s offset)] ∧
        t.sponge = s.sponge ∧ t.faults = s.faults ∧ t.operands = s.operands ∧ t.mem = s.mem ∧
        t.platform = s.platform ∧ t.overlap = s.overlap ∧ t.pending = rest ∧
        (offset = 0x00 ∨ 0x58 ≤ offset → t.answers = s.answers ++ [.register 0]))

/-- 10_state.md R34, 60_exceptions.md R250: a host write to SRC, DST or LEN takes effect at any time, the error lockout
included, and changes that register alone. -/
def Obligations.OperandRegistersWritable : Prop :=
  ∀ (s : State) (v : Word) (rest : List BusEvent),
    (s.pending = .write 0x28 8 v :: rest →
        step s = .next { takeUp rest s with operands := { s.operands with src := v } }) ∧
      (s.pending = .write 0x30 8 v :: rest →
        step s = .next { takeUp rest s with operands := { s.operands with dst := v } }) ∧
      (s.pending = .write 0x38 8 v :: rest →
        step s = .next { takeUp rest s with operands := { s.operands with len := v } })

/-! ### The permutation (40_permutation.md) -/

/-- 00_scope.md R11: bit i of ROTL64(v, n) is bit (i − n) mod 64 of v, and rotating by 0 changes nothing. -/
def Obligations.RotationMovesBits : Prop :=
  (∀ (v : Word) (n i : Nat), i < 64 → (rotl64 v n).getLsbD i = v.getLsbD ((i + 64 - n % 64) % 64)) ∧
    ∀ v : Word, rotl64 v 0 = v

/-- 40_permutation.md R120, R121: Permute is the 24 rounds 0 to 23 in that order, each Theta, RhoPi, Chi, Iota in that
order, each step reading the whole output of the one before. -/
def Obligations.PermuteRunsTheRounds : Prop :=
  ∀ A : Lanes, ∃ B : Nat → Lanes,
    B 0 = A ∧ (∀ ir, ir < 24 → B (ir + 1) = iota (chi (rhoPi (theta (B ir)))) ir) ∧ permuteLanes A = B 24

/-- 40_permutation.md R122: each lane is XORed with the parity of the column to its left and with the parity of the
column to its right rotated left by 1; with every column parity 0, Theta is the identity. The spec marks the formula as its
own general knowledge (log 20). -/
def Obligations.ThetaXorsTwoColumnParities : Prop :=
  (∀ (A : Lanes) (x y : Nat), x < 5 → y < 5 →
      laneAt (theta A) x y =
        laneAt A x y ^^^
          (laneAt A (x + 4) 0 ^^^ laneAt A (x + 4) 1 ^^^ laneAt A (x + 4) 2 ^^^ laneAt A (x + 4) 3 ^^^
            laneAt A (x + 4) 4) ^^^
          rotl64 (laneAt A (x + 1) 0 ^^^ laneAt A (x + 1) 1 ^^^ laneAt A (x + 1) 2 ^^^ laneAt A (x + 1) 3 ^^^
            laneAt A (x + 1) 4) 1) ∧
    (∀ A : Lanes,
      (∀ x, x < 5 → laneAt A x 0 ^^^ laneAt A x 1 ^^^ laneAt A x 2 ^^^ laneAt A x 3 ^^^ laneAt A x 4 = 0) →
      theta A = A)

/-- 40_permutation.md R124: where RhoPi moves each lane and by how much it rotates it, the equivalent form by
destination, the table of source lanes, that the position map is a bijection, and that lane (0, 0) stays. The spec marks
the map and the offsets as its own general knowledge (log 20). -/
def Obligations.RhoPiMovesEveryLane : Prop :=
  (∀ (A : Lanes) (x y : Nat), x < 5 → y < 5 →
      laneAt (rhoPi A) y (2 * x + 3 * y) = rotl64 (laneAt A x y) (rotationOffset x y)) ∧
    (∀ (A : Lanes) (x y : Nat), x < 5 → y < 5 →
      laneAt (rhoPi A) x y = rotl64 (laneAt A (x + 3 * y) x) (rotationOffset (x + 3 * y) x)) ∧
    (∀ (A : Lanes) (i j : Nat),
      [0, 6, 12, 18, 24, 3, 9, 10, 16, 22, 1, 7, 13, 19, 20, 4, 5, 11, 17, 23, 2, 8, 14, 15, 21][i]? = some j →
      lane (rhoPi A) i = rotl64 (lane A j) (rotationOffsets.getD j 0)) ∧
    (∀ x y x' y' : Nat, x < 5 → y < 5 → x' < 5 → y' < 5 →
      y = y' → (2 * x + 3 * y) % 5 = (2 * x' + 3 * y') % 5 → x = x' ∧ y = y') ∧
    (∀ x y : Nat, x < 5 → y < 5 → ∃ x' y', x' < 5 ∧ y' < 5 ∧ y' = x ∧ (2 * x' + 3 * y') % 5 = y) ∧
    ∀ A : Lanes, laneAt (rhoPi A) 0 0 = laneAt A 0 0

/-- 40_permutation.md R125: Chi's formula on the step's input lanes, and that the all-zero and the all-ones states are
fixed. That it reads the input lanes is the spec's own general knowledge (log 20). -/
def Obligations.ChiReadsTheInputRow : Prop :=
  (∀ (B : Lanes) (x y : Nat), x < 5 → y < 5 →
      laneAt (chi B) x y = laneAt B x y ^^^ (~~~ laneAt B ((x + 1) % 5) y &&& laneAt B ((x + 2) % 5) y)) ∧
    (∀ B : Lanes, (∀ i, i < 25 → lane B i = 0) → chi B = B) ∧
    (∀ B : Lanes, (∀ i, i < 25 → lane B i = 0xFFFFFFFFFFFFFFFF#64) → chi B = B)

/-- 40_permutation.md R125 (c): Chi is the only nonlinear step: Theta and RhoPi are linear over XOR, Iota differs from
the identity by a constant, and Chi is not linear. -/
def Obligations.ChiIsTheOnlyNonlinearStep : Prop :=
  (∀ A B : Lanes, theta (xorLanes A B) = xorLanes (theta A) (theta B)) ∧
    (∀ A B : Lanes, rhoPi (xorLanes A B) = xorLanes (rhoPi A) (rhoPi B)) ∧
    (∀ (A B : Lanes) (ir : Nat), xorLanes (iota A ir) (iota B ir) = xorLanes A B) ∧
    ∃ A B : Lanes, chi (xorLanes A B) ≠ xorLanes (chi A) (chi B)

/-- 40_permutation.md R126: Iota XORs the round constant into lane (0, 0) only. -/
def Obligations.IotaTouchesLaneZero : Prop :=
  ∀ (A : Lanes) (ir : Nat),
    laneAt (iota A ir) 0 0 = laneAt A 0 0 ^^^ roundConstant ir ∧
      ∀ x y, x < 5 → y < 5 → (x, y) ≠ (0, 0) → laneAt (iota A ir) x y = laneAt A x y

/-- 40_permutation.md R123, R127, R128: the tables of rotation offsets and round constants are what their generating
rules give, and only bits 0, 1, 3, 7, 15, 31 and 63 of a round constant are set. The spec marks tables and rules as its own
general knowledge (log 20). -/
def Obligations.TablesFollowTheirGenerators : Prop :=
  (∀ i, i < 25 → rotationOffsets.getD i 0 = generatedOffset i) ∧
    (∀ ir, ir < 24 → roundConstant ir = generatedConstant ir) ∧
    ∀ ir, ir < 24 → roundConstant ir &&& ~~~ 0x800000008000808B#64 = 0

/-- 40_permutation.md R129 (a): Permute is a bijection on 1600-bit states. The spec marks the law as its own general
knowledge (log 20). -/
def Obligations.PermuteIsABijection : Prop := Function.Bijective permuteLanes

/-- 40_permutation.md R129 (d), 95_test_vectors.md V-P1: lane A[0, 0] of Permute of the all-zero state, which so is not
zero. -/
def Obligations.PermuteOfTheZeroState : Prop :=
  laneAt (permuteLanes (Vector.replicate 25 0)) 0 0 = 0xF1258F7940E1DDE7#64 ∧
    permuteLanes (Vector.replicate 25 0) ≠ Vector.replicate 25 0

/-! ### NOP, RESET, INIT -/

/-- 43_control.md R220: NOP changes nothing, in every state; and a word with OP = 0 and any other bit set is illegal. -/
def Obligations.NopChangesNothing : Prop :=
  (∀ s : State, exec .nop s = .next s) ∧ (∀ s : State, acceptWord 0x0000000000000000#64 s = .next s) ∧
    ∀ w : Word, w.toNat % 16 = 0 → w ≠ 0 → ∀ i, decode w ≠ .ok i

/-- 43_control.md R221: RESET, accepted in every phase and under the error lockout, sets every register and lane to its
reset value, and touches no memory; STATUS then reads 0. Any other word with OP = 0xF is ILLEGAL_COMMAND, or ignored when
ERR = 1. -/
def Obligations.ResetCommandResetsTheEngine : Prop :=
  (∀ s : State, ∃ t : State,
      exec .reset s = .next t ∧ acceptWord 0x000000000000000F#64 s = .next t ∧
        t = { s with
          sponge := { lanes := Vector.replicate 25 0, rate := 0, delim := 0, pos := 0, phase := .uninit, permcnt := 0 }
          faults := { err := false, cause := .none, errcmd := 0, erraddr := 0 }
          operands := { src := 0, dst := 0, len := 0 } } ∧
        readRegister t 0x08 = 0) ∧
    ∀ (w : Word) (s : State), w.toNat % 16 = 15 → w ≠ 0x000000000000000F#64 →
      (s.faults.err = false → acceptWord w s =
          .next { s with faults := { err := true, cause := .illegalCommand, errcmd := w, erraddr := 0 } }) ∧
        (s.faults.err = true → acceptWord w s = .next s)

/-- 41_sponge.md R160, 60_exceptions.md R243: INIT with a legal rate starts a context in every phase, and with an illegal
one raises BAD_RATE and keeps the old context. -/
def Obligations.InitStartsAContext : Prop :=
  ∀ (rate delim : Byte) (s : State), s.faults.err = false →
    (1 ≤ rate.toNat → rate.toNat ≤ 200 →
        exec (.init rate delim) s = .next { s with sponge :=
          { lanes := Vector.replicate 25 0, rate := rate, delim := delim, pos := 0, phase := .absorbing,
            permcnt := 0 } }) ∧
      (rate.toNat = 0 ∨ 200 < rate.toNat →
        exec (.init rate delim) s = .next { s with faults :=
          { err := true, cause := .badRate, errcmd := encode (.init rate delim), erraddr := 0 } })

/-! ### ABSORB -/

/-- 41_sponge.md R161: ABSORB in phase ABSORBING with a buffer the range checks pass completes: R.LEN bytes at R.SRC go
through the loop, and nothing but the context changes. Its empty form reads no memory and changes nothing. -/
def Obligations.AbsorbCompletes : Prop :=
  (∀ s : State, s.faults.err = false → s.sponge.phase = .absorbing →
      admittedBuffer s.platform .read s.operands.src.toNat s.operands.len.toNat →
      exec .absorb s = .next { s with
        sponge := absorbBytes s.sponge (dmaReadBytes s s.operands.src.toNat s.operands.len.toNat) }) ∧
    (∀ s : State, s.faults.err = false → s.sponge.phase = .absorbing → s.operands.len = 0 →
      exec .absorb s = .next s)

/-- 41_sponge.md R161, 10_state.md R22: input that does not fill the rate window is XORed into it byte by byte from
R.POS on; every other byte of the state, the capacity among them, stays, and so does R.PERMCNT. -/
def Obligations.AbsorbWithinTheWindow : Prop :=
  ∀ s : State, s.faults.err = false → s.sponge.phase = .absorbing → s.sponge.inUse →
    admittedBuffer s.platform .read s.operands.src.toNat s.operands.len.toNat →
    s.sponge.pos.toNat + s.operands.len.toNat < s.sponge.rate.toNat →
    ∃ A : Lanes,
      exec .absorb s = .next { s with sponge := { s.sponge with
        lanes := A, pos := s.sponge.pos + s.operands.len.setWidth 8 } } ∧
      ∀ k, k < 200 → stateByte A k =
        if s.sponge.pos.toNat ≤ k ∧ k < s.sponge.pos.toNat + s.operands.len.toNat then
          stateByte s.sponge.lanes k ^^^ dmaRead s (s.operands.src.toNat + (k - s.sponge.pos.toNat))
        else stateByte s.sponge.lanes k

/-- 41_sponge.md R161 (b), R167: input that fills the rate window exactly is XORed in and permuted at once, on its last
byte: R.POS is 0 and R.PERMCNT one higher. -/
def Obligations.AbsorbPermutesAtTheBoundary : Prop :=
  ∀ s : State, s.faults.err = false → s.sponge.phase = .absorbing → s.sponge.inUse →
    admittedBuffer s.platform .read s.operands.src.toNat s.operands.len.toNat →
    s.sponge.pos.toNat + s.operands.len.toNat = s.sponge.rate.toNat →
    ∃ A : Lanes,
      exec .absorb s = .next { s with sponge := { s.sponge with
        lanes := permuteLanes A, pos := 0, permcnt := s.sponge.permcnt + 1 } } ∧
      ∀ k, k < 200 → stateByte A k =
        if s.sponge.pos.toNat ≤ k ∧ k < s.sponge.rate.toNat then
          stateByte s.sponge.lanes k ^^^ dmaRead s (s.operands.src.toNat + (k - s.sponge.pos.toNat))
        else stateByte s.sponge.lanes k

/-- 41_sponge.md R162: two ABSORBs leave the context that one ABSORB of the two inputs joined leaves. The spec marks
this reach of the rule, the whole context, as derived from R161. -/
def Obligations.AbsorbChunksJoin : Prop :=
  ∀ (s t₁ t₂ t : State) (src₁ dst₁ len₁ src₂ dst₂ len₂ src dst len : Word),
    exec .absorb (s.withOperands src₁ dst₁ len₁) = .next t₁ → t₁.faults.err = false →
    exec .absorb (t₁.withOperands src₂ dst₂ len₂) = .next t₂ → t₂.faults.err = false →
    exec .absorb (s.withOperands src dst len) = .next t → t.faults.err = false →
    dmaReadBytes s src.toNat len.toNat =
      dmaReadBytes s src₁.toNat len₁.toNat ++ dmaReadBytes s src₂.toNat len₂.toNat →
    t₂.sponge = t.sponge

/-! ### FINALIZE -/

/-- 41_sponge.md R163: FINALIZE in phase ABSORBING XORs DELIM into S[POS] and 0x80 into S[RATE − 1] (one byte takes both
where they meet), permutes once, and leaves POS = 0 and phase FINALIZED; in the other phases it faults. -/
def Obligations.FinalizePadsAndPermutes : Prop :=
  (∀ s : State, s.faults.err = false → s.sponge.phase = .absorbing → s.sponge.inUse →
      ∃ A : Lanes,
        exec .finalize s = .next { s with sponge := { s.sponge with
          lanes := permuteLanes A, pos := 0, phase := .finalized, permcnt := s.sponge.permcnt + 1 } } ∧
        ∀ k, k < 200 → stateByte A k =
          stateByte s.sponge.lanes k ^^^ (if k = s.sponge.pos.toNat then s.sponge.delim else 0) ^^^
            (if k = s.sponge.rate.toNat - 1 then 0x80 else 0)) ∧
    (∀ s : State, s.faults.err = false → s.sponge.phase = .uninit →
      exec .finalize s = .next { s with faults :=
        { err := true, cause := .notInitialised, errcmd := 0x3, erraddr := 0 } }) ∧
    (∀ s : State, s.faults.err = false → s.sponge.phase = .finalized ∨ s.sponge.phase = .squeezing →
      exec .finalize s = .next { s with faults :=
        { err := true, cause := .finalizeTwice, errcmd := 0x3, erraddr := 0 } })

/-! ### SQUEEZE -/

/-- 41_sponge.md R165: SQUEEZE in phase FINALIZED or SQUEEZING with a buffer the range checks pass completes: R.LEN bytes
of the loop's output go to R.DST, and the phase becomes SQUEEZING. Its empty form writes nothing and sets the phase. -/
def Obligations.SqueezeCompletes : Prop :=
  (∀ s : State, s.faults.err = false → s.sponge.phase = .finalized ∨ s.sponge.phase = .squeezing →
      admittedBuffer s.platform .write s.operands.dst.toNat s.operands.len.toNat →
      exec .squeeze s = .next { s with
        sponge := { squeezeContext s.operands.len.toNat s.sponge with phase := .squeezing }
        mem := s.mem.writeBytes s.operands.dst.toNat (squeezeOutput s.operands.len.toNat s.sponge) }) ∧
    (∀ s : State, s.faults.err = false → s.sponge.phase = .finalized ∨ s.sponge.phase = .squeezing →
      s.operands.len = 0 → exec .squeeze s = .next { s with sponge := { s.sponge with phase := .squeezing } })

/-- 41_sponge.md R165, 10_state.md R22, R23: output that does not exhaust the rate window is the window's bytes from
R.POS on, and no capacity byte: byte i of R.DST is S[POS + i], and the lanes stay as they are. -/
def Obligations.SqueezeWithinTheWindow : Prop :=
  ∀ s : State, s.faults.err = false → s.sponge.phase = .finalized ∨ s.sponge.phase = .squeezing →
    s.sponge.inUse → Memory.wf s.mem = true →
    admittedBuffer s.platform .write s.operands.dst.toNat s.operands.len.toNat →
    s.sponge.pos.toNat + s.operands.len.toNat < s.sponge.rate.toNat →
    ∃ m : Memory,
      exec .squeeze s = .next { s with
        sponge := { s.sponge with pos := s.sponge.pos + s.operands.len.setWidth 8, phase := .squeezing }
        mem := m } ∧
      (∀ i, i < s.operands.len.toNat →
        m.read (s.operands.dst.toNat + i) = stateByte s.sponge.lanes (s.sponge.pos.toNat + i)) ∧
      ∀ a, a < s.operands.dst.toNat ∨ s.operands.dst.toNat + s.operands.len.toNat ≤ a → m.read a = s.mem.read a

/-- 41_sponge.md R165 (b), R167: output that exhausts the rate window exactly is the rest of the window's bytes, and the
lanes are permuted at once, on its last byte: R.POS is 0 and R.PERMCNT one higher. -/
def Obligations.SqueezePermutesAtTheBoundary : Prop :=
  ∀ s : State, s.faults.err = false → s.sponge.phase = .finalized ∨ s.sponge.phase = .squeezing →
    s.sponge.inUse → Memory.wf s.mem = true →
    admittedBuffer s.platform .write s.operands.dst.toNat s.operands.len.toNat →
    s.sponge.pos.toNat + s.operands.len.toNat = s.sponge.rate.toNat →
    ∃ m : Memory,
      exec .squeeze s = .next { s with
        sponge := { s.sponge with
          lanes := permuteLanes s.sponge.lanes, pos := 0, phase := .squeezing, permcnt := s.sponge.permcnt + 1 }
        mem := m } ∧
      (∀ i, i < s.operands.len.toNat →
        m.read (s.operands.dst.toNat + i) = stateByte s.sponge.lanes (s.sponge.pos.toNat + i)) ∧
      ∀ a, a < s.operands.dst.toNat ∨ s.operands.dst.toNat + s.operands.len.toNat ≤ a → m.read a = s.mem.read a

/-- 41_sponge.md R166: squeezing k bytes and then n − k more, to consecutive addresses, leaves the memory and the context
that squeezing n bytes leaves, and both complete. The spec marks the reach beyond the output bytes as derived from R165. -/
def Obligations.SqueezeStreams : Prop :=
  ∀ (s : State) (src d : Word) (k n : Nat), k ≤ n → n < 2 ^ 64 →
    s.faults.err = false → s.sponge.phase = .finalized ∨ s.sponge.phase = .squeezing →
    admittedBuffer s.platform .write d.toNat n →
    ∃ t₁ t₂ t : State,
      exec .squeeze (s.withOperands src d (BitVec.ofNat 64 k)) = .next t₁ ∧
        exec .squeeze (t₁.withOperands src (d + BitVec.ofNat 64 k) (BitVec.ofNat 64 (n - k))) = .next t₂ ∧
        exec .squeeze (s.withOperands src d (BitVec.ofNat 64 n)) = .next t ∧
        t₁.faults.err = false ∧ t₂.faults.err = false ∧ t.faults.err = false ∧
        t₂.mem = t.mem ∧ t₂.sponge = t.sponge

/-! ### Counts, positions and the whole hash -/

/-- 41_sponge.md R168: an ABSORB or SQUEEZE of n bytes from position p with rate r permutes ⌊(p + n) / r⌋ times and ends at
position (p + n) mod r; FINALIZE permutes once and ends at 0; a complete hash of m bytes that squeezes L bytes permutes
⌊m / r⌋ + 1 + ⌊L / r⌋ times. R.PERMCNT counts modulo 2^64 (10_state.md R35). The spec marks R168 as derived from
R161, R163 and R165. -/
def Obligations.PermutationsAreCounted : Prop :=
  (∀ s t : State, s.sponge.inUse → s.faults.err = false → exec .absorb s = .next t → t.faults.err = false →
      t.sponge.pos.toNat = (s.sponge.pos.toNat + s.operands.len.toNat) % s.sponge.rate.toNat ∧
        t.sponge.permcnt = s.sponge.permcnt +
          BitVec.ofNat 64 ((s.sponge.pos.toNat + s.operands.len.toNat) / s.sponge.rate.toNat)) ∧
    (∀ s t : State, s.sponge.inUse → s.faults.err = false → exec .squeeze s = .next t → t.faults.err = false →
      t.sponge.pos.toNat = (s.sponge.pos.toNat + s.operands.len.toNat) % s.sponge.rate.toNat ∧
        t.sponge.permcnt = s.sponge.permcnt +
          BitVec.ofNat 64 ((s.sponge.pos.toNat + s.operands.len.toNat) / s.sponge.rate.toNat)) ∧
    (∀ s t : State, s.faults.err = false → exec .finalize s = .next t → t.faults.err = false →
      t.sponge.pos.toNat = 0 ∧ t.sponge.permcnt = s.sponge.permcnt + 1) ∧
    (∀ (rate delim : Byte) (s t₁ t₂ t₃ t₄ : State) (src₁ dst₁ m src₂ dst₂ len : Word),
      s.faults.err = false → exec (.init rate delim) s = .next t₁ →
      exec .absorb (t₁.withOperands src₁ dst₁ m) = .next t₂ → exec .finalize t₂ = .next t₃ →
      exec .squeeze (t₃.withOperands src₂ dst₂ len) = .next t₄ → t₄.faults.err = false →
      t₄.sponge.permcnt = BitVec.ofNat 64 (m.toNat / rate.toNat + 1 + len.toNat / rate.toNat))

/-- 41_sponge.md R167: on a new context an input of exactly RATE bytes permutes once in ABSORB and so stands at two
after FINALIZE; one byte less, none and then one; one byte more, once and then two (for a rate of 2 or more: at rate 1
every byte permutes, R161 (d), log 24). -/
def Obligations.BoundaryInputsPermuteEagerly : Prop :=
  ∀ (rate delim : Byte) (input : List Byte), 1 ≤ rate.toNat → rate.toNat ≤ 200 →
    (input.length = rate.toNat →
        (absorbBytes (startedSponge rate delim) input).permcnt = 1 ∧
          (finalizeContext (absorbBytes (startedSponge rate delim) input)).permcnt = 2) ∧
      (input.length + 1 = rate.toNat →
        (absorbBytes (startedSponge rate delim) input).permcnt = 0 ∧
          (finalizeContext (absorbBytes (startedSponge rate delim) input)).permcnt = 1) ∧
      (2 ≤ rate.toNat → input.length = rate.toNat + 1 →
        (absorbBytes (startedSponge rate delim) input).permcnt = 1 ∧
          (finalizeContext (absorbBytes (startedSponge rate delim) input)).permcnt = 2)

/-- 42_parameter_sets.md R203, R204: a one-shot pseudo-instruction of a named variant, served from any state without a
fault whose bus and memory side are quiet, completes: STATUS reads 3, the output bytes are the sponge's over the message
bytes, and neither they nor the context left depend on the context the engine held before. The spec marks R204 as derived
from R160 and R161, and the SHAKE rates as its own general knowledge (R201, D42, G9; log 30); the register accesses are
those of the model's assembler, which leaves out no operand write (its choice, log 22). -/
def Obligations.OneShotHashesFromAnyContext : Prop :=
  ∀ (v : Variant) (src n dst asked : Word) (s : State),
    s.faults = FaultRegs.reset → s.pending = oneShot v src n dst asked → s.overlap = [] →
    s.visibility = Visibility.settled →
    admittedBuffer s.platform .read src.toNat n.toNat →
    admittedBuffer s.platform .write dst.toNat (squeezeLength v asked).toNat →
    ∃ (t : State) (c : Sponge),
      Sys2Proof.core.run 9 s = .next t ∧
        c = finalizeContext (absorbBytes (startedSponge (variantRate v) (variantDelim v))
          ((List.range n.toNat).map fun i => s.mem.read (src.toNat + i))) ∧
        t.sponge = { squeezeContext (squeezeLength v asked).toNat c with phase := .squeezing } ∧
        t.mem = s.mem.writeBytes dst.toNat (squeezeOutput (squeezeLength v asked).toNat c) ∧
        t.faults = FaultRegs.reset ∧
        t.answers = s.answers ++ [.completed, .completed, .completed, .completed, .register 0x3] ∧
        t.pending = []

/-! ### PERMUTE -/

/-- 40_permutation.md R133, 20_memory.md R63, R69: PERMUTE with both buffers admitted completes, in every phase: the 200
DST bytes become the bytes of Permute of the 200 SRC bytes as they were before the command, whatever the overlap of the two
buffers, and nothing else changes. -/
def Obligations.PermuteCompletes : Prop :=
  ∀ s : State, s.faults.err = false → Memory.wf s.mem = true →
    admittedBuffer s.platform .read s.operands.src.toNat 200 →
    admittedBuffer s.platform .write s.operands.dst.toNat 200 →
    ∃ (T : Lanes) (m : Memory),
      exec .permute s = .next { s with mem := m } ∧
        (∀ k, k < 200 → stateByte T k = dmaRead s (s.operands.src.toNat + k)) ∧
        (∀ k, k < 200 → m.read (s.operands.dst.toNat + k) = stateByte (permuteLanes T) k) ∧
        ∀ a, a < s.operands.dst.toNat ∨ s.operands.dst.toNat + 200 ≤ a → m.read a = s.mem.read a

/-! ### Faults (60_exceptions.md) -/

/-- 60_exceptions.md R240: a command that faults sets the four fault registers, ERRCMD to its own word, ERRADDR to 0
unless the cause is MEM_FAULT or RANGE_WRAP, and changes nothing else; and no fault is raised while ERR = 1, so the
registers hold the first fault since reset. -/
def Obligations.FaultsArePrecise : Prop :=
  (∀ (w : Word) (s t : State), s.faults.err = false → acceptWord w s = .next t → t.faults.err = true →
      t = { s with faults := t.faults } ∧ t.faults.errcmd = w ∧ t.faults.cause ≠ .none ∧
        (t.faults.cause ≠ .memFault → t.faults.cause ≠ .rangeWrap → t.faults.erraddr = 0)) ∧
    ∀ (w : Word) (s t : State), s.faults.err = true → acceptWord w s = .next t → t.faults.err = true → t = s

/-- 60_exceptions.md R244 to R247: the phase faults of ABSORB, FINALIZE and SQUEEZE, whatever their buffers, with the
rules' examples of STATUS. -/
def Obligations.PhaseFaults : Prop :=
  ∀ s : State, s.faults.err = false →
    (s.sponge.phase = .uninit →
        exec .absorb s = .next { s with faults :=
          { err := true, cause := .notInitialised, errcmd := 0x2, erraddr := 0 } } ∧
        exec .finalize s = .next { s with faults :=
          { err := true, cause := .notInitialised, errcmd := 0x3, erraddr := 0 } } ∧
        exec .squeeze s = .next { s with faults :=
          { err := true, cause := .notInitialised, errcmd := 0x4, erraddr := 0 } }) ∧
      (s.sponge.phase = .finalized ∨ s.sponge.phase = .squeezing →
        exec .absorb s = .next { s with faults :=
          { err := true, cause := .absorbAfterFinalize, errcmd := 0x2, erraddr := 0 } } ∧
        exec .finalize s = .next { s with faults :=
          { err := true, cause := .finalizeTwice, errcmd := 0x3, erraddr := 0 } }) ∧
      (s.sponge.phase = .absorbing →
        exec .squeeze s = .next { s with faults :=
          { err := true, cause := .squeezeBeforeFinalize, errcmd := 0x4, erraddr := 0 } }) ∧
      (∀ t, s.sponge.phase = .finalized → exec .absorb s = .next t → readRegister t 0x08 = 0x0406) ∧
      (∀ t, s.sponge.phase = .finalized → exec .finalize s = .next t → readRegister t 0x08 = 0x0506) ∧
      (∀ t, s.sponge.phase = .absorbing → exec .squeeze s = .next t → readRegister t 0x08 = 0x0605)

/-- 60_exceptions.md R249: a non-empty buffer that runs past the top of the DMA space raises RANGE_WRAP with its base
address, before any admission check; PERMUTE checks SRC before DST. -/
def Obligations.RangeWrapFaults : Prop :=
  ∀ s : State, s.faults.err = false →
    (s.sponge.phase = .absorbing → 0 < s.operands.len.toNat →
        2 ^ 64 < s.operands.src.toNat + s.operands.len.toNat →
        exec .absorb s = .next { s with faults :=
          { err := true, cause := .rangeWrap, errcmd := 0x2, erraddr := s.operands.src } }) ∧
      (s.sponge.phase = .finalized ∨ s.sponge.phase = .squeezing → 0 < s.operands.len.toNat →
        2 ^ 64 < s.operands.dst.toNat + s.operands.len.toNat →
        exec .squeeze s = .next { s with faults :=
          { err := true, cause := .rangeWrap, errcmd := 0x4, erraddr := s.operands.dst } }) ∧
      (2 ^ 64 < s.operands.src.toNat + 200 →
        exec .permute s = .next { s with faults :=
          { err := true, cause := .rangeWrap, errcmd := 0x5, erraddr := s.operands.src } }) ∧
      (s.operands.src.toNat + 200 ≤ 2 ^ 64 → 2 ^ 64 < s.operands.dst.toNat + 200 →
        exec .permute s = .next { s with faults :=
          { err := true, cause := .rangeWrap, errcmd := 0x5, erraddr := s.operands.dst } })

/-- 60_exceptions.md R248: a non-empty buffer that does not wrap but has a byte that is not admitted raises MEM_FAULT
with the lowest such address, and no byte of any buffer is read or written; PERMUTE checks every SRC byte before any DST
byte. The rule's example is the last clause. -/
def Obligations.MemFaultsAtTheLowestAddress : Prop :=
  (∀ (s : State) (a : Word), s.faults.err = false → s.sponge.phase = .absorbing →
      s.operands.src.toNat + s.operands.len.toNat ≤ 2 ^ 64 →
      s.operands.src.toNat ≤ a.toNat → a.toNat < s.operands.src.toNat + s.operands.len.toNat →
      admits s.platform .read a.toNat = false →
      (∀ b, s.operands.src.toNat ≤ b → b < a.toNat → admits s.platform .read b = true) →
      exec .absorb s = .next { s with faults :=
        { err := true, cause := .memFault, errcmd := 0x2, erraddr := a } }) ∧
    (∀ (s : State) (a : Word), s.faults.err = false → s.sponge.phase = .finalized ∨ s.sponge.phase = .squeezing →
      s.operands.dst.toNat + s.operands.len.toNat ≤ 2 ^ 64 →
      s.operands.dst.toNat ≤ a.toNat → a.toNat < s.operands.dst.toNat + s.operands.len.toNat →
      admits s.platform .write a.toNat = false →
      (∀ b, s.operands.dst.toNat ≤ b → b < a.toNat → admits s.platform .write b = true) →
      exec .squeeze s = .next { s with faults :=
        { err := true, cause := .memFault, errcmd := 0x4, erraddr := a } }) ∧
    (∀ (s : State) (a : Word), s.faults.err = false → s.operands.src.toNat + 200 ≤ 2 ^ 64 →
      s.operands.dst.toNat + 200 ≤ 2 ^ 64 →
      s.operands.src.toNat ≤ a.toNat → a.toNat < s.operands.src.toNat + 200 →
      admits s.platform .read a.toNat = false →
      (∀ b, s.operands.src.toNat ≤ b → b < a.toNat → admits s.platform .read b = true) →
      exec .permute s = .next { s with faults :=
        { err := true, cause := .memFault, errcmd := 0x5, erraddr := a } }) ∧
    (∀ (s : State) (a : Word), s.faults.err = false → s.operands.src.toNat + 200 ≤ 2 ^ 64 →
      s.operands.dst.toNat + 200 ≤ 2 ^ 64 →
      (∀ b, s.operands.src.toNat ≤ b → b < s.operands.src.toNat + 200 → admits s.platform .read b = true) →
      s.operands.dst.toNat ≤ a.toNat → a.toNat < s.operands.dst.toNat + 200 →
      admits s.platform .write a.toNat = false →
      (∀ b, s.operands.dst.toNat ≤ b → b < a.toNat → admits s.platform .write b = true) →
      exec .permute s = .next { s with faults :=
        { err := true, cause := .memFault, errcmd := 0x5, erraddr := a } }) ∧
    (∀ s t : State, s.faults.err = false → s.sponge.phase = .absorbing →
      (∀ a, admits s.platform .read a = true ↔ 0x1000 ≤ a ∧ a < 0x11000) →
      s.operands.src = 0x10FF0 → s.operands.len = 0x20 → exec .absorb s = .next t →
      readRegister t 0x08 = 0x0705 ∧ t.faults.erraddr = 0x11000 ∧ t.sponge.pos = s.sponge.pos)

/-- 60_exceptions.md R250: while ERR = 1 every command word but 0xF has no effect on any state, and the one exception is
RESET; register reads answer, and SRC, DST and LEN take writes, as usual. -/
def Obligations.LockoutIgnoresEveryWordButReset : Prop :=
  ∀ s : State, s.faults.err = true →
    (∀ w : Word, w ≠ 0x000000000000000F#64 → acceptWord w s = .next s) ∧
      (∀ i : Instr, i ≠ .reset → exec i s = .next s) ∧
      (∀ t, acceptWord 0x000000000000000F#64 s = .next t → t.faults.err = false) ∧
      (∀ (offset : Nat) (rest : List BusEvent), s.pending = .read offset 8 :: rest → offset % 8 = 0 → offset < 256 →
        ∃ t, step s = .next t ∧ t.answers = s.answers ++ [.register (readRegister s offset)] ∧ t.faults = s.faults) ∧
      (∀ (v : Word) (rest : List BusEvent), s.pending = .write 0x28 8 v :: rest →
        step s = .next { takeUp rest s with operands := { s.operands with src := v } }) ∧
      (∀ (v : Word) (rest : List BusEvent), s.pending = .write 0x30 8 v :: rest →
        step s = .next { takeUp rest s with operands := { s.operands with dst := v } }) ∧
      ∀ (v : Word) (rest : List BusEvent), s.pending = .write 0x38 8 v :: rest →
        step s = .next { takeUp rest s with operands := { s.operands with len := v } }

/-- 60_exceptions.md R251, 10_state.md R29, R30: over every step from a recorded fault: a CMD write of RESET's word and a
hardware reset, in mid-command or not, clear the fault and destroy the context, and with every other interaction the fault
stays exactly as it is. -/
def Obligations.OnlyResetClearsAFault : Prop :=
  ∀ s t : State, s.faults.err = true → step s = .next t →
    match s.pending.head? with
    | some (.write offset width v) =>
      if offset = 0x00 ∧ width = 8 ∧ v = 0x000000000000000F#64 then
        t.faults = FaultRegs.reset ∧ t.sponge = Sponge.reset
      else t.faults = s.faults
    | some .hardwareReset => t.faults = FaultRegs.reset ∧ t.sponge = Sponge.reset
    | some (.commandCutByReset _) => t.faults = FaultRegs.reset ∧ t.sponge = Sponge.reset
    | _ => t.faults = s.faults

/-- 60_exceptions.md R253, 43_control.md R224: every command answers a next state: it completes or records one of the
causes; no command stops the machine. -/
def Obligations.EveryCommandAnswers : Prop := ∀ (i : Instr) (s : State), ∃ t, exec i s = .next t

/-! ### What commands may change -/

/-- 10_state.md R28: the phase transitions of the commands, and that there are no others: a command that faults, a
command under the error lockout but RESET, and a word that decodes to no command leave the phase. -/
def Obligations.PhaseTransitions : Prop :=
  (∀ (i : Instr) (s t : State), s.faults.err = false → exec i s = .next t →
      (t.faults.err = true → t.sponge.phase = s.sponge.phase) ∧
        (t.faults.err = false →
          match i with
          | .nop => t.sponge.phase = s.sponge.phase
          | .init _ _ => t.sponge.phase = .absorbing
          | .absorb => s.sponge.phase = .absorbing ∧ t.sponge.phase = .absorbing
          | .finalize => s.sponge.phase = .absorbing ∧ t.sponge.phase = .finalized
          | .squeeze =>
            (s.sponge.phase = .finalized ∨ s.sponge.phase = .squeezing) ∧ t.sponge.phase = .squeezing
          | .permute => t.sponge.phase = s.sponge.phase
          | .reset => t.sponge.phase = .uninit)) ∧
    (∀ (i : Instr) (s t : State), s.faults.err = true → exec i s = .next t →
      (i = .reset ∧ t.sponge.phase = .uninit) ∨ (i ≠ .reset ∧ t.sponge.phase = s.sponge.phase)) ∧
    ∀ (w : Word) (s t : State), (∀ i, decode w ≠ .ok i) → acceptWord w s = .next t →
      t.sponge.phase = s.sponge.phase

/-- 10_state.md R20, R24, R25, R26, R34, R35, 40_permutation.md R133: the frame of NOP, INIT, ABSORB, FINALIZE, SQUEEZE,
PERMUTE and RESET: the host side and the platform are never changed; SRC, DST and LEN only by RESET; RATE and DELIM only by
INIT and RESET; the whole context not by NOP and PERMUTE; memory only by SQUEEZE and PERMUTE. -/
def Obligations.CommandFrames : Prop :=
  ∀ (i : Instr) (s t : State), exec i s = .next t →
    t.platform = s.platform ∧ t.pending = s.pending ∧ t.overlap = s.overlap ∧ t.visibility = s.visibility ∧
      t.answers = s.answers ∧ t.serial = s.serial ∧
      (i ≠ .reset → t.operands = s.operands) ∧
      (i ≠ .reset → (∀ rate delim, i ≠ .init rate delim) →
        t.sponge.rate = s.sponge.rate ∧ t.sponge.delim = s.sponge.delim) ∧
      (i = .nop ∨ i = .permute → t.sponge = s.sponge) ∧
      (i ≠ .squeeze → i ≠ .permute → t.mem = s.mem)

/-- 41_sponge.md R165, 40_permutation.md R133: memory's frame: NOP, INIT, ABSORB, FINALIZE and RESET leave every byte of
memory as it was; SQUEEZE leaves every byte outside the R.LEN bytes from R.DST on, and PERMUTE every byte outside the 200
bytes from R.DST on. -/
def Obligations.MemoryFrames : Prop :=
  ∀ (i : Instr) (s t : State) (a : Nat), exec i s = .next t →
    match i with
    | .squeeze =>
      a < s.operands.dst.toNat ∨ s.operands.dst.toNat + s.operands.len.toNat ≤ a → t.mem.read a = s.mem.read a
    | .permute => a < s.operands.dst.toNat ∨ s.operands.dst.toNat + 200 ≤ a → t.mem.read a = s.mem.read a
    | _ => t.mem.read a = s.mem.read a

/-- 20_memory.md R61: the register block of an engine instance is never admitted. -/
def Obligations.RegisterBlocksNeverAdmitted : Prop :=
  ∀ (p : Platform) (k : AccessKind) (base : Word) (a : Nat), base = p.base ∨ base ∈ p.otherBases →
    base.toNat ≤ a → a < base.toNat + 256 → admits p k a = false

/-- 10_state.md R23, 70_reset_and_hazards.md R289: the lane file shows in nothing but the bytes SQUEEZE writes: two
states that differ in their lanes alone read alike at every offset, and after any command still differ in their lanes
alone, and, after SQUEEZE, in memory. -/
def Obligations.LaneFileStaysHidden : Prop :=
  ∀ (i : Instr) (s t : State) (A : Lanes),
    (∀ offset, readRegister (s.withLanes A) offset = readRegister s offset) ∧
      (exec i s = .next t →
        ∃ u : State, exec i (s.withLanes A) = .next u ∧
          t = { u.withLanes t.sponge.lanes with mem := t.mem } ∧ (i ≠ .squeeze → t.mem = u.mem))

/-! ### The machine: steps, reset, the host side -/

/-- The machine's invariant (10_state.md R24, R25, R26, R29, R30, R31, and the canonical form of memory) is kept by every
step from every state that has it. -/
def Obligations.StepKeepsTheInvariant : Prop := ∀ s t : State, s.Inv → step s = .next t → t.Inv

/-- The machine's invariant holds after reset. -/
def Obligations.ResetHasTheInvariant : Prop := State.reset.Inv

/-- 10_state.md R39: every register and lane after reset, and STATUS as read. -/
def Obligations.ResetValues : Prop :=
  (∀ x y, x < 5 → y < 5 → laneAt State.reset.sponge.lanes x y = 0) ∧
    State.reset.sponge.rate = 0 ∧ State.reset.sponge.delim = 0 ∧ State.reset.sponge.pos = 0 ∧
    State.reset.sponge.phase = .uninit ∧ State.reset.sponge.permcnt = 0 ∧
    State.reset.faults.err = false ∧ causeCode State.reset.faults.cause = 0x00 ∧
    State.reset.faults.errcmd = 0 ∧ State.reset.faults.erraddr = 0 ∧
    State.reset.operands.src = 0 ∧ State.reset.operands.dst = 0 ∧ State.reset.operands.len = 0 ∧
    readRegister State.reset 0x08 = 0 ∧
    ∀ s : State, (resetEngine s).mem = s.mem ∧ (resetEngine s).sponge = State.reset.sponge ∧
      (resetEngine s).faults = State.reset.faults ∧ (resetEngine s).operands = State.reset.operands

/-- 43_control.md R222, R224, 20_memory.md R74: a step whose first pending interaction is a CMD write of the word w accepts
w and completes it, whatever w is; a word that decodes is accepted as exec of its command, and any other raises
ILLEGAL_COMMAND, or is ignored while ERR = 1. On a platform that orders host accesses, with coherent DMA and no posted
writes, and with no race and no store on its way, all that completing adds is one answer. The record of answers and
State.withFetchWord, which places a CMD write first, are the model's choice (logs 12, 14). -/
def Obligations.StepRunsTheDecodedCommand : Prop :=
  (∀ (s t : State) (w : Word) (rest : List BusEvent),
      s.pending = .write 0x00 8 w :: rest → acceptWord w (takeUp rest s) = .next t →
      step s = .next (completeCommand (wordSpan w (takeUp rest s)) (takeUp rest s) t)) ∧
    (∀ (s t : State) (w : Word) (rest : List BusEvent),
      s.pending = .write 0x00 8 w :: rest → acceptWord w (takeUp rest s) = .next t →
      s.overlap = [] → s.visibility.unfenced = [] → s.visibility.uncleaned = [] → s.platform.hostOrdered = true →
      s.platform.dmaCoherent = true → s.platform.postedWrites = false →
      step s = .next { t with answers := t.answers ++ [.completed] }) ∧
    (∀ (s : State) (w : Word) (i : Instr), decode w = .ok i →
      acceptWord w s = exec i s ∧ wordSpan w s = writtenSpan i s) ∧
    (∀ (s : State) (w : Word), (∀ i, decode w ≠ .ok i) →
      wordSpan w s = none ∧
        acceptWord w s = .next (if s.faults.err then s else
          { s with faults := { err := true, cause := .illegalCommand, errcmd := w, erraddr := 0 } })) ∧
    ∀ (s : State) (nbits w : Nat),
      (s.withFetchWord nbits w).pending = .write 0x00 8 (BitVec.ofNat 64 (w % 2 ^ nbits)) :: s.pending

/-- 60_exceptions.md R261, 43_control.md R226: with nothing pending the engine is idle and keeps all state. -/
def Obligations.IdleEngineKeepsItsState : Prop := ∀ s : State, s.pending = [] → step s = .next s

/-- 43_control.md R224, R225: interactions are served one a step, in arrival order. The model's choices beside that: the
count of served interactions (log 13), that the platform's parameters are in the state and stay (log 2), and the event that
alone sets Admit (log 23). -/
def Obligations.StepsServeInArrivalOrder : Prop :=
  ∀ (s t : State) (e : BusEvent) (rest : List BusEvent), s.pending = e :: rest → step s = .next t →
    t.pending = rest ∧ t.serial = s.serial + 1 ∧
      t.platform.base = s.platform.base ∧ t.platform.otherBases = s.platform.otherBases ∧
      t.platform.hostOrdered = s.platform.hostOrdered ∧ t.platform.dmaCoherent = s.platform.dmaCoherent ∧
      t.platform.postedWrites = s.platform.postedWrites ∧
      ((∀ regions, e ≠ .configureAdmit regions) → t.platform = s.platform)

/-- 70_reset_and_hazards.md R280: hardware reset and RESET have the same effect; a hardware reset during a command
abandons it, resets the engine, and leaves each byte of memory that no other store touches as it was or as the command
would have left it. The event that stands for the abandoned command, that the host gets no completion of it (log 10), and
that the accesses held behind it stay pending (log 29) are the model's choice. -/
def Obligations.HardwareResetAbandonsACommand : Prop :=
  (∀ (s : State) (rest : List BusEvent), s.pending = .hardwareReset :: rest →
      step s = exec .reset (takeUp rest s)) ∧
    ∀ (s : State) (w : Word) (rest : List BusEvent), s.pending = .commandCutByReset w :: rest →
      Memory.wf s.mem = true →
      ∃ (t u : State) (given : List Answer), step s = .next t ∧ acceptWord w (takeUp rest s) = .next u ∧
        t.sponge = Sponge.reset ∧ t.faults = FaultRegs.reset ∧ t.operands = OperandRegs.reset ∧ t.pending = rest ∧
        t.answers = s.answers ++ given ∧ Answer.completed ∉ given ∧ (s.overlap = [] → given = []) ∧
        ∀ a, unsettled s a = false → t.mem.read a = s.mem.read a ∨ t.mem.read a = u.mem.read a

/-- 20_memory.md R70: a SRC byte another agent stores to during the command reads as a free value (log 5), every settled
byte as memory holds it. Whatever else races, a racing load of a byte that no other store touches, and that no earlier
command hides from the host, gives the byte before or after the command (log 6), and such a byte is left as the command
leaves it; a step serves every racing load, in order. -/
def Obligations.RacesGiveAdmittedValues : Prop :=
  (∀ (s : State) (addr : Word) (v : Byte), MemAccess.store addr v ∈ s.overlap →
      dmaRead s addr.toNat = Config.unsettledByte s.serial addr.toNat) ∧
    (∀ (s : State) (a : Nat), (∀ addr v, MemAccess.store addr v ∈ s.overlap → addr.toNat ≠ a) →
      a ∉ s.visibility.unfenced → a ∉ s.visibility.uncleaned → dmaRead s a = s.mem.read a) ∧
    (∀ (s t : State) (p : Span) (after : Memory) (index a : Nat), p.base ≤ a → a < p.base + p.len →
      unsettled s a = false → unseen t a = false →
      racedLoadByte s t (some p) after index a = s.mem.read a ∨
        racedLoadByte s t (some p) after index a = after.read a) ∧
    ∀ (s t : State) (w : Word) (rest : List BusEvent), s.pending = .write 0x00 8 w :: rest →
      acceptWord w (takeUp rest s) = .next t →
      ∃ (u : State) (bytes : List Byte), step s = .next u ∧ u.overlap = [] ∧
        u.answers = s.answers ++ bytes.map Answer.racedLoad ++ [.completed] ∧
        bytes.length = (loadedAddresses s.overlap).length ∧
        (∀ i a : Nat, (loadedAddresses s.overlap)[i]? = some a → unsettled s a = false → unseen s a = false →
          bytes[i]? = some (s.mem.read a) ∨ bytes[i]? = some (t.mem.read a)) ∧
        ∀ a, unsettled s a = false → u.mem.read a = t.mem.read a

/-- 20_memory.md R71 (a), R72, R75: where the platform orders host stores and DMA is coherent, a host store between
commands is what the DMA then reads; elsewhere it is once the host has fenced and made its stores visible. -/
def Obligations.HostStoresReachTheDma : Prop :=
  (∀ (s : State) (addr : Word) (v : Byte) (rest : List BusEvent), s.pending = .memory (.store addr v) :: rest →
      inRegisterBlock s.platform addr.toNat = false → Memory.wf s.mem = true → s.overlap = [] →
      addr.toNat ∉ s.visibility.unfenced → addr.toNat ∉ s.visibility.uncleaned →
      s.platform.hostOrdered = true → s.platform.dmaCoherent = true →
      ∃ t, step s = .next t ∧ dmaRead t addr.toNat = v) ∧
    (∀ (s : State) (addr : Word) (v : Byte) (rest : List BusEvent),
      s.pending = .memory (.store addr v) :: .fence :: .maintain :: rest →
      inRegisterBlock s.platform addr.toNat = false → Memory.wf s.mem = true → s.overlap = [] →
      ∃ t, Sys2Proof.core.run 3 s = .next t ∧ dmaRead t addr.toNat = v)

/-- 20_memory.md R70, R71 (a), R72, R75: a racing store outside the command's DST bytes reaches later commands as any host
store does: where the platform asks for a fence or DMA is not coherent, the next command's DMA reads a free value there
(the model's choice of form, logs 5, 8), and after the fence and the maintenance the stored byte. That the fence and the
maintenance of any agent settle the racing agent's store is the model's choice (log 27, unsafe). -/
def Obligations.RacingStoresNeedTheFence : Prop :=
  ∀ (s : State) (addr : Word) (v : Byte) (w : Word) (rest : List BusEvent),
    s.pending = .race (.store addr v) :: .write 0x00 8 w :: .fence :: .maintain :: rest →
    inRegisterBlock s.platform addr.toNat = false → s.overlap = [] → spanHolds (wordSpan w s) addr.toNat = false →
    (s.platform.hostOrdered = false ∨ s.platform.dmaCoherent = false →
        ∃ t, Sys2Proof.core.run 2 s = .next t ∧
          dmaRead t addr.toNat = Config.unsettledByte t.serial addr.toNat) ∧
      (Memory.wf s.mem = true → ∃ t, Sys2Proof.core.run 4 s = .next t ∧ dmaRead t addr.toNat = v)

/-- 20_memory.md R71 (b), R72, R75, 43_control.md R225, 70_reset_and_hazards.md R284: a host load gives what memory
holds: a byte the host has stored to since the command at once, and a byte the command wrote, on every platform, once
the host has read any register of the block, fenced and maintained its caches, a later command to other bytes among them
or not, and with fewer of the three where the platform does not ask for the others; before that, a byte a command wrote
reads as a free value (the model's choice of form, logs 9, 26). -/
def Obligations.HostLoadsSeeCompletedCommands : Prop :=
  (∀ (s : State) (offset : Nat) (addr : Word) (rest : List BusEvent),
      s.pending = .read offset 8 :: .fence :: .maintain :: .memory (.load addr) :: rest → offset % 8 = 0 →
      offset < 256 → inRegisterBlock s.platform addr.toNat = false →
      ∃ t, Sys2Proof.core.run 4 s = .next t ∧
        t.answers = s.answers ++ [.register (readRegister s offset), .loaded (s.mem.read addr.toNat)]) ∧
    (∀ (s : State) (offset : Nat) (w addr : Word) (rest : List BusEvent),
      s.pending = .read offset 8 :: .write 0x00 8 w :: .fence :: .maintain :: .memory (.load addr) :: rest →
      offset % 8 = 0 → offset < 256 → inRegisterBlock s.platform addr.toNat = false → s.overlap = [] →
      spanHolds (wordSpan w s) addr.toNat = false →
      ∃ t, Sys2Proof.core.run 5 s = .next t ∧
        t.answers =
          s.answers ++ [.register (readRegister s offset), .completed, .loaded (s.mem.read addr.toNat)]) ∧
    (∀ (s : State) (addr : Word) (rest : List BusEvent), s.pending = .memory (.load addr) :: rest →
      inRegisterBlock s.platform addr.toNat = false →
      (∀ x ∈ s.visibility.written, x.span.covers addr.toNat = true →
        x.posted = false ∧ x.unordered = false ∧ x.cached = false) →
      ∃ t, step s = .next t ∧ t.mem = s.mem ∧ t.answers = s.answers ++ [.loaded (s.mem.read addr.toNat)]) ∧
    (∀ (s : State) (offset : Nat) (addr : Word) (rest : List BusEvent),
      s.pending = .read offset 8 :: .memory (.load addr) :: rest → offset % 8 = 0 → offset < 256 →
      inRegisterBlock s.platform addr.toNat = false →
      (∀ x ∈ s.visibility.written, x.span.covers addr.toNat = true → x.unordered = false ∧ x.cached = false) →
      ∃ t, Sys2Proof.core.run 2 s = .next t ∧
        t.answers = s.answers ++ [.register (readRegister s offset), .loaded (s.mem.read addr.toNat)]) ∧
    (∀ (s : State) (addr : Word) (rest : List BusEvent), s.pending = .fence :: .memory (.load addr) :: rest →
      inRegisterBlock s.platform addr.toNat = false →
      (∀ x ∈ s.visibility.written, x.span.covers addr.toNat = true → x.posted = false ∧ x.cached = false) →
      ∃ t, Sys2Proof.core.run 2 s = .next t ∧ t.answers = s.answers ++ [.loaded (s.mem.read addr.toNat)]) ∧
    (∀ (s : State) (addr : Word) (rest : List BusEvent), s.pending = .maintain :: .memory (.load addr) :: rest →
      inRegisterBlock s.platform addr.toNat = false →
      (∀ x ∈ s.visibility.written, x.span.covers addr.toNat = true → x.posted = false ∧ x.unordered = false) →
      ∃ t, Sys2Proof.core.run 2 s = .next t ∧ t.answers = s.answers ++ [.loaded (s.mem.read addr.toNat)]) ∧
    (∀ (s : State) (x : WrittenSpan) (addr : Word) (rest : List BusEvent), s.pending = .memory (.load addr) :: rest →
      inRegisterBlock s.platform addr.toNat = false → x ∈ s.visibility.written →
      x.posted = true ∨ x.unordered = true ∨ x.cached = true → x.span.covers addr.toNat = true →
      ∃ t, step s = .next t ∧
        t.answers = s.answers ++ [.loaded (Config.unseenByte (s.serial + 1) addr.toNat)]) ∧
    (∀ (s : State) (addr : Word) (v : Byte) (rest : List BusEvent),
      s.pending = .memory (.store addr v) :: .memory (.load addr) :: rest →
      inRegisterBlock s.platform addr.toNat = false → Memory.wf s.mem = true →
      ∃ t, Sys2Proof.core.run 2 s = .next t ∧ t.answers = s.answers ++ [.loaded v]) ∧
    (∀ (s : State) (x : WrittenSpan) (other addr : Word) (v : Byte) (rest : List BusEvent),
      s.pending = .memory (.store other v) :: .memory (.load addr) :: rest →
      inRegisterBlock s.platform other.toNat = false → inRegisterBlock s.platform addr.toNat = false →
      other ≠ addr → x ∈ s.visibility.written → x.posted = true ∨ x.unordered = true ∨ x.cached = true →
      x.span.covers addr.toNat = true →
      ∃ t, Sys2Proof.core.run 2 s = .next t ∧
        t.answers = s.answers ++ [.loaded (Config.unseenByte (s.serial + 2) addr.toNat)])
end

