-- ==== Sys2Proof/Laws/Memory.lean ====
section
/-! SUPPORT. Host memory: a read after a write, what a write leaves alone, and that every operation keeps the canonical
form. -/

namespace Sys2Proof.Machine

/-! ### Reading -/

@[simp] theorem Memory.read_nil (a : Nat) : Memory.read [] a = Config.unwrittenByte := rfl

theorem Memory.read_cons (m : Memory) (a b : Nat) (v : Byte) (h : a ≠ b) :
    (Memory.cons a v m).read b = m.read b := by
  unfold Memory.cons
  split
  · rfl
  · simp [Memory.read, Ne.symm h]

/-- A write leaves every other address alone, in any memory. -/
theorem Memory.read_write_ne (m : Memory) (a b : Nat) (v : Byte) (h : b ≠ a) :
    (m.write a v).read b = m.read b := by
  induction m with
  | nil => exact Memory.read_cons [] a b v (Ne.symm h)
  | cons cell rest ih =>
    obtain ⟨c, w⟩ := cell
    unfold Memory.write
    split
    · exact Memory.read_cons _ a b v (Ne.symm h)
    · split
      · next hac => rw [Memory.read_cons _ a b v (Ne.symm h)]; simp [Memory.read, hac ▸ h]
      · simp only [Memory.read]; split
        · rfl
        · exact ih

/-! ### The canonical form -/

theorem Memory.wfFrom_mono {lo lo' : Nat} (m : Memory) (h : Memory.wfFrom lo m = true) (hle : lo' ≤ lo) :
    Memory.wfFrom lo' m = true := by
  cases m with
  | nil => rfl
  | cons cell rest =>
    obtain ⟨a, v⟩ := cell
    simp only [Memory.wfFrom, Bool.and_eq_true, decide_eq_true_eq] at h ⊢
    exact ⟨⟨⟨by omega, h.1.1.2⟩, h.1.2⟩, h.2⟩

/-- An address below a canonical memory's first entry is unlisted. -/
theorem Memory.read_below (m : Memory) (lo a : Nat) (h : Memory.wfFrom lo m = true) (ha : a < lo) :
    m.read a = Config.unwrittenByte := by
  induction m generalizing lo with
  | nil => rfl
  | cons cell rest ih =>
    obtain ⟨b, v⟩ := cell
    simp only [Memory.wfFrom, Bool.and_eq_true, decide_eq_true_eq] at h
    have hb : a ≠ b := by omega
    simp only [Memory.read, hb, if_false]
    exact ih (b + 1) h.2 (by omega)

theorem Memory.read_cons_same (m : Memory) (a : Nat) (v : Byte) (h : Memory.wfFrom (a + 1) m = true) :
    (Memory.cons a v m).read a = v := by
  unfold Memory.cons
  split
  · next hv => rw [hv]; exact Memory.read_below m (a + 1) a h (by omega)
  · simp [Memory.read]

/-- A read after a write gives the value written, in a canonical memory. -/
theorem Memory.read_write_same (m : Memory) (lo a : Nat) (v : Byte) (h : Memory.wfFrom lo m = true) :
    (m.write a v).read a = v := by
  induction m generalizing lo with
  | nil => exact Memory.read_cons_same [] a v rfl
  | cons cell rest ih =>
    obtain ⟨b, w⟩ := cell
    have h' := h
    simp only [Memory.wfFrom, Bool.and_eq_true, decide_eq_true_eq] at h'
    unfold Memory.write
    split
    · next hab =>
      refine Memory.read_cons_same _ a v ?_
      simp only [Memory.wfFrom, Bool.and_eq_true, decide_eq_true_eq]
      exact ⟨⟨⟨by omega, h'.1.1.2⟩, h'.1.2⟩, h'.2⟩
    · split
      · next hab => exact Memory.read_cons_same _ a v (hab ▸ h'.2)
      · next hab => simp only [Memory.read, hab, if_false]; exact ih (b + 1) h'.2

theorem Memory.wfFrom_cons (m : Memory) (lo a : Nat) (v : Byte) (h : Memory.wfFrom (a + 1) m = true) (hlo : lo ≤ a)
    (ha : a < Config.dmaSpace) : Memory.wfFrom lo (Memory.cons a v m) = true := by
  unfold Memory.cons
  split
  · exact Memory.wfFrom_mono m h (by omega)
  · next hv => simp [Memory.wfFrom, h, hlo, ha, hv]

theorem Memory.wfFrom_write (m : Memory) (lo a : Nat) (v : Byte) (h : Memory.wfFrom lo m = true) (hlo : lo ≤ a)
    (ha : a < Config.dmaSpace) : Memory.wfFrom lo (m.write a v) = true := by
  induction m generalizing lo with
  | nil => exact Memory.wfFrom_cons [] lo a v rfl hlo ha
  | cons cell rest ih =>
    obtain ⟨b, w⟩ := cell
    have h' := h
    simp only [Memory.wfFrom, Bool.and_eq_true, decide_eq_true_eq] at h'
    unfold Memory.write
    split
    · next hab =>
      refine Memory.wfFrom_cons _ lo a v ?_ hlo ha
      simp only [Memory.wfFrom, Bool.and_eq_true, decide_eq_true_eq]
      exact ⟨⟨⟨by omega, h'.1.1.2⟩, h'.1.2⟩, h'.2⟩
    · split
      · next hab => exact Memory.wfFrom_cons _ lo a v (hab ▸ h'.2) hlo ha
      · next hba hne =>
        simp only [Memory.wfFrom, Bool.and_eq_true, decide_eq_true_eq]
        exact ⟨⟨⟨h'.1.1.1, h'.1.1.2⟩, h'.1.2⟩, ih (b + 1) h'.2 (by omega)⟩

/-- Storing a byte keeps the canonical form. -/
theorem Memory.wf_write (m : Memory) (a : Nat) (v : Byte) (h : m.wf = true) (ha : a < Config.dmaSpace) :
    (m.write a v).wf = true :=
  Memory.wfFrom_write m 0 a v h (Nat.zero_le a) ha

/-- Storing bytes keeps the canonical form. -/
theorem Memory.wf_writeBytes (m : Memory) (a : Nat) (vs : List Byte) (h : m.wf = true)
    (ha : vs = [] ∨ a + vs.length ≤ Config.dmaSpace) : (m.writeBytes a vs).wf = true := by
  induction vs generalizing m a with
  | nil => exact h
  | cons v vs ih =>
    have hlen : a + (vs.length + 1) ≤ Config.dmaSpace := by simpa using ha
    refine ih (m.write a v) (a + 1) (Memory.wf_write m a v h (by omega)) ?_
    exact Or.inr (by omega)

/-- The memory of the reset state is canonical. -/
theorem Memory.wf_reset : Memory.wf State.reset.mem = true := rfl

/-! ### Storing bytes -/

/-- Storing bytes leaves every address outside them alone, in any memory. -/
theorem Memory.read_writeBytes_outside (m : Memory) (a b : Nat) (vs : List Byte)
    (h : b < a ∨ a + vs.length ≤ b) : (m.writeBytes a vs).read b = m.read b := by
  induction vs generalizing m a with
  | nil => rfl
  | cons v vs ih =>
    simp only [List.length_cons] at h
    have hne : b ≠ a := by omega
    rw [Memory.writeBytes, ih (m.write a v) (a + 1) (by omega), Memory.read_write_ne m a b v hne]

/-- Storing bytes puts byte i at a + i, in a canonical memory. -/
theorem Memory.read_writeBytes_inside (m : Memory) (a i : Nat) (vs : List Byte) (h : m.wf = true)
    (ha : a + vs.length ≤ Config.dmaSpace) (hi : i < vs.length) :
    (m.writeBytes a vs).read (a + i) = vs[i] := by
  induction vs generalizing m a i with
  | nil => simp at hi
  | cons v vs ih =>
    simp only [List.length_cons] at ha hi
    have hw : (m.write a v).wf = true := Memory.wf_write m a v h (by omega)
    cases i with
    | zero =>
      rw [Memory.writeBytes, Nat.add_zero, Memory.read_writeBytes_outside _ _ _ _ (Or.inl (by omega))]
      exact Memory.read_write_same m 0 a v h
    | succ i =>
      rw [Memory.writeBytes, show a + (i + 1) = a + 1 + i by omega]
      exact ih (m.write a v) (a + 1) i hw (by omega) (by omega)

/-! ### Races and abandoned commands -/

/-- Settling races keeps the canonical form. -/
theorem Memory.wf_settleRaces (s : State) (span : Option Span) (after : Memory) (index : Nat) (todo : List MemAccess)
    (t : State) (h : t.mem.wf = true) : (settleRaces s span after index todo t).mem.wf = true := by
  induction todo generalizing index t with
  | nil => exact h
  | cons acc rest ih =>
    cases acc with
    | store addr v => exact ih _ _ (Memory.wf_write _ _ _ h addr.isLt)
    | load addr => exact ih _ _ h

/-- What settling races leaves at an address that no racing access stores to. -/
theorem Memory.read_settleRaces (s : State) (span : Option Span) (after : Memory) (index : Nat) (todo : List MemAccess)
    (t : State) (a : Nat) (h : (todo.any fun acc => acc.storesTo a) = false) :
    (settleRaces s span after index todo t).mem.read a = t.mem.read a := by
  induction todo generalizing index t with
  | nil => rfl
  | cons acc rest ih =>
    rw [List.any_cons, Bool.or_eq_false_iff] at h
    cases acc with
    | load addr => exact ih _ _ h.2
    | store addr v =>
      rw [settleRaces, ih _ _ h.2]
      exact Memory.read_write_ne _ _ _ _ fun hne => by simp [MemAccess.storesTo, hne] at h

/-- Late stores leave every address alone that is not among theirs. -/
theorem Memory.read_landLate (serial : Nat) (span : Option Span) (addrs : List Nat) (m : Memory) (a : Nat)
    (h : a ∉ addrs) : (landLate serial span addrs m).read a = m.read a := by
  induction addrs generalizing m with
  | nil => rfl
  | cons b rest ih =>
    rw [List.mem_cons, not_or] at h
    rw [landLate, ih _ h.2]
    split
    · exact Memory.read_write_ne _ _ _ _ h.1
    · rfl

/-- Late stores keep the canonical form, where the span lies in the DMA space. -/
theorem Memory.wf_landLate (serial : Nat) (span : Option Span) (addrs : List Nat) (m : Memory) (h : m.wf = true)
    (hs : ∀ a, spanHolds span a = true → a < Config.dmaSpace) : (landLate serial span addrs m).wf = true := by
  induction addrs generalizing m with
  | nil => exact h
  | cons b rest ih =>
    refine ih _ ?_
    split
    · next hb => exact Memory.wf_write m b _ h (hs b hb)
    · exact h

/-- Landing some bytes of an abandoned command keeps the canonical form. -/
theorem Memory.wf_landSome (serial : Nat) (after : Memory) (a n : Nat) (m : Memory) (h : m.wf = true)
    (ha : n = 0 ∨ a + n ≤ Config.dmaSpace) : (landSome serial after a n m).wf = true := by
  induction n generalizing a m with
  | zero => exact h
  | succ n ih =>
    have hlen : a + (n + 1) ≤ Config.dmaSpace := by simpa using ha
    refine ih (a + 1) _ ?_ (Or.inr (by omega))
    split
    · exact Memory.wf_write m a _ h (by omega)
    · exact h

end Sys2Proof.Machine
end

