-- ==== Sys2Proof/Laws/Operands.lean ====
section
/-! SUPPORT. The range checks of 20_memory.md R67: what each can answer, said once. -/

namespace Sys2Proof.Machine

/-- No address of the run fails exactly when all are admitted. -/
theorem firstNotAdmitted_eq_none (p : Platform) (k : AccessKind) (a n : Nat) :
    firstNotAdmitted p k a n = none ↔ ∀ b, a ≤ b → b < a + n → admits p k b = true := by
  induction n generalizing a with
  | zero => simp [firstNotAdmitted]; intro b h1 h2; omega
  | succ n ih =>
    unfold firstNotAdmitted
    split
    · next ha =>
      rw [ih (a + 1)]
      constructor
      · intro h b h1 h2
        rcases Nat.eq_or_lt_of_le h1 with rfl | hlt
        · exact ha
        · exact h b hlt (by omega)
      · intro h b h1 h2
        exact h b (by omega) (by omega)
    · next ha =>
      simp only [reduceCtorEq, false_iff]
      exact fun h => ha (h a (Nat.le_refl a) (by omega))

/-- The address that fails is in the run, is not admitted, and every lower one is (60_exceptions.md R248). -/
theorem firstNotAdmitted_eq_some (p : Platform) (k : AccessKind) (a n c : Nat) :
    firstNotAdmitted p k a n = some c ↔
      a ≤ c ∧ c < a + n ∧ admits p k c = false ∧ ∀ b, a ≤ b → b < c → admits p k b = true := by
  induction n generalizing a with
  | zero => simp [firstNotAdmitted]; intro h1 h2; omega
  | succ n ih =>
    unfold firstNotAdmitted
    split
    · next ha =>
      rw [ih (a + 1)]
      constructor
      · rintro ⟨h1, h2, h3, h4⟩
        refine ⟨by omega, by omega, h3, fun b hb1 hb2 => ?_⟩
        rcases Nat.eq_or_lt_of_le hb1 with rfl | hlt
        · exact ha
        · exact h4 b hlt hb2
      · rintro ⟨h1, h2, h3, h4⟩
        have hne : a ≠ c := by rintro rfl; simp [ha] at h3
        exact ⟨by omega, by omega, h3, fun b hb1 hb2 => h4 b (by omega) hb2⟩
    · next ha =>
      simp only [Option.some.injEq]
      constructor
      · rintro rfl
        exact ⟨Nat.le_refl a, by omega, by simpa using ha, fun b hb1 hb2 => by omega⟩
      · rintro ⟨h1, h2, h3, h4⟩
        rcases Nat.eq_or_lt_of_le h1 with h | hlt
        · exact h
        · exact absurd (h4 a (Nat.le_refl a) hlt) (by simpa using ha)

/-- A buffer wraps when it is not empty and runs past the top of the DMA space (20_memory.md R67). -/
theorem wraps_iff (b : Buffer) : b.wraps = true ↔ 0 < b.len ∧ 2 ^ 64 < b.base.toNat + b.len := by
  simp [Buffer.wraps, Config.dmaSpace]

/-- A buffer passes the admission check when each of its bytes is admitted. -/
theorem admissionFault_eq_none (p : Platform) (b : Buffer) :
    admissionFault p b = none ↔ ∀ a, b.base.toNat ≤ a → a < b.base.toNat + b.len → admits p b.kind a = true := by
  unfold admissionFault
  rw [← firstNotAdmitted_eq_none]
  cases firstNotAdmitted p b.kind b.base.toNat b.len <;> simp

/-- What the range checks can answer (20_memory.md R67): nothing, when no buffer wraps and every byte is admitted; the
first buffer that wraps; or, when none wraps, the first buffer with a byte that is not admitted. -/
theorem rangeFault_cases (p : Platform) (bs : List Buffer) :
    (rangeFault p bs = none ∧ (∀ b ∈ bs, b.wraps = false) ∧ ∀ b ∈ bs, admissionFault p b = none) ∨
      (∃ b, bs.find? Buffer.wraps = some b ∧ rangeFault p bs = some (.rangeWrap, b.base)) ∨
      ((∀ b ∈ bs, b.wraps = false) ∧ ∃ f, bs.findSome? (admissionFault p) = some f ∧ rangeFault p bs = some f) := by
  unfold rangeFault
  cases hw : bs.find? Buffer.wraps with
  | some b => exact Or.inr (Or.inl ⟨b, rfl, rfl⟩)
  | none =>
    have hno : ∀ b ∈ bs, b.wraps = false := fun b hb => by
      simpa using List.find?_eq_none.mp hw b hb
    cases hf : bs.findSome? (admissionFault p) with
    | some f => exact Or.inr (Or.inr ⟨hno, f, rfl, rfl⟩)
    | none => exact Or.inl ⟨rfl, hno, List.findSome?_eq_none_iff.mp hf⟩

/-- The range checks pass exactly when no buffer wraps and every byte of every buffer is admitted. -/
theorem rangeFault_eq_none (p : Platform) (bs : List Buffer) :
    rangeFault p bs = none ↔ (∀ b ∈ bs, b.wraps = false) ∧
      ∀ b ∈ bs, ∀ a, b.base.toNat ≤ a → a < b.base.toNat + b.len → admits p b.kind a = true := by
  constructor
  · intro h
    rcases rangeFault_cases p bs with ⟨-, h1, h2⟩ | ⟨b, -, h2⟩ | ⟨-, f, -, h2⟩
    · exact ⟨h1, fun b hb => (admissionFault_eq_none p b).mp (h2 b hb)⟩
    · simp [h2] at h
    · simp [h2] at h
  · rintro ⟨h1, h2⟩
    unfold rangeFault
    have hw : bs.find? Buffer.wraps = none := List.find?_eq_none.mpr fun b hb => by simp [h1 b hb]
    simp only [hw]
    exact List.findSome?_eq_none_iff.mpr fun b hb => (admissionFault_eq_none p b).mpr (h2 b hb)

end Sys2Proof.Machine
end

