-- ==== Sys2Proof/Laws/State.lean ====
section
/-! SUPPORT. For each update of the state, what each field is after it: one lemma per field per update, so that no later
proof unfolds a record update. -/

namespace Sys2Proof.Machine

/-! ### Raising a fault -/

@[simp] theorem raiseFault_sponge (w : Word) (c : Cause) (a : Word) (s : State) : (raiseFault w c a s).sponge = s.sponge := rfl
@[simp] theorem raiseFault_faults (w : Word) (c : Cause) (a : Word) (s : State) : (raiseFault w c a s).faults = { err := true, cause := c, errcmd := w, erraddr := a } := rfl
@[simp] theorem raiseFault_operands (w : Word) (c : Cause) (a : Word) (s : State) : (raiseFault w c a s).operands = s.operands := rfl
@[simp] theorem raiseFault_mem (w : Word) (c : Cause) (a : Word) (s : State) : (raiseFault w c a s).mem = s.mem := rfl
@[simp] theorem raiseFault_platform (w : Word) (c : Cause) (a : Word) (s : State) : (raiseFault w c a s).platform = s.platform := rfl
@[simp] theorem raiseFault_pending (w : Word) (c : Cause) (a : Word) (s : State) : (raiseFault w c a s).pending = s.pending := rfl
@[simp] theorem raiseFault_overlap (w : Word) (c : Cause) (a : Word) (s : State) : (raiseFault w c a s).overlap = s.overlap := rfl
@[simp] theorem raiseFault_visibility (w : Word) (c : Cause) (a : Word) (s : State) : (raiseFault w c a s).visibility = s.visibility := rfl
@[simp] theorem raiseFault_answers (w : Word) (c : Cause) (a : Word) (s : State) : (raiseFault w c a s).answers = s.answers := rfl
@[simp] theorem raiseFault_serial (w : Word) (c : Cause) (a : Word) (s : State) : (raiseFault w c a s).serial = s.serial := rfl

/-! ### Reset -/

@[simp] theorem resetEngine_sponge (s : State) : (resetEngine s).sponge = Sponge.reset := rfl
@[simp] theorem resetEngine_faults (s : State) : (resetEngine s).faults = FaultRegs.reset := rfl
@[simp] theorem resetEngine_operands (s : State) : (resetEngine s).operands = OperandRegs.reset := rfl
@[simp] theorem resetEngine_mem (s : State) : (resetEngine s).mem = s.mem := rfl
@[simp] theorem resetEngine_platform (s : State) : (resetEngine s).platform = s.platform := rfl
@[simp] theorem resetEngine_pending (s : State) : (resetEngine s).pending = s.pending := rfl
@[simp] theorem resetEngine_overlap (s : State) : (resetEngine s).overlap = s.overlap := rfl
@[simp] theorem resetEngine_visibility (s : State) : (resetEngine s).visibility = s.visibility := rfl
@[simp] theorem resetEngine_answers (s : State) : (resetEngine s).answers = s.answers := rfl
@[simp] theorem resetEngine_serial (s : State) : (resetEngine s).serial = s.serial := rfl

/-! ### Taking up an interaction -/

@[simp] theorem takeUp_sponge (rest : List BusEvent) (s : State) : (takeUp rest s).sponge = s.sponge := rfl
@[simp] theorem takeUp_faults (rest : List BusEvent) (s : State) : (takeUp rest s).faults = s.faults := rfl
@[simp] theorem takeUp_operands (rest : List BusEvent) (s : State) : (takeUp rest s).operands = s.operands := rfl
@[simp] theorem takeUp_mem (rest : List BusEvent) (s : State) : (takeUp rest s).mem = s.mem := rfl
@[simp] theorem takeUp_platform (rest : List BusEvent) (s : State) : (takeUp rest s).platform = s.platform := rfl
@[simp] theorem takeUp_pending (rest : List BusEvent) (s : State) : (takeUp rest s).pending = rest := rfl
@[simp] theorem takeUp_overlap (rest : List BusEvent) (s : State) : (takeUp rest s).overlap = s.overlap := rfl
@[simp] theorem takeUp_visibility (rest : List BusEvent) (s : State) : (takeUp rest s).visibility = s.visibility := rfl
@[simp] theorem takeUp_answers (rest : List BusEvent) (s : State) : (takeUp rest s).answers = s.answers := rfl
@[simp] theorem takeUp_serial (rest : List BusEvent) (s : State) : (takeUp rest s).serial = s.serial + 1 := rfl

/-! ### ABSORB's effect -/

@[simp] theorem absorbEffect_sponge (s : State) : (absorbEffect s).sponge = absorbBytes s.sponge (dmaReadBytes s s.operands.src.toNat s.operands.len.toNat) := by simp only [absorbEffect]
@[simp] theorem absorbEffect_faults (s : State) : (absorbEffect s).faults = s.faults := by simp only [absorbEffect]
@[simp] theorem absorbEffect_operands (s : State) : (absorbEffect s).operands = s.operands := by simp only [absorbEffect]
@[simp] theorem absorbEffect_mem (s : State) : (absorbEffect s).mem = s.mem := by simp only [absorbEffect]
@[simp] theorem absorbEffect_platform (s : State) : (absorbEffect s).platform = s.platform := by simp only [absorbEffect]
@[simp] theorem absorbEffect_pending (s : State) : (absorbEffect s).pending = s.pending := by simp only [absorbEffect]
@[simp] theorem absorbEffect_overlap (s : State) : (absorbEffect s).overlap = s.overlap := by simp only [absorbEffect]
@[simp] theorem absorbEffect_visibility (s : State) : (absorbEffect s).visibility = s.visibility := by simp only [absorbEffect]
@[simp] theorem absorbEffect_answers (s : State) : (absorbEffect s).answers = s.answers := by simp only [absorbEffect]
@[simp] theorem absorbEffect_serial (s : State) : (absorbEffect s).serial = s.serial := by simp only [absorbEffect]

/-! ### SQUEEZE's effect -/

@[simp] theorem squeezeEffect_sponge (s : State) : (squeezeEffect s).sponge = { squeezeContext s.operands.len.toNat s.sponge with phase := .squeezing } := by simp only [squeezeEffect]
@[simp] theorem squeezeEffect_faults (s : State) : (squeezeEffect s).faults = s.faults := by simp only [squeezeEffect]
@[simp] theorem squeezeEffect_operands (s : State) : (squeezeEffect s).operands = s.operands := by simp only [squeezeEffect]
@[simp] theorem squeezeEffect_mem (s : State) : (squeezeEffect s).mem = s.mem.writeBytes s.operands.dst.toNat (squeezeOutput s.operands.len.toNat s.sponge) := by simp only [squeezeEffect]
@[simp] theorem squeezeEffect_platform (s : State) : (squeezeEffect s).platform = s.platform := by simp only [squeezeEffect]
@[simp] theorem squeezeEffect_pending (s : State) : (squeezeEffect s).pending = s.pending := by simp only [squeezeEffect]
@[simp] theorem squeezeEffect_overlap (s : State) : (squeezeEffect s).overlap = s.overlap := by simp only [squeezeEffect]
@[simp] theorem squeezeEffect_visibility (s : State) : (squeezeEffect s).visibility = s.visibility := by simp only [squeezeEffect]
@[simp] theorem squeezeEffect_answers (s : State) : (squeezeEffect s).answers = s.answers := by simp only [squeezeEffect]
@[simp] theorem squeezeEffect_serial (s : State) : (squeezeEffect s).serial = s.serial := by simp only [squeezeEffect]

/-! ### PERMUTE's effect -/

@[simp] theorem permuteEffect_sponge (s : State) : (permuteEffect s).sponge = s.sponge := by simp only [permuteEffect]
@[simp] theorem permuteEffect_faults (s : State) : (permuteEffect s).faults = s.faults := by simp only [permuteEffect]
@[simp] theorem permuteEffect_operands (s : State) : (permuteEffect s).operands = s.operands := by simp only [permuteEffect]
@[simp] theorem permuteEffect_mem (s : State) : (permuteEffect s).mem = s.mem.writeBytes s.operands.dst.toNat (bytesOfLanes (permuteLanes (permuteInput s))) := by simp only [permuteEffect]
@[simp] theorem permuteEffect_platform (s : State) : (permuteEffect s).platform = s.platform := by simp only [permuteEffect]
@[simp] theorem permuteEffect_pending (s : State) : (permuteEffect s).pending = s.pending := by simp only [permuteEffect]
@[simp] theorem permuteEffect_overlap (s : State) : (permuteEffect s).overlap = s.overlap := by simp only [permuteEffect]
@[simp] theorem permuteEffect_visibility (s : State) : (permuteEffect s).visibility = s.visibility := by simp only [permuteEffect]
@[simp] theorem permuteEffect_answers (s : State) : (permuteEffect s).answers = s.answers := by simp only [permuteEffect]
@[simp] theorem permuteEffect_serial (s : State) : (permuteEffect s).serial = s.serial := by simp only [permuteEffect]

/-! ### A register read -/

@[simp] theorem hostRead_sponge (o : Nat) (s : State) : (hostRead o s).sponge = s.sponge := rfl
@[simp] theorem hostRead_faults (o : Nat) (s : State) : (hostRead o s).faults = s.faults := rfl
@[simp] theorem hostRead_operands (o : Nat) (s : State) : (hostRead o s).operands = s.operands := rfl
@[simp] theorem hostRead_mem (o : Nat) (s : State) : (hostRead o s).mem = s.mem := rfl
@[simp] theorem hostRead_platform (o : Nat) (s : State) : (hostRead o s).platform = s.platform := rfl
@[simp] theorem hostRead_pending (o : Nat) (s : State) : (hostRead o s).pending = s.pending := rfl
@[simp] theorem hostRead_overlap (o : Nat) (s : State) : (hostRead o s).overlap = s.overlap := rfl
@[simp] theorem hostRead_visibility (o : Nat) (s : State) : (hostRead o s).visibility = { s.visibility with written := updateWritten .afterRead s.visibility.written } := rfl
@[simp] theorem hostRead_answers (o : Nat) (s : State) : (hostRead o s).answers = s.answers ++ [.register (readRegister s o)] := rfl
@[simp] theorem hostRead_serial (o : Nat) (s : State) : (hostRead o s).serial = s.serial := rfl

/-! ### What a written span still waits for -/

@[simp] theorem afterRead_span (x : WrittenSpan) : x.afterRead.span = x.span := rfl
@[simp] theorem afterRead_posted (x : WrittenSpan) : x.afterRead.posted = false := rfl
@[simp] theorem afterRead_unordered (x : WrittenSpan) : x.afterRead.unordered = x.unordered := rfl
@[simp] theorem afterRead_cached (x : WrittenSpan) : x.afterRead.cached = x.cached := rfl
@[simp] theorem afterFence_span (x : WrittenSpan) : x.afterFence.span = x.span := rfl
@[simp] theorem afterFence_posted (x : WrittenSpan) : x.afterFence.posted = x.posted := rfl
@[simp] theorem afterFence_unordered (x : WrittenSpan) : x.afterFence.unordered = (x.posted && x.unordered) := rfl
@[simp] theorem afterFence_cached (x : WrittenSpan) : x.afterFence.cached = x.cached := rfl
@[simp] theorem afterMaintain_span (x : WrittenSpan) : x.afterMaintain.span = x.span := rfl
@[simp] theorem afterMaintain_posted (x : WrittenSpan) : x.afterMaintain.posted = x.posted := rfl
@[simp] theorem afterMaintain_unordered (x : WrittenSpan) : x.afterMaintain.unordered = x.unordered := rfl
@[simp] theorem afterMaintain_cached (x : WrittenSpan) :
    x.afterMaintain.cached = ((x.posted || x.unordered) && x.cached) := rfl

/-- A span stands in the updated list exactly where it is an updated span that still waits for something. -/
@[simp] theorem mem_updateWritten (f : WrittenSpan → WrittenSpan) (l : List WrittenSpan) (y : WrittenSpan) :
    y ∈ updateWritten f l ↔ (∃ x ∈ l, f x = y) ∧ y.hides = true := by
  simp [updateWritten]

/-- An address is seen exactly where no span that covers it waits for anything. -/
theorem unseen_eq_false (s : State) (a : Nat) :
    unseen s a = false ↔ ∀ x ∈ s.visibility.written, x.span.covers a = true → x.hides = false := by
  simp only [unseen, List.any_eq_false, Bool.and_eq_true, not_and, Bool.not_eq_true]
  exact forall₂_congr fun x _ => ⟨fun h hc => by cases hh : x.hides <;> simp_all, fun h hh => by
    cases hc : x.span.covers a <;> simp_all⟩

/-! ### A host load -/

@[simp] theorem hostLoad_sponge (a : Nat) (s : State) : (hostLoad a s).sponge = s.sponge := rfl
@[simp] theorem hostLoad_faults (a : Nat) (s : State) : (hostLoad a s).faults = s.faults := rfl
@[simp] theorem hostLoad_operands (a : Nat) (s : State) : (hostLoad a s).operands = s.operands := rfl
@[simp] theorem hostLoad_mem (a : Nat) (s : State) : (hostLoad a s).mem = s.mem := rfl
@[simp] theorem hostLoad_platform (a : Nat) (s : State) : (hostLoad a s).platform = s.platform := rfl
@[simp] theorem hostLoad_pending (a : Nat) (s : State) : (hostLoad a s).pending = s.pending := rfl
@[simp] theorem hostLoad_overlap (a : Nat) (s : State) : (hostLoad a s).overlap = s.overlap := rfl
@[simp] theorem hostLoad_visibility (a : Nat) (s : State) : (hostLoad a s).visibility = s.visibility := rfl
@[simp] theorem hostLoad_answers (a : Nat) (s : State) : (hostLoad a s).answers = s.answers ++ [.loaded (if unseen s a then Config.unseenByte s.serial a else s.mem.read a)] := rfl
@[simp] theorem hostLoad_serial (a : Nat) (s : State) : (hostLoad a s).serial = s.serial := rfl

/-! ### A fence -/

@[simp] theorem hostFence_sponge (s : State) : (hostFence s).sponge = s.sponge := rfl
@[simp] theorem hostFence_faults (s : State) : (hostFence s).faults = s.faults := rfl
@[simp] theorem hostFence_operands (s : State) : (hostFence s).operands = s.operands := rfl
@[simp] theorem hostFence_mem (s : State) : (hostFence s).mem = s.mem := rfl
@[simp] theorem hostFence_platform (s : State) : (hostFence s).platform = s.platform := rfl
@[simp] theorem hostFence_pending (s : State) : (hostFence s).pending = s.pending := rfl
@[simp] theorem hostFence_overlap (s : State) : (hostFence s).overlap = s.overlap := rfl
@[simp] theorem hostFence_visibility (s : State) : (hostFence s).visibility = { s.visibility with unfenced := [], written := updateWritten .afterFence s.visibility.written } := rfl
@[simp] theorem hostFence_answers (s : State) : (hostFence s).answers = s.answers := rfl
@[simp] theorem hostFence_serial (s : State) : (hostFence s).serial = s.serial := rfl

/-! ### Cache maintenance -/

@[simp] theorem hostMaintain_sponge (s : State) : (hostMaintain s).sponge = s.sponge := rfl
@[simp] theorem hostMaintain_faults (s : State) : (hostMaintain s).faults = s.faults := rfl
@[simp] theorem hostMaintain_operands (s : State) : (hostMaintain s).operands = s.operands := rfl
@[simp] theorem hostMaintain_mem (s : State) : (hostMaintain s).mem = s.mem := rfl
@[simp] theorem hostMaintain_platform (s : State) : (hostMaintain s).platform = s.platform := rfl
@[simp] theorem hostMaintain_pending (s : State) : (hostMaintain s).pending = s.pending := rfl
@[simp] theorem hostMaintain_overlap (s : State) : (hostMaintain s).overlap = s.overlap := rfl
@[simp] theorem hostMaintain_visibility (s : State) : (hostMaintain s).visibility = { s.visibility with uncleaned := [], written := updateWritten .afterMaintain s.visibility.written } := rfl
@[simp] theorem hostMaintain_answers (s : State) : (hostMaintain s).answers = s.answers := rfl
@[simp] theorem hostMaintain_serial (s : State) : (hostMaintain s).serial = s.serial := rfl

/-! ### Stores on their way -/

@[simp] theorem markStored_sponge (a : Nat) (s : State) : (markStored a s).sponge = s.sponge := rfl
@[simp] theorem markStored_faults (a : Nat) (s : State) : (markStored a s).faults = s.faults := rfl
@[simp] theorem markStored_operands (a : Nat) (s : State) : (markStored a s).operands = s.operands := rfl
@[simp] theorem markStored_mem (a : Nat) (s : State) : (markStored a s).mem = s.mem := rfl
@[simp] theorem markStored_platform (a : Nat) (s : State) : (markStored a s).platform = s.platform := rfl
@[simp] theorem markStored_pending (a : Nat) (s : State) : (markStored a s).pending = s.pending := rfl
@[simp] theorem markStored_overlap (a : Nat) (s : State) : (markStored a s).overlap = s.overlap := rfl
@[simp] theorem markStored_answers (a : Nat) (s : State) : (markStored a s).answers = s.answers := rfl
@[simp] theorem markStored_serial (a : Nat) (s : State) : (markStored a s).serial = s.serial := rfl

/-- A span without the byte at a covers what it covered but that byte, and waits for what it waited for. -/
theorem without_covers (a b : Nat) (x : WrittenSpan) :
    ((x.without a).any fun y => y.hides && y.span.covers b) = (x.hides && x.span.covers b && b != a) := by
  rw [Bool.eq_iff_iff]
  simp only [List.any_eq_true, Bool.and_eq_true, bne_iff_ne]
  unfold WrittenSpan.without
  split
  · next hc =>
    simp only [Span.covers, Bool.and_eq_true, decide_eq_true_eq] at hc ⊢
    constructor
    · rintro ⟨y, hy, hh, hb⟩
      simp only [List.mem_filter, List.mem_cons, List.not_mem_nil, or_false] at hy
      obtain ⟨rfl | rfl, -⟩ := hy <;> exact ⟨⟨hh, by simp only at hb ⊢; omega⟩, by simp only at hb; omega⟩
    · rintro ⟨⟨hh, hb⟩, hne⟩
      rcases Nat.lt_or_gt_of_ne hne with hlt | hgt
      · exact ⟨{ x with span := { base := x.span.base, len := a - x.span.base } },
          List.mem_filter.mpr ⟨List.mem_cons_self, decide_eq_true (by simp only; omega)⟩,
          hh, by simp only; omega⟩
      · exact ⟨{ x with span := { base := a + 1, len := x.span.base + x.span.len - (a + 1) } },
          List.mem_filter.mpr ⟨List.mem_cons_of_mem _ List.mem_cons_self, decide_eq_true (by simp only; omega)⟩,
          hh, by simp only; omega⟩
  · next hc =>
    constructor
    · rintro ⟨y, hy, hh, hb⟩
      obtain rfl := List.mem_singleton.mp hy
      exact ⟨⟨hh, hb⟩, fun hne => hc (hne ▸ hb)⟩
    · rintro ⟨⟨hh, hb⟩, -⟩
      exact ⟨x, List.mem_singleton.mpr rfl, hh, hb⟩

/-- After a store to a, a load need not see just what it need not see before, but for a itself. -/
@[simp] theorem unseen_markStored (a b : Nat) (s : State) : unseen (markStored a s) b = (unseen s b && b != a) := by
  simp only [unseen, markStored, List.any_flatMap, without_covers]
  induction s.visibility.written with
  | nil => rfl
  | cons x l ih => simp only [List.any_cons, ih, Bool.and_or_distrib_right]

/-! ### A host store -/

@[simp] theorem hostStore_sponge (a : Nat) (v : Byte) (s : State) : (hostStore a v s).sponge = s.sponge := rfl
@[simp] theorem hostStore_faults (a : Nat) (v : Byte) (s : State) : (hostStore a v s).faults = s.faults := rfl
@[simp] theorem hostStore_operands (a : Nat) (v : Byte) (s : State) : (hostStore a v s).operands = s.operands := rfl
@[simp] theorem hostStore_mem (a : Nat) (v : Byte) (s : State) : (hostStore a v s).mem = s.mem.write a v := rfl
@[simp] theorem hostStore_platform (a : Nat) (v : Byte) (s : State) : (hostStore a v s).platform = s.platform := rfl
@[simp] theorem hostStore_pending (a : Nat) (v : Byte) (s : State) : (hostStore a v s).pending = s.pending := rfl
@[simp] theorem hostStore_overlap (a : Nat) (v : Byte) (s : State) : (hostStore a v s).overlap = s.overlap := rfl
@[simp] theorem hostStore_answers (a : Nat) (v : Byte) (s : State) : (hostStore a v s).answers = s.answers := rfl
@[simp] theorem hostStore_serial (a : Nat) (v : Byte) (s : State) : (hostStore a v s).serial = s.serial := rfl

@[simp] theorem unseen_hostStore (a b : Nat) (v : Byte) (s : State) :
    unseen (hostStore a v s) b = (unseen s b && b != a) := by
  rw [hostStore, unseen_markStored]
  rfl

/-! ### A register write -/

@[simp] theorem writeRegister_sponge (s : State) (o : Nat) (v : Word) : (writeRegister s o v).sponge = s.sponge := by
  unfold writeRegister; split <;> rfl
@[simp] theorem writeRegister_faults (s : State) (o : Nat) (v : Word) : (writeRegister s o v).faults = s.faults := by
  unfold writeRegister; split <;> rfl
@[simp] theorem writeRegister_mem (s : State) (o : Nat) (v : Word) : (writeRegister s o v).mem = s.mem := by
  unfold writeRegister; split <;> rfl
@[simp] theorem writeRegister_platform (s : State) (o : Nat) (v : Word) : (writeRegister s o v).platform = s.platform := by
  unfold writeRegister; split <;> rfl
@[simp] theorem writeRegister_pending (s : State) (o : Nat) (v : Word) : (writeRegister s o v).pending = s.pending := by
  unfold writeRegister; split <;> rfl
@[simp] theorem writeRegister_overlap (s : State) (o : Nat) (v : Word) : (writeRegister s o v).overlap = s.overlap := by
  unfold writeRegister; split <;> rfl
@[simp] theorem writeRegister_visibility (s : State) (o : Nat) (v : Word) : (writeRegister s o v).visibility = s.visibility := by
  unfold writeRegister; split <;> rfl
@[simp] theorem writeRegister_answers (s : State) (o : Nat) (v : Word) : (writeRegister s o v).answers = s.answers := by
  unfold writeRegister; split <;> rfl
@[simp] theorem writeRegister_serial (s : State) (o : Nat) (v : Word) : (writeRegister s o v).serial = s.serial := by
  unfold writeRegister; split <;> rfl

/-! ### The span a command wrote -/

@[simp] theorem markWritten_sponge (p : Option Span) (s : State) : (markWritten p s).sponge = s.sponge := by
  cases p <;> rfl
@[simp] theorem markWritten_faults (p : Option Span) (s : State) : (markWritten p s).faults = s.faults := by
  cases p <;> rfl
@[simp] theorem markWritten_operands (p : Option Span) (s : State) : (markWritten p s).operands = s.operands := by
  cases p <;> rfl
@[simp] theorem markWritten_mem (p : Option Span) (s : State) : (markWritten p s).mem = s.mem := by
  cases p <;> rfl
@[simp] theorem markWritten_platform (p : Option Span) (s : State) : (markWritten p s).platform = s.platform := by
  cases p <;> rfl
@[simp] theorem markWritten_pending (p : Option Span) (s : State) : (markWritten p s).pending = s.pending := by
  cases p <;> rfl
@[simp] theorem markWritten_overlap (p : Option Span) (s : State) : (markWritten p s).overlap = s.overlap := by
  cases p <;> rfl
@[simp] theorem markWritten_answers (p : Option Span) (s : State) : (markWritten p s).answers = s.answers := by
  cases p <;> rfl
@[simp] theorem markWritten_serial (p : Option Span) (s : State) : (markWritten p s).serial = s.serial := by
  cases p <;> rfl

/-! ### Settling the overlap, and completing a command -/

@[simp] theorem settleRaces_sponge (s : State) (p : Option Span) (m : Memory) (i : Nat) (l : List MemAccess) (t : State) :
    (settleRaces s p m i l t).sponge = t.sponge := by
  induction l generalizing i t with
  | nil => rfl
  | cons acc rest ih => cases acc <;> exact ih _ _
@[simp] theorem settleRaces_faults (s : State) (p : Option Span) (m : Memory) (i : Nat) (l : List MemAccess) (t : State) :
    (settleRaces s p m i l t).faults = t.faults := by
  induction l generalizing i t with
  | nil => rfl
  | cons acc rest ih => cases acc <;> exact ih _ _
@[simp] theorem settleRaces_operands (s : State) (p : Option Span) (m : Memory) (i : Nat) (l : List MemAccess) (t : State) :
    (settleRaces s p m i l t).operands = t.operands := by
  induction l generalizing i t with
  | nil => rfl
  | cons acc rest ih => cases acc <;> exact ih _ _
@[simp] theorem settleRaces_platform (s : State) (p : Option Span) (m : Memory) (i : Nat) (l : List MemAccess) (t : State) :
    (settleRaces s p m i l t).platform = t.platform := by
  induction l generalizing i t with
  | nil => rfl
  | cons acc rest ih => cases acc <;> exact ih _ _
@[simp] theorem settleRaces_pending (s : State) (p : Option Span) (m : Memory) (i : Nat) (l : List MemAccess) (t : State) :
    (settleRaces s p m i l t).pending = t.pending := by
  induction l generalizing i t with
  | nil => rfl
  | cons acc rest ih => cases acc <;> exact ih _ _
@[simp] theorem settleRaces_overlap (s : State) (p : Option Span) (m : Memory) (i : Nat) (l : List MemAccess) (t : State) :
    (settleRaces s p m i l t).overlap = t.overlap := by
  induction l generalizing i t with
  | nil => rfl
  | cons acc rest ih => cases acc <;> exact ih _ _
@[simp] theorem settleRaces_serial (s : State) (p : Option Span) (m : Memory) (i : Nat) (l : List MemAccess) (t : State) :
    (settleRaces s p m i l t).serial = t.serial := by
  induction l generalizing i t with
  | nil => rfl
  | cons acc rest ih => cases acc <;> exact ih _ _


@[simp] theorem settleOverlap_sponge (p : Option Span) (s t : State) : (settleOverlap p s t).sponge = t.sponge := by
  simp [settleOverlap]
@[simp] theorem settleOverlap_faults (p : Option Span) (s t : State) : (settleOverlap p s t).faults = t.faults := by
  simp [settleOverlap]
@[simp] theorem settleOverlap_operands (p : Option Span) (s t : State) : (settleOverlap p s t).operands = t.operands := by
  simp [settleOverlap]
@[simp] theorem settleOverlap_platform (p : Option Span) (s t : State) : (settleOverlap p s t).platform = t.platform := by
  simp [settleOverlap]
@[simp] theorem settleOverlap_pending (p : Option Span) (s t : State) : (settleOverlap p s t).pending = t.pending := by
  simp [settleOverlap]
@[simp] theorem settleOverlap_overlap (p : Option Span) (s t : State) : (settleOverlap p s t).overlap = [] := rfl
@[simp] theorem settleOverlap_serial (p : Option Span) (s t : State) : (settleOverlap p s t).serial = t.serial := by
  simp [settleOverlap]

@[simp] theorem completeCommand_sponge (p : Option Span) (s t : State) : (completeCommand p s t).sponge = t.sponge := by
  simp [completeCommand]
@[simp] theorem completeCommand_faults (p : Option Span) (s t : State) : (completeCommand p s t).faults = t.faults := by
  simp [completeCommand]
@[simp] theorem completeCommand_operands (p : Option Span) (s t : State) : (completeCommand p s t).operands = t.operands := by
  simp [completeCommand]
@[simp] theorem completeCommand_platform (p : Option Span) (s t : State) : (completeCommand p s t).platform = t.platform := by
  simp [completeCommand]
@[simp] theorem completeCommand_pending (p : Option Span) (s t : State) : (completeCommand p s t).pending = t.pending := by
  simp [completeCommand]
@[simp] theorem completeCommand_overlap (p : Option Span) (s t : State) : (completeCommand p s t).overlap = [] := by
  simp [completeCommand]
@[simp] theorem completeCommand_serial (p : Option Span) (s t : State) : (completeCommand p s t).serial = t.serial := by
  simp [completeCommand]
@[simp] theorem completeCommand_mem (p : Option Span) (s t : State) :
    (completeCommand p s t).mem = (settleOverlap p s t).mem := by
  simp [completeCommand]
@[simp] theorem completeCommand_answers (p : Option Span) (s t : State) :
    (completeCommand p s t).answers = (settleOverlap p s t).answers ++ [.completed] := by
  simp [completeCommand]

/-- With no race in progress and no store on its way a command completes with its own memory and answers. -/
theorem settleOverlap_of_quiet (p : Option Span) (s t : State) (h : s.overlap = []) (hf : s.visibility.unfenced = [])
    (hc : s.visibility.uncleaned = []) : settleOverlap p s t = { t with overlap := [] } := by
  simp [settleOverlap, h, hf, hc, settleRaces, landLate]

/-- Where CMD writes are not posted, host accesses are ordered and DMA is coherent, a host sees what a command wrote. -/
theorem markWritten_settled (p : Option Span) (s : State) (hp : s.platform.postedWrites = false)
    (hc : s.platform.dmaCoherent = true) (ho : s.platform.hostOrdered = true) : markWritten p s = s := by
  cases p <;> simp [markWritten, WrittenSpan.hides, hp, hc, ho]

/-! ### The sponge context's registers -/

@[simp] theorem permuteContext_lanes (c : Sponge) : (permuteContext c).lanes = permuteLanes c.lanes := by simp only [permuteContext]
@[simp] theorem permuteContext_rate (c : Sponge) : (permuteContext c).rate = c.rate := by simp only [permuteContext]
@[simp] theorem permuteContext_delim (c : Sponge) : (permuteContext c).delim = c.delim := by simp only [permuteContext]
@[simp] theorem permuteContext_pos (c : Sponge) : (permuteContext c).pos = c.pos := by simp only [permuteContext]
@[simp] theorem permuteContext_phase (c : Sponge) : (permuteContext c).phase = c.phase := by simp only [permuteContext]
@[simp] theorem permuteContext_permcnt (c : Sponge) : (permuteContext c).permcnt = c.permcnt + 1 := by simp only [permuteContext]

@[simp] theorem padContext_rate (c : Sponge) : (padContext c).rate = c.rate := by simp only [padContext]
@[simp] theorem padContext_delim (c : Sponge) : (padContext c).delim = c.delim := by simp only [padContext]
@[simp] theorem padContext_pos (c : Sponge) : (padContext c).pos = c.pos := by simp only [padContext]
@[simp] theorem padContext_phase (c : Sponge) : (padContext c).phase = c.phase := by simp only [padContext]
@[simp] theorem padContext_permcnt (c : Sponge) : (padContext c).permcnt = c.permcnt := by simp only [padContext]

@[simp] theorem finalizeContext_lanes (c : Sponge) : (finalizeContext c).lanes = permuteLanes (padContext c).lanes := by simp only [finalizeContext, permuteContext, padContext]
@[simp] theorem finalizeContext_rate (c : Sponge) : (finalizeContext c).rate = c.rate := by simp only [finalizeContext, permuteContext, padContext]
@[simp] theorem finalizeContext_delim (c : Sponge) : (finalizeContext c).delim = c.delim := by simp only [finalizeContext, permuteContext, padContext]
@[simp] theorem finalizeContext_pos (c : Sponge) : (finalizeContext c).pos = 0 := by simp only [finalizeContext]
@[simp] theorem finalizeContext_phase (c : Sponge) : (finalizeContext c).phase = .finalized := by simp only [finalizeContext]
@[simp] theorem finalizeContext_permcnt (c : Sponge) : (finalizeContext c).permcnt = c.permcnt + 1 := by simp only [finalizeContext, permuteContext, padContext]

@[simp] theorem startedSponge_lanes (r d : Byte) : (startedSponge r d).lanes = Vector.replicate Config.laneCount 0 := by simp only [startedSponge]
@[simp] theorem startedSponge_rate (r d : Byte) : (startedSponge r d).rate = r := by simp only [startedSponge]
@[simp] theorem startedSponge_delim (r d : Byte) : (startedSponge r d).delim = d := by simp only [startedSponge]
@[simp] theorem startedSponge_pos (r d : Byte) : (startedSponge r d).pos = 0 := by simp only [startedSponge]
@[simp] theorem startedSponge_phase (r d : Byte) : (startedSponge r d).phase = .absorbing := by simp only [startedSponge]
@[simp] theorem startedSponge_permcnt (r d : Byte) : (startedSponge r d).permcnt = 0 := by simp only [startedSponge]

@[simp] theorem advance_rate (c : Sponge) : (advance c).rate = c.rate := by
  unfold advance; split <;> simp only [permuteContext]
@[simp] theorem advance_delim (c : Sponge) : (advance c).delim = c.delim := by
  unfold advance; split <;> simp only [permuteContext]
@[simp] theorem advance_phase (c : Sponge) : (advance c).phase = c.phase := by
  unfold advance; split <;> simp only [permuteContext]

@[simp] theorem absorbByte_rate (c : Sponge) (v : Byte) : (absorbByte c v).rate = c.rate := by simp [absorbByte]
@[simp] theorem absorbByte_delim (c : Sponge) (v : Byte) : (absorbByte c v).delim = c.delim := by simp [absorbByte]
@[simp] theorem absorbByte_phase (c : Sponge) (v : Byte) : (absorbByte c v).phase = c.phase := by simp [absorbByte]

@[simp] theorem absorbBytes_nil (c : Sponge) : absorbBytes c [] = c := rfl
@[simp] theorem absorbBytes_cons (c : Sponge) (v : Byte) (vs : List Byte) :
    absorbBytes c (v :: vs) = absorbBytes (absorbByte c v) vs := rfl
@[simp] theorem absorbBytes_rate (c : Sponge) (vs : List Byte) : (absorbBytes c vs).rate = c.rate := by
  induction vs generalizing c with
  | nil => rfl
  | cons v vs ih => simp [ih]
@[simp] theorem absorbBytes_delim (c : Sponge) (vs : List Byte) : (absorbBytes c vs).delim = c.delim := by
  induction vs generalizing c with
  | nil => rfl
  | cons v vs ih => simp [ih]
@[simp] theorem absorbBytes_phase (c : Sponge) (vs : List Byte) : (absorbBytes c vs).phase = c.phase := by
  induction vs generalizing c with
  | nil => rfl
  | cons v vs ih => simp [ih]

@[simp] theorem squeezeContext_rate (n : Nat) (c : Sponge) : (squeezeContext n c).rate = c.rate := by
  induction n generalizing c with
  | zero => rfl
  | succ n ih => simp [squeezeContext, ih]
@[simp] theorem squeezeContext_delim (n : Nat) (c : Sponge) : (squeezeContext n c).delim = c.delim := by
  induction n generalizing c with
  | zero => rfl
  | succ n ih => simp [squeezeContext, ih]
@[simp] theorem squeezeContext_phase (n : Nat) (c : Sponge) : (squeezeContext n c).phase = c.phase := by
  induction n generalizing c with
  | zero => rfl
  | succ n ih => simp [squeezeContext, ih]
@[simp] theorem squeezeOutput_length (n : Nat) (c : Sponge) : (squeezeOutput n c).length = n := by
  induction n generalizing c with
  | zero => rfl
  | succ n ih => simp [squeezeOutput, ih]

end Sys2Proof.Machine
end

