-- ==== Sys2Proof/Laws/Ops.lean ====
section
/-! SUPPORT. One lemma per shared operation, saying what it can do: the frame of a command, the DMA's reads, and
serving an interaction. -/

namespace Sys2Proof.Machine

/-! ### The frame of a command (43_control.md R222) -/

/-- Under the error lockout a command has no effect (60_exceptions.md R250). -/
theorem runCommand_locked (w : Word) (check : State → Option (Cause × Word)) (effect : State → State) (s : State)
    (h : s.faults.err = true) : runCommand w check effect s = .next s := by
  simp [runCommand, h]

/-- A command whose checks find a fault raises it (60_exceptions.md R240). -/
theorem runCommand_faults (w : Word) (check : State → Option (Cause × Word)) (effect : State → State) (s : State)
    (c : Cause) (a : Word) (h : s.faults.err = false) (hc : check s = some (c, a)) :
    runCommand w check effect s = .next (raiseFault w c a s) := by
  simp [runCommand, h, hc]

/-- A command whose checks pass takes its effect. -/
theorem runCommand_runs (w : Word) (check : State → Option (Cause × Word)) (effect : State → State) (s : State)
    (h : s.faults.err = false) (hc : check s = none) : runCommand w check effect s = .next (effect s) := by
  simp [runCommand, h, hc]

/-- Everything a command can do: nothing under the lockout, else one fault, else its effect. -/
theorem runCommand_cases (w : Word) (check : State → Option (Cause × Word)) (effect : State → State) (s t : State)
    (h : runCommand w check effect s = .next t) :
    (s.faults.err = true ∧ t = s) ∨
      (s.faults.err = false ∧ ∃ c a, check s = some (c, a) ∧ t = raiseFault w c a s) ∨
      (s.faults.err = false ∧ check s = none ∧ t = effect s) := by
  cases he : s.faults.err with
  | true =>
    rw [runCommand_locked w check effect s he] at h
    exact Or.inl ⟨rfl, (Host.Outcome.next.inj h).symm⟩
  | false =>
    cases hc : check s with
    | none =>
      rw [runCommand_runs w check effect s he hc] at h
      exact Or.inr (Or.inr ⟨rfl, rfl, (Host.Outcome.next.inj h).symm⟩)
    | some f =>
      obtain ⟨c, a⟩ := f
      rw [runCommand_faults w check effect s c a he hc] at h
      exact Or.inr (Or.inl ⟨rfl, c, a, rfl, (Host.Outcome.next.inj h).symm⟩)

/-- A command always answers a next state (43_control.md R224). -/
theorem runCommand_completes (w : Word) (check : State → Option (Cause × Word)) (effect : State → State) (s : State) :
    ∃ t, runCommand w check effect s = .next t := by
  unfold runCommand
  split
  · exact ⟨_, rfl⟩
  · split <;> exact ⟨_, rfl⟩

/-! ### The commands, as runs of that frame -/

theorem exec_nop (s : State) : exec .nop s = runCommand (encode .nop) (fun _ => none) (fun t => t) s := rfl

theorem exec_init (rate delim : Byte) (s : State) :
    exec (.init rate delim) s = runCommand (encode (.init rate delim)) (fun _ => initCheck rate)
      (fun t => { t with sponge := startedSponge rate delim }) s := rfl

theorem exec_absorb (s : State) : exec .absorb s = runCommand (encode .absorb) absorbCheck absorbEffect s := rfl

theorem exec_finalize (s : State) :
    exec .finalize s = runCommand (encode .finalize) finalizeCheck
      (fun t => { t with sponge := finalizeContext t.sponge }) s := rfl

theorem exec_squeeze (s : State) : exec .squeeze s = runCommand (encode .squeeze) squeezeCheck squeezeEffect s := rfl

theorem exec_permute (s : State) : exec .permute s = runCommand (encode .permute) permuteCheck permuteEffect s := rfl

theorem exec_reset (s : State) : exec .reset s = .next (resetEngine s) := rfl

/-! ### DMA reads -/

@[simp] theorem dmaReadBytes_length (s : State) (a n : Nat) : (dmaReadBytes s a n).length = n := by
  induction n generalizing a with
  | zero => rfl
  | succ n ih => simp [dmaReadBytes, ih]

/-- Byte i of what the DMA reads from a is the byte at a + i (20_memory.md R63). -/
theorem dmaReadBytes_getElem (s : State) (a n i : Nat) (h : i < (dmaReadBytes s a n).length) :
    (dmaReadBytes s a n)[i] = dmaRead s (a + i) := by
  induction n generalizing a i with
  | zero => simp at h
  | succ n ih =>
    cases i with
    | zero => rfl
    | succ i =>
      simp only [dmaReadBytes, List.getElem_cons_succ]
      rw [ih (a + 1) i]
      congr 1
      omega

/-- Reading m + n bytes is reading m and then n more. -/
theorem dmaReadBytes_append (s : State) (a m n : Nat) :
    dmaReadBytes s a (m + n) = dmaReadBytes s a m ++ dmaReadBytes s (a + m) n := by
  induction m generalizing a with
  | zero => simp [dmaReadBytes]
  | succ m ih =>
    rw [show m + 1 + n = (m + n) + 1 by omega, dmaReadBytes, ih (a + 1), dmaReadBytes,
      show a + 1 + m = a + (m + 1) by omega]
    rfl

/-- Where nothing races and every host store has been made visible, the DMA reads host memory directly
(20_memory.md R71, R75). -/
theorem dmaRead_settled (s : State) (a : Nat) (h : unsettled s a = false) : dmaRead s a = s.mem.read a := by
  simp [dmaRead, h]

/-- A DMA read depends on memory, the overlap, the visibility and the serial number alone. -/
theorem dmaRead_congr (s t : State) (a : Nat) (hm : t.mem = s.mem) (ho : t.overlap = s.overlap)
    (hv : t.visibility = s.visibility) (hs : t.serial = s.serial) : dmaRead t a = dmaRead s a := by
  simp [dmaRead, unsettled, waiting, hm, ho, hv, hs]

theorem dmaReadBytes_congr (s t : State) (a n : Nat) (hm : t.mem = s.mem) (ho : t.overlap = s.overlap)
    (hv : t.visibility = s.visibility) (hs : t.serial = s.serial) : dmaReadBytes t a n = dmaReadBytes s a n := by
  induction n generalizing a with
  | zero => rfl
  | succ n ih => rw [dmaReadBytes, dmaReadBytes, dmaRead_congr s t a hm ho hv hs, ih (a + 1)]

/-- A byte is settled exactly where no racing access stores to it and no store to it is on its way. -/
theorem unsettled_eq_false (s : State) (a : Nat) :
    unsettled s a = false ↔
      (s.overlap.any fun acc => acc.storesTo a) = false ∧ a ∉ s.visibility.unfenced ∧ a ∉ s.visibility.uncleaned := by
  simp [unsettled, waiting]

/-- Settling races answers every racing load with one byte, in order, after what was already given. -/
theorem settleRaces_answers (s : State) (span : Option Span) (after : Memory) (index : Nat) (todo : List MemAccess)
    (t : State) :
    ∃ bytes : List Byte,
      (settleRaces s span after index todo t).answers = t.answers ++ bytes.map Answer.racedLoad ∧
        bytes.length = (loadedAddresses todo).length := by
  induction todo generalizing index t with
  | nil => exact ⟨[], by simp [settleRaces], rfl⟩
  | cons acc rest ih =>
    cases acc with
    | store addr v => exact ih _ _
    | load addr =>
      obtain ⟨bytes, h, hlen⟩ := ih (index + 1)
        { t with answers := t.answers ++ [.racedLoad (racedLoadByte s t span after index addr.toNat)] }
      refine ⟨racedLoadByte s t span after index addr.toNat :: bytes, by simp [settleRaces, h], ?_⟩
      simpa [loadedAddresses] using hlen

/-! ### Serving an interaction (43_control.md R225) -/

/-- With nothing pending a step keeps the state (60_exceptions.md R261). -/
theorem step_idle (s : State) (h : s.pending = []) : step s = .next s := by
  simp [step, serveFirst, h]

/-- A step serves the first pending interaction. -/
theorem step_serves (s : State) (e : BusEvent) (rest : List BusEvent) (h : s.pending = e :: rest) :
    step s = serve e (takeUp rest s) := by
  simp [step, serveFirst, h]

/-- An access inside a command's duration is settled only at bytes the span holds. -/
theorem spanHolds_none (a : Nat) : spanHolds none a = false := rfl

end Sys2Proof.Machine
end

