-- ==== Sys2Proof/Laws/PerInstr.lean ====
section
/-! SUPPORT. Statements about every command as syntax, one lemma per constructor: its word is legal, by the row of the
opcode map that bears its mnemonic (30_encoding.md R94). -/

namespace Sys2Proof.Laws.LegalWord

/-- The row of the opcode map with the command's mnemonic matches the command's word (30_encoding.md R94). -/
def Statement (i : Sys2Proof.Instr) : Prop :=
  ∃ r ∈ Sys2Proof.opcodeMap, r.mnemonic = i.mnemonic ∧ r.matchesWord (Sys2Proof.encode i) = true

theorem nop : Statement .nop := ⟨opcodeMap[0], by decide, rfl, by decide⟩

theorem init (rate delim : Sys2Proof.Byte) : Statement (.init rate delim) := by
  refine ⟨opcodeMap[1], by decide, rfl, ?_⟩
  simp only [opcodeMap, OpcodeRow.matchesWord, encode, List.getElem_cons_succ, List.getElem_cons_zero, beq_iff_eq]
  ext k hk
  simp only [BitVec.getElem_and, BitVec.getElem_append]
  interval_cases k <;> simp

theorem absorb : Statement .absorb := ⟨opcodeMap[2], by decide, rfl, by decide⟩

theorem finalize : Statement .finalize := ⟨opcodeMap[3], by decide, rfl, by decide⟩

theorem squeeze : Statement .squeeze := ⟨opcodeMap[4], by decide, rfl, by decide⟩

theorem permute : Statement .permute := ⟨opcodeMap[5], by decide, rfl, by decide⟩

theorem reset : Statement .reset := ⟨opcodeMap[6], by decide, rfl, by decide⟩

end Sys2Proof.Laws.LegalWord
end

