-- ==== Sys2Proof/Laws/Permutation.lean ====
section
/-! SUPPORT. The lane file: reading a lane of one built by lanesOfXY, and equality of lane files lane by lane. The steps
of the permutation are stated through these. -/

namespace Sys2Proof.Machine

/-- Lane i of a lane file built from its (x, y) function. -/
theorem lane_lanesOfXY (f : Nat → Nat → Word) (i : Nat) (h : i < 25) : lane (lanesOfXY f) i = f (i % 5) (i / 5) := by
  simp [lane, lanesOfXY, h]

/-- Lane (x, y) of a lane file built from its (x, y) function. -/
theorem laneAt_lanesOfXY (f : Nat → Nat → Word) (x y : Nat) : laneAt (lanesOfXY f) x y = f (x % 5) (y % 5) := by
  have hi : x % 5 + 5 * (y % 5) < 25 := by omega
  rw [laneAt, lane_lanesOfXY f _ hi]
  congr 1 <;> omega

/-- A lane's coordinates count mod 5 (00_scope.md R11). -/
theorem laneAt_mod (A : Lanes) (x y : Nat) : laneAt A (x % 5) (y % 5) = laneAt A x y := by
  simp [laneAt]

/-- Lane i is lane (i mod 5, i div 5) (10_state.md R21). -/
theorem lane_eq_laneAt (A : Lanes) (i : Nat) (h : i < 25) : lane A i = laneAt A (i % 5) (i / 5) := by
  unfold laneAt
  congr 1
  omega

/-- Lane i as an entry of the vector. -/
theorem lane_eq_getElem (A : Lanes) (i : Nat) (h : i < 25) : lane A i = A[i] := by
  simp [lane, h]

/-- A lane of a constant lane file. -/
theorem lane_replicate (v : Word) (i : Nat) (h : i < 25) : lane (Vector.replicate 25 v) i = v := by
  simp [lane, h]

/-- There is no lane past 24. -/
theorem lane_past (A : Lanes) (i : Nat) (h : 25 ≤ i) : lane A i = 0 := by
  simp [lane, Nat.not_lt.mpr h]

/-- Two lane files with the same 25 lanes are equal. -/
theorem lanes_ext (A B : Lanes) (h : ∀ i, i < 25 → lane A i = lane B i) : A = B := by
  ext i hi
  have := h i hi
  rw [lane_eq_getElem A i hi, lane_eq_getElem B i hi] at this
  rw [this]

/-- Two lane files with the same lanes (x, y) are equal. -/
theorem lanes_ext_xy (A B : Lanes) (h : ∀ x y, x < 5 → y < 5 → laneAt A x y = laneAt B x y) : A = B := by
  refine lanes_ext A B fun i hi => ?_
  rw [lane_eq_laneAt A i hi, lane_eq_laneAt B i hi]
  exact h _ _ (by omega) (by omega)

/-- A lane of a lane file with one lane replaced. -/
theorem lane_setIfInBounds (A : Lanes) (i j : Nat) (v : Word) (hj : j < 25) :
    lane (A.setIfInBounds i v) j = if i = j then v else lane A j := by
  rw [lane_eq_getElem _ j hj, lane_eq_getElem A j hj, Vector.getElem_setIfInBounds]

end Sys2Proof.Machine
end

