-- ==== Sys2Proof/Tests/Slice0.lean ====
section
/-! SUPPORT. Tests. Expected values come from spec/95_test_vectors.md or from the rule named; the memory convention is
that file's (Admit true exactly on 0x1000 up to 0x11000). At the end, a witness for the hypotheses of each statement. -/

namespace Sys2Proof.Tests

open Sys2Proof Sys2Proof.Machine

/-! ### Decoding: words written out from 30_encoding.md R90, R94 -/

theorem test_decode_nop : decode 0x0000000000000000#64 = .ok .nop := by decide

/-- R94's example: INIT with rate 136 (0x88) and delim 0x06. -/
theorem test_decode_init : decode 0x0000000000068801#64 = .ok (.init 136 0x06) := by decide

theorem test_decode_absorb : decode 0x0000000000000002#64 = .ok .absorb := by decide

theorem test_decode_finalize : decode 0x0000000000000003#64 = .ok .finalize := by decide

theorem test_decode_squeeze : decode 0x0000000000000004#64 = .ok .squeeze := by decide

theorem test_decode_permute : decode 0x0000000000000005#64 = .ok .permute := by decide

theorem test_decode_reset : decode 0x000000000000000F#64 = .ok .reset := by decide

/-- R242's examples, and V-I9. -/
theorem test_decode_illegal :
    decode 0x6#64 = .error .reservedOp ∧ decode 0x10#64 = .error .bitsAboveOp ∧
      decode 0x8802#64 = .error .bitsAboveOp ∧ decode 0x10F#64 = .error .bitsAboveOp ∧
      decode 0x100000002#64 = .error .bitsAboveOp ∧ decode 0x1068801#64 = .error .initReservedBits ∧
      decode 0x60011#64 = .error .initReservedBits := by decide

/-- R200's INIT word of SHA3-224. -/
theorem test_encode_init : encode (.init 144 0x06) = 0x0000000000069001#64 := by decide

theorem test_decodeTableWord : decodeTableWord 64 0x68801 = some (.init 136 0x06) ∧ decodeTableWord 64 0x6 = none := by
  decide

/-! ### Well-formedness: an ill-formed term for each check, refused -/

theorem test_legalWord_refuses_reserved_op : legalWord 0x6#64 = false := by decide

theorem test_legalWord_refuses_unused_field : legalWord 0x8802#64 = false := by decide

theorem test_legalWord_refuses_init_reserved_bit : legalWord 0x1068801#64 = false := by decide

theorem test_legalWord_accepts_init : legalWord 0x68801#64 = true := by decide

theorem test_wellFormed_refuses_rate_zero : (Instr.init 0 0x06).wellFormed = false := by decide

theorem test_wellFormed_refuses_rate_201 : (Instr.init 201 0x06).wellFormed = false := by decide

theorem test_wellFormed_accepts_rate_200 : (Instr.init 200 0x06).wellFormed = true := by decide

theorem test_memory_wf_refuses_unsorted : Memory.wf [(2, 1), (1, 1)] = false := by decide

theorem test_memory_wf_refuses_repeat : Memory.wf [(1, 1), (1, 2)] = false := by decide

theorem test_memory_wf_refuses_unwritten_value : Memory.wf [(1, 0)] = false := by decide

theorem test_memory_wf_refuses_address : Memory.wf [(2 ^ 64, 1)] = false := by decide

/-! ### States -/

/-- The platform of 95_test_vectors.md's conventions. -/
def vectorPlatform : Platform :=
  { Platform.initial with
    regions := [{ base := 0x1000, size := 0x10000, readable := true, writable := true }] }

/-- The start state of the vectors. -/
def ready : State := { State.reset with platform := vectorPlatform }

/-- After `init 136, 6`. -/
def started : State := { ready with sponge := startedSponge 136 0x06 }

/-- A context in phase FINALIZED whose lane (0, 0) is 0x0706050403020100. -/
def finalizedState : State :=
  { ready with sponge := { startedSponge 136 0x06 with
      phase := .finalized, lanes := (Vector.replicate 25 0).set 0 0x0706050403020100 } }

/-- A locked-out engine. -/
def locked : State := raiseFault 0x6 .illegalCommand 0 ready

/-- The register at an offset after an outcome. -/
def regAfter (o : Host.Outcome State Fault Refusal) (offset : Nat) : Option Word :=
  match o with
  | .next t => some (readRegister t offset)
  | .fault _ => none
  | .refused _ => none

/-- The memory byte at an address after an outcome. -/
def byteAfter (o : Host.Outcome State Fault Refusal) (a : Nat) : Option Byte :=
  match o with
  | .next t => some (t.mem.read a)
  | .fault _ => none
  | .refused _ => none

/-- The state byte S[k] after an outcome. -/
def stateByteAfter (o : Host.Outcome State Fault Refusal) (k : Nat) : Option Byte :=
  match o with
  | .next t => some (stateByte t.sponge.lanes k)
  | .fault _ => none
  | .refused _ => none

/-! ### The permutation's steps -/

/-- V-T2: bit 63 of lane 0 alone; the rotation wraps. -/
theorem test_theta_wraps :
    (theta ((Vector.replicate 25 0).set 0 0x8000000000000000)).toList =
      [0x8000000000000000, 0x8000000000000000, 0, 0, 1, 0, 0x8000000000000000, 0, 0, 1,
       0, 0x8000000000000000, 0, 0, 1, 0, 0x8000000000000000, 0, 0, 1,
       0, 0x8000000000000000, 0, 0, 1] := by decide +kernel

/-- V-RP1: bit 0 of lane 6 moves to lane 1, bit 44. -/
theorem test_rhoPi_moves_lane_6 : lane (rhoPi ((Vector.replicate 25 0).set 6 1)) 1 = 1#64 <<< 44 := by decide +kernel

/-- V-C2 (a): only A[2, 0] = 1; an in-place update would give lane 3 = 1. -/
theorem test_chi_reads_old_lanes :
    (chi ((Vector.replicate 25 0).set 2 1)).toList = [1, 0, 1] ++ List.replicate 22 0 := by decide +kernel

/-- V-K1: r[1, 0] = 1, r[0, 1] = 36, r[4, 4] = 14, r[2, 0] = 62, RC[11] and RC[23]. -/
theorem test_tables :
    rotationOffset 1 0 = 1 ∧ rotationOffset 0 1 = 36 ∧ rotationOffset 4 4 = 14 ∧ rotationOffset 2 0 = 62 ∧
      roundConstant 11 = 0x8000000A#64 ∧ roundConstant 23 = 0x8000000080008008#64 := by decide

/-! ### The byte view (10_state.md R21) -/

theorem test_stateByte_order :
    stateByte finalizedState.sponge.lanes 0 = 0x00 ∧ stateByte finalizedState.sponge.lanes 7 = 0x07 ∧
      lane (setStateByte finalizedState.sponge.lanes 7 0xFF) 0 = 0xFF06050403020100 := by decide +kernel

/-! ### Commands, one step each -/

/-- V-N1: every register is as it was; here STATUS. -/
theorem test_nop : regAfter (exec .nop started) 0x08 = some 0x1 := by decide +kernel

/-- V-I1: STATUS and RATE. -/
theorem test_init :
    regAfter (exec (.init 136 0x06) ready) 0x08 = some 0x1 ∧
      regAfter (exec (.init 136 0x06) ready) 0x10 = some 136 := by decide +kernel

/-- V-I5: rate 201. -/
theorem test_init_bad_rate :
    regAfter (exec (.init 201 0x06) ready) 0x08 = some 0x0204 ∧
      regAfter (exec (.init 201 0x06) ready) 0x48 = some 0x6C901 := by decide +kernel

/-- R161: two bytes 0xA1, 0xB2 at 0x1000 are XORed into S[0] and S[1]; POS becomes 2. -/
theorem test_absorb :
    let s := { started.withOperands 0x1000 0 2 with mem := [(0x1000, 0xA1), (0x1001, 0xB2)] }
    stateByteAfter (exec .absorb s) 1 = some 0xB2 ∧ regAfter (exec .absorb s) 0x20 = some 2 := by decide +kernel

/-- V-A8: MEM_FAULT at 0x11000. -/
theorem test_absorb_mem_fault :
    let s := started.withOperands 0x10FF0 0 0x20
    regAfter (exec .absorb s) 0x08 = some 0x0705 ∧ regAfter (exec .absorb s) 0x50 = some 0x11000 := by decide +kernel

/-- L1-2: after FINALIZE of the empty message with rate 136 and delim 0x06 the state begins a7 ff c6 f8. -/
theorem test_finalize_sha3_256_empty :
    (List.range 4).map (stateByteAfter (exec .finalize started)) = [some 0xA7, some 0xFF, some 0xC6, some 0xF8] := by
  decide +kernel

/-- V-F5: a second FINALIZE. -/
theorem test_finalize_twice : regAfter (exec .finalize finalizedState) 0x08 = some 0x0506 := by decide +kernel

/-- R165: three bytes from S[0] on go to 0x2000 on; STATUS becomes 3. -/
theorem test_squeeze :
    let s := finalizedState.withOperands 0 0x2000 3
    byteAfter (exec .squeeze s) 0x2002 = some 0x02 ∧ regAfter (exec .squeeze s) 0x08 = some 0x3 := by decide +kernel

/-- V-S7: RANGE_WRAP. -/
theorem test_squeeze_wraps :
    let s := finalizedState.withOperands 0 0xFFFFFFFFFFFFFFF0 0x11
    regAfter (exec .squeeze s) 0x08 = some 0x0806 ∧
      regAfter (exec .squeeze s) 0x50 = some 0xFFFFFFFFFFFFFFF0 := by decide +kernel

/-- V-PM1: the first two bytes after an in-place PERMUTE of 200 zero bytes. -/
theorem test_permute :
    let s := ready.withOperands 0x3000 0x3000 0
    byteAfter (exec .permute s) 0x3000 = some 0xE7 ∧ byteAfter (exec .permute s) 0x3001 = some 0xDD := by
  decide +kernel

/-- V-PM5, second part: SRC + 200 is 2^64 exactly, so DST's wrap is reported. -/
theorem test_permute_wraps :
    let s := ready.withOperands 0xFFFFFFFFFFFFFF38 0xFFFFFFFFFFFFFFF5 0
    regAfter (exec .permute s) 0x08 = some 0x0804 ∧
      regAfter (exec .permute s) 0x50 = some 0xFFFFFFFFFFFFFFF5 := by decide +kernel

/-- V-RS2: RESET under the error lockout. -/
theorem test_reset_unlocks :
    regAfter (exec .reset locked) 0x08 = some 0 ∧ regAfter (exec .reset locked) 0x48 = some 0 := by decide +kernel

/-- V-RS2: INIT under the error lockout is ignored. -/
theorem test_locked_init :
    regAfter (exec (.init 136 0x06) locked) 0x08 = some 0x0104 ∧
      regAfter (exec (.init 136 0x06) locked) 0x10 = some 0 := by decide +kernel

/-! ### Steps -/

/-- The step after withFetchWord runs the word: INIT of V-I1. -/
theorem test_step_init : regAfter (step (State.reset.withFetchWord 64 0x68801)) 0x08 = some 0x1 := by decide +kernel

/-- V-N2: W = 0x10 from reset. -/
theorem test_step_illegal : regAfter (step (State.reset.withFetchWord 64 0x10)) 0x08 = some 0x0104 := by decide +kernel

/-- V-RG1: a write to POS has no effect. -/
theorem test_step_read_only_write :
    regAfter (step { started with pending := [.write 0x20 8 5] }) 0x20 = some 0 := by decide +kernel

/-- R40: a 4-byte access has no step. -/
theorem test_step_narrow_access :
    step { started with pending := [.read 0x08 4] } = .fault .accessNotAdmitted := rfl

/-! ### Witnesses: states and operands that meet the hypotheses of the statements -/

/-- Every address from 0x1000 up to 0x11000 is admitted, for both kinds. -/
theorem vectorPlatform_admits (k : AccessKind) (a : Nat) (h1 : 0x1000 ≤ a) (h2 : a < 0x11000) :
    admits vectorPlatform k a = true := by
  have h3 : ¬ a < 256 := by omega
  have h4 : a < 0x1000 + 0x10000 := by omega
  cases k <;>
    simp [admits, vectorPlatform, Platform.initial, inRegisterBlock, inBlockAt, Region.covers, Region.allows, h1, h3, h4]

/-- And no other address is. -/
theorem vectorPlatform_admits_iff (k : AccessKind) (a : Nat) :
    admits vectorPlatform k a = true ↔ 0x1000 ≤ a ∧ a < 0x11000 := by
  constructor
  · intro h
    simp only [admits, vectorPlatform, Platform.initial, List.any_cons, List.any_nil, Bool.or_false, Region.covers,
      Bool.and_eq_true, decide_eq_true_eq] at h
    omega
  · exact fun h => vectorPlatform_admits k a h.1 h.2

/-- A buffer inside the admitted range passes. -/
theorem vectorPlatform_buffer (k : AccessKind) (base len : Nat) (h1 : 0x1000 ≤ base) (h2 : base + len ≤ 0x11000) :
    admittedBuffer vectorPlatform k base len :=
  Or.inr ⟨by omega, fun a ha hb => vectorPlatform_admits k a (by omega) (by omega)⟩

/-- AbsorbCompletes, AbsorbWithinTheWindow: 3 bytes at 0x1000, position 0. -/
theorem witness_absorb :
    let s := started.withOperands 0x1000 0 3
    s.faults.err = false ∧ s.sponge.phase = .absorbing ∧ s.sponge.inUse ∧
      admittedBuffer s.platform .read s.operands.src.toNat s.operands.len.toNat ∧
      s.sponge.pos.toNat + s.operands.len.toNat < s.sponge.rate.toNat :=
  ⟨rfl, rfl, by unfold Sponge.inUse; decide, vectorPlatform_buffer .read 0x1000 3 (by decide) (by decide), by decide⟩

/-- AbsorbCompletes' empty form, at an address that is not admitted (V-A6). -/
theorem witness_absorb_empty :
    let s := started.withOperands 0 0 0
    s.faults.err = false ∧ s.sponge.phase = .absorbing ∧ s.operands.len = 0 := ⟨rfl, rfl, rfl⟩

/-- AbsorbPermutesAtTheBoundary: 136 bytes at rate 136 (V-A4). -/
theorem witness_absorb_boundary :
    let s := started.withOperands 0x1000 0 136
    s.faults.err = false ∧ s.sponge.phase = .absorbing ∧ s.sponge.inUse ∧
      admittedBuffer s.platform .read s.operands.src.toNat s.operands.len.toNat ∧
      s.sponge.pos.toNat + s.operands.len.toNat = s.sponge.rate.toNat :=
  ⟨rfl, rfl, by unfold Sponge.inUse; decide, vectorPlatform_buffer .read 0x1000 136 (by decide) (by decide), by decide⟩

/-- An ABSORB of a buffer in the admitted range completes from a started context. -/
theorem absorb_started (src dst len : Word) (c : Sponge) (hc : c.phase = .absorbing) (h1 : 0x1000 ≤ src.toNat)
    (h2 : src.toNat + len.toNat ≤ 0x11000) :
    exec .absorb ({ started with sponge := c }.withOperands src dst len) =
      .next (absorbEffect ({ started with sponge := c }.withOperands src dst len)) := by
  have hb : rangeFault vectorPlatform [absorbSource { src := src, dst := dst, len := len }] = none := by
    rw [rangeFault_eq_none]
    simp only [List.mem_singleton, forall_eq]
    refine ⟨?_, fun a ha hb => vectorPlatform_admits _ a (by simpa [absorbSource] using le_trans h1 ha) ?_⟩
    · cases hw : (absorbSource { src := src, dst := dst, len := len }).wraps with
      | false => rfl
      | true =>
        have := (wraps_iff _).mp hw
        simp only [absorbSource] at this
        omega
    · simp only [absorbSource] at hb
      omega
  rw [exec_absorb]
  refine runCommand_runs _ _ _ _ rfl ?_
  simpa [absorbCheck, State.withOperands, hc, started, ready] using hb

/-- AbsorbChunksJoin: 1 byte at 0x1000, then 2 at 0x1001, against 3 at 0x1000 (program P2). -/
theorem witness_absorb_chunks :
    ∃ t₁ t₂ t : State,
      exec .absorb (started.withOperands 0x1000 0 1) = .next t₁ ∧ t₁.faults.err = false ∧
        exec .absorb (t₁.withOperands 0x1001 0 2) = .next t₂ ∧ t₂.faults.err = false ∧
        exec .absorb (started.withOperands 0x1000 0 3) = .next t ∧ t.faults.err = false ∧
        dmaReadBytes started 0x1000 3 = dmaReadBytes started 0x1000 1 ++ dmaReadBytes started 0x1001 2 :=
  ⟨_, _, _, absorb_started 0x1000 0 1 _ rfl (by decide) (by decide), rfl,
    absorb_started 0x1001 0 2 _ (by change (absorbBytes _ _).phase = _; rw [absorbBytes_phase]; rfl) (by decide)
      (by decide), rfl, absorb_started 0x1000 0 3 _ rfl (by decide) (by decide), rfl, dmaReadBytes_append started 0x1000 1 2⟩

/-- FinalizePadsAndPermutes: its three clauses, the first at POS = RATE − 1, where both XORs hit one byte. -/
theorem witness_finalize :
    (let s := { started with sponge := { started.sponge with pos := 135 } };
      s.faults.err = false ∧ s.sponge.phase = .absorbing ∧ s.sponge.inUse ∧
        s.sponge.pos.toNat = s.sponge.rate.toNat - 1) ∧
      (ready.faults.err = false ∧ ready.sponge.phase = .uninit) ∧
      (finalizedState.faults.err = false ∧ finalizedState.sponge.phase = .finalized) :=
  ⟨⟨rfl, rfl, by unfold Sponge.inUse; decide, by decide⟩, ⟨rfl, rfl⟩, ⟨rfl, rfl⟩⟩

/-- SqueezeCompletes, SqueezeWithinTheWindow: 135 bytes to 0x2000, the most that stays inside the window. -/
theorem witness_squeeze :
    let s := finalizedState.withOperands 0 0x2000 135
    s.faults.err = false ∧ (s.sponge.phase = .finalized ∨ s.sponge.phase = .squeezing) ∧ s.sponge.inUse ∧
      Memory.wf s.mem = true ∧ admittedBuffer s.platform .write s.operands.dst.toNat s.operands.len.toNat ∧
      s.sponge.pos.toNat + s.operands.len.toNat < s.sponge.rate.toNat :=
  ⟨rfl, Or.inl rfl, by unfold Sponge.inUse; decide, rfl,
    vectorPlatform_buffer .write 0x2000 135 (by decide) (by decide), by decide⟩

/-- SqueezePermutesAtTheBoundary: 136 bytes at rate 136. -/
theorem witness_squeeze_boundary :
    let s := finalizedState.withOperands 0 0x2000 136
    s.faults.err = false ∧ (s.sponge.phase = .finalized ∨ s.sponge.phase = .squeezing) ∧ s.sponge.inUse ∧
      Memory.wf s.mem = true ∧ admittedBuffer s.platform .write s.operands.dst.toNat s.operands.len.toNat ∧
      s.sponge.pos.toNat + s.operands.len.toNat = s.sponge.rate.toNat :=
  ⟨rfl, Or.inl rfl, by unfold Sponge.inUse; decide, rfl, vectorPlatform_buffer .write 0x2000 136 (by decide) (by decide),
    by decide⟩

/-- SqueezeCompletes' empty form (V-S1). -/
theorem witness_squeeze_empty :
    let s := finalizedState.withOperands 0 0x2000 0
    s.faults.err = false ∧ (s.sponge.phase = .finalized ∨ s.sponge.phase = .squeezing) ∧ s.operands.len = 0 :=
  ⟨rfl, Or.inl rfl, rfl⟩

/-- SqueezeStreams: 168 of 340 bytes (V-S3's lengths). -/
theorem witness_squeeze_streams :
    168 ≤ 340 ∧ 340 < 2 ^ 64 ∧ finalizedState.faults.err = false ∧ finalizedState.sponge.phase = .finalized ∧
      admittedBuffer finalizedState.platform .write 0x2000 340 :=
  ⟨by decide, by decide, rfl, rfl, vectorPlatform_buffer .write 0x2000 340 (by decide) (by decide)⟩

/-- A SQUEEZE of no bytes completes from a finalized context at any address. -/
theorem squeeze_nothing (s : State) (src dst : Word) (h : s.faults.err = false) (hp : s.sponge.phase = .finalized) :
    exec .squeeze (s.withOperands src dst 0) = .next (squeezeEffect (s.withOperands src dst 0)) := by
  have hb : rangeFault s.platform [squeezeDestination { src := src, dst := dst, len := 0 }] = none := by
    rw [rangeFault_eq_none]
    simp only [List.mem_singleton, forall_eq]
    exact ⟨by simp [Buffer.wraps, squeezeDestination], fun a ha hb => absurd hb (by simp [squeezeDestination] at *; omega)⟩
  rw [exec_squeeze]
  refine runCommand_runs _ _ _ _ h ?_
  simpa [squeezeCheck, State.withOperands, hp] using hb

/-- FINALIZE completes from a started context. -/
theorem finalize_absorbing (s : State) (h : s.faults.err = false) (hp : s.sponge.phase = .absorbing) :
    exec .finalize s = .next { s with sponge := finalizeContext s.sponge } := by
  rw [exec_finalize]
  exact runCommand_runs _ _ _ s h (by simp [finalizeCheck, hp])

/-- PermutationsAreCounted: an ABSORB, a SQUEEZE and a FINALIZE that complete, and a whole hash (of the empty message,
squeezing nothing). -/
theorem witness_counts :
    (∃ t, exec .absorb (started.withOperands 0x1000 0 3) = .next t ∧ t.faults.err = false ∧ started.sponge.inUse) ∧
      (∃ t, exec .squeeze (finalizedState.withOperands 0 0x2000 0) = .next t ∧ t.faults.err = false ∧
        finalizedState.sponge.inUse) ∧
      (∃ t, exec .finalize started = .next t ∧ t.faults.err = false) ∧
      ∃ t₁ t₂ t₃ t₄ : State,
        ready.faults.err = false ∧ exec (.init 136 0x06) ready = .next t₁ ∧
          exec .absorb (t₁.withOperands 0x1000 0 0) = .next t₂ ∧ exec .finalize t₂ = .next t₃ ∧
          exec .squeeze (t₃.withOperands 0x1000 0x2000 0) = .next t₄ ∧ t₄.faults.err = false :=
  ⟨⟨_, absorb_started 0x1000 0 3 _ rfl (by decide) (by decide), rfl, by unfold Sponge.inUse; decide⟩,
    ⟨_, squeeze_nothing finalizedState 0 0x2000 rfl rfl, rfl, by unfold Sponge.inUse; decide⟩,
    ⟨_, finalize_absorbing started rfl rfl, rfl⟩,
    ⟨started, _, _, _, rfl, rfl, absorb_started 0x1000 0 0 _ rfl (by decide) (by decide),
      finalize_absorbing _ rfl (by rw [absorbEffect_sponge, absorbBytes_phase]; rfl),
      squeeze_nothing _ 0x1000 0x2000 rfl (by rw [finalizeContext_phase]), rfl⟩⟩

/-- BoundaryInputsPermuteEagerly: rate 136, inputs of 136, 135 and 137 bytes; and rate 1, whose first two cases are
inputs of 1 and of 0 bytes. -/
theorem witness_boundary_inputs :
    (List.replicate 136 (0 : Byte)).length = (136 : Byte).toNat ∧
      (List.replicate 135 (0 : Byte)).length + 1 = (136 : Byte).toNat ∧
      (List.replicate 137 (0 : Byte)).length = (136 : Byte).toNat + 1 ∧ 2 ≤ (136 : Byte).toNat ∧
      1 ≤ (1 : Byte).toNat ∧ ([] : List Byte).length + 1 = (1 : Byte).toNat := by
  simp only [List.length_replicate, List.length_nil]
  decide

/-- OneShotHashesFromAnyContext: program P1, from a context another sequence left. -/
theorem witness_one_shot :
    let s := { finalizedState with pending := oneShot .sha3_256 0x1000 0 0x2000 0 }
    s.faults = FaultRegs.reset ∧ s.overlap = [] ∧ s.visibility = Visibility.settled ∧
      admittedBuffer s.platform .read 0x1000 0 ∧
      admittedBuffer s.platform .write 0x2000 (squeezeLength .sha3_256 0).toNat :=
  ⟨rfl, rfl, rfl, Or.inl rfl, vectorPlatform_buffer .write 0x2000 32 (by decide) (by decide)⟩

/-- PermuteCompletes: overlapping buffers at 0x3000 and 0x3008. -/
theorem witness_permute :
    let s := ready.withOperands 0x3000 0x3008 0
    s.faults.err = false ∧ Memory.wf s.mem = true ∧ admittedBuffer s.platform .read s.operands.src.toNat 200 ∧
      admittedBuffer s.platform .write s.operands.dst.toNat 200 :=
  ⟨rfl, rfl, vectorPlatform_buffer .read 0x3000 200 (by decide) (by decide),
    vectorPlatform_buffer .write 0x3008 200 (by decide) (by decide)⟩

/-- IllegalWordsFaultOrAreIgnored: an illegal word without and with the lockout, and illegal rates at both ends. -/
theorem witness_illegal :
    (∀ i, decode 0x6#64 ≠ .ok i) ∧ ready.faults.err = false ∧ locked.faults.err = true ∧
      (0 : Byte).toNat = 0 ∧ 200 < (201 : Byte).toNat := by
  refine ⟨fun i h => ?_, rfl, rfl, rfl, by decide⟩
  have : decode 0x6#64 = .error .reservedOp := by decide
  simp [this] at h

/-- FaultsArePrecise: W = 0x6 from reset (V-E1), and once more under the lockout; ResetCommandResetsTheEngine: a word
with OP = 0xF and another bit set (R242); PhaseTransitions: a word that decodes to no command. -/
theorem witness_fault :
    (∃ t, ready.faults.err = false ∧ acceptWord 0x6#64 ready = .next t ∧ t.faults.err = true) ∧
      (∃ t, locked.faults.err = true ∧ acceptWord 0x6#64 locked = .next t ∧ t.faults.err = true) ∧
      (0x10F : Word).toNat % 16 = 15 ∧ (0x10F : Word) ≠ 0xF :=
  ⟨⟨locked, rfl, rfl, rfl⟩, ⟨locked, rfl, rfl, rfl⟩, by decide, by decide⟩

/-- PhaseFaults: the three phases of its clauses. -/
theorem witness_phase_faults :
    ready.faults.err = false ∧ ready.sponge.phase = .uninit ∧ finalizedState.sponge.phase = .finalized ∧
      started.sponge.phase = .absorbing ∧ (∃ t, exec .absorb finalizedState = .next t) ∧
      (∃ t, exec .finalize finalizedState = .next t) ∧ ∃ t, exec .squeeze started = .next t :=
  ⟨rfl, rfl, rfl, rfl, ⟨_, rfl⟩, ⟨_, rfl⟩, ⟨_, rfl⟩⟩

/-- RangeWrapFaults: V-A9 for SRC, V-S7 for DST, and V-PM5 for PERMUTE, where SRC + 200 is 2^64 exactly in the last
clause. -/
theorem witness_range_wrap :
    (0 < (8 : Word).toNat ∧ 2 ^ 64 < (0xFFFFFFFFFFFFFFFC : Word).toNat + (8 : Word).toNat) ∧
      (0 < (0x11 : Word).toNat ∧ 2 ^ 64 < (0xFFFFFFFFFFFFFFF0 : Word).toNat + (0x11 : Word).toNat) ∧
      2 ^ 64 < (0xFFFFFFFFFFFFFF39 : Word).toNat + 200 ∧
      ((0xFFFFFFFFFFFFFF38 : Word).toNat + 200 ≤ 2 ^ 64 ∧ 2 ^ 64 < (0xFFFFFFFFFFFFFFF5 : Word).toNat + 200) := by
  decide

/-- MemFaultsAtTheLowestAddress, ABSORB: V-A8, whose lowest failing address is 0x11000. -/
theorem witness_mem_fault_absorb :
    let s := started.withOperands 0x10FF0 0 0x20
    s.faults.err = false ∧ s.sponge.phase = .absorbing ∧
      s.operands.src.toNat + s.operands.len.toNat ≤ 2 ^ 64 ∧ s.operands.src.toNat ≤ (0x11000 : Word).toNat ∧
      (0x11000 : Word).toNat < s.operands.src.toNat + s.operands.len.toNat ∧
      admits s.platform .read (0x11000 : Word).toNat = false ∧
      (∀ b, s.operands.src.toNat ≤ b → b < (0x11000 : Word).toNat → admits s.platform .read b = true) ∧
      (∀ a, admits s.platform .read a = true ↔ 0x1000 ≤ a ∧ a < 0x11000) ∧
      ∃ t, exec .absorb s = .next t :=
  ⟨rfl, rfl, by decide, by decide, by decide, by decide,
    fun b h1 h2 => vectorPlatform_admits .read b (le_trans (by decide) h1) h2,
    vectorPlatform_admits_iff .read, by rw [exec_absorb]; exact runCommand_completes _ _ _ _⟩

/-- MemFaultsAtTheLowestAddress, SQUEEZE: V-S8, a buffer that ends at the top of the DMA space. -/
theorem witness_mem_fault_squeeze :
    let s := finalizedState.withOperands 0 0xFFFFFFFFFFFFFFF0 0x10
    s.faults.err = false ∧ s.sponge.phase = .finalized ∧ s.operands.dst.toNat + s.operands.len.toNat ≤ 2 ^ 64 ∧
      (0xFFFFFFFFFFFFFFF0 : Word).toNat < s.operands.dst.toNat + s.operands.len.toNat ∧
      admits s.platform .write (0xFFFFFFFFFFFFFFF0 : Word).toNat = false ∧
      (∀ b, s.operands.dst.toNat ≤ b → b < (0xFFFFFFFFFFFFFFF0 : Word).toNat → admits s.platform .write b = true) :=
  ⟨rfl, rfl, by decide, by decide, by decide, fun b h1 h2 => absurd h2 (Nat.not_lt.mpr h1)⟩

/-- MemFaultsAtTheLowestAddress, PERMUTE: V-PM4 for SRC (0xFF8), V-PM3 for DST (0x11000). -/
theorem witness_mem_fault_permute :
    (let s := ready.withOperands 0xFF8 0x20000 0;
      s.operands.src.toNat + 200 ≤ 2 ^ 64 ∧ s.operands.dst.toNat + 200 ≤ 2 ^ 64 ∧
        admits s.platform .read (0xFF8 : Word).toNat = false ∧
        ∀ b, s.operands.src.toNat ≤ b → b < (0xFF8 : Word).toNat → admits s.platform .read b = true) ∧
      (let s := ready.withOperands 0x1000 0x10F40 0;
        (∀ b, s.operands.src.toNat ≤ b → b < s.operands.src.toNat + 200 → admits s.platform .read b = true) ∧
          (0x11000 : Word).toNat < s.operands.dst.toNat + 200 ∧
          admits s.platform .write (0x11000 : Word).toNat = false ∧
          ∀ b, s.operands.dst.toNat ≤ b → b < (0x11000 : Word).toNat → admits s.platform .write b = true) :=
  ⟨⟨by decide, by decide, by decide, fun b h1 h2 => absurd h2 (Nat.not_lt.mpr h1)⟩,
    fun b h1 h2 => vectorPlatform_admits .read b h1 (lt_trans h2 (by decide)), by decide, by decide,
    fun b h1 h2 => vectorPlatform_admits .write b (le_trans (by decide) h1) h2⟩

/-- LockoutIgnoresEveryWordButReset, OnlyResetClearsAFault: a locked engine, whose step serves each of the three
interactions that clear the fault and one that does not. -/
theorem witness_lockout :
    locked.faults.err = true ∧
      (∃ t, step { locked with pending := [.write 0x00 8 0xF#64] } = .next t ∧ t.faults = FaultRegs.reset) ∧
      (∃ t, step { locked with pending := [.hardwareReset] } = .next t ∧ t.faults = FaultRegs.reset) ∧
      (∃ t, step { locked with pending := [.commandCutByReset 0x2#64] } = .next t ∧ t.faults = FaultRegs.reset) ∧
      (∃ t, step { locked with pending := [.write 0x00 8 0x68801#64] } = .next t ∧ t.faults = locked.faults) ∧
      (0x08 % 8 = 0 ∧ ∃ t, step { locked with pending := [.read 0x08 8] } = .next t ∧ t.faults = locked.faults) ∧
      (∃ t, acceptWord 0xF#64 locked = .next t) ∧ ∃ t, exec .squeeze locked = .next t :=
  ⟨rfl, ⟨_, rfl, rfl⟩, ⟨_, rfl, rfl⟩, ⟨_, rfl, rfl⟩, ⟨_, rfl, rfl⟩, ⟨rfl, _, rfl, rfl⟩, ⟨_, rfl⟩, ⟨_, rfl⟩⟩

/-- InitStartsAContext: both ends of the legal rates, and both sides of them. -/
theorem witness_init :
    ready.faults.err = false ∧ (1 ≤ (1 : Byte).toNat ∧ (1 : Byte).toNat ≤ 200) ∧
      (1 ≤ (200 : Byte).toNat ∧ (200 : Byte).toNat ≤ 200) ∧ (0 : Byte).toNat = 0 ∧ 200 < (201 : Byte).toNat :=
  ⟨rfl, by decide, by decide, rfl, by decide⟩

/-- PhaseTransitions, CommandFrames, MemoryFrames, LaneFileStaysHidden: FINALIZE from a started context. -/
theorem witness_transitions :
    ∃ t, started.faults.err = false ∧ exec .finalize started = .next t ∧ t.faults.err = false :=
  ⟨_, rfl, finalize_absorbing started rfl rfl, rfl⟩

/-- MemoryFrames, PhaseTransitions with a fault: SQUEEZE and PERMUTE answer, and an ABSORB before INIT faults. -/
theorem witness_frames :
    (∃ t, exec .squeeze (finalizedState.withOperands 0 0x2000 0) = .next t) ∧
      (∃ t, exec .permute ready = .next t) ∧ ∃ t, exec .absorb ready = .next t ∧ t.faults.err = true :=
  ⟨⟨_, squeeze_nothing finalizedState 0 0x2000 rfl rfl⟩,
    by rw [exec_permute]; exact runCommand_completes _ _ _ _, ⟨_, rfl, rfl⟩⟩

/-- RegisterBlocksNeverAdmitted: both ends of this instance's block, and another instance's. -/
theorem witness_register_block :
    (0 : Word) = vectorPlatform.base ∧ (0 : Word).toNat ≤ 255 ∧ 255 < (0 : Word).toNat + 256 ∧
      (0x5000 : Word) ∈ ({ vectorPlatform with otherBases := [0x5000] } : Platform).otherBases := by decide

/-- StepKeepsTheInvariant: a started context with a listed byte has the invariant, and a step. -/
theorem witness_invariant :
    ({ started with mem := [(0x1000, 0x61)], pending := [.read 0x08 8] } : State).Inv ∧
      ∃ t, step { started with mem := [(0x1000, 0x61)], pending := [.read 0x08 8] } = .next t := by
  refine ⟨⟨⟨fun h => absurd h (by decide), fun _ => ?_⟩, ⟨fun _ => rfl, fun h => absurd h (by decide), fun h => ?_⟩, rfl⟩,
    ⟨_, rfl⟩⟩
  · unfold Sponge.inUse; decide
  · exact absurd rfl h

/-- StepRunsTheDecodedCommand, StepsServeInArrivalOrder, IdleEngineKeepsItsState: INIT's word next, on a quiet bus, and a
word that decodes to no command. -/
theorem witness_step :
    let s := { ready with pending := [.write 0x00 8 0x68801#64] }
    decode 0x68801#64 = .ok (.init 136 0x06) ∧ (∃ t, acceptWord 0x68801#64 (takeUp [] s) = .next t) ∧
      (∃ t, acceptWord 0x6#64 (takeUp [] s) = .next t) ∧ decode 0x6#64 = .error .reservedOp ∧ s.overlap = [] ∧
      s.visibility.unfenced = [] ∧ s.visibility.uncleaned = [] ∧ s.platform.hostOrdered = true ∧
      s.platform.dmaCoherent = true ∧ s.platform.postedWrites = false ∧ (∃ t, step s = .next t) ∧ ready.pending = [] :=
  ⟨rfl, ⟨_, rfl⟩, ⟨_, rfl⟩, rfl, rfl, rfl, rfl, rfl, rfl, rfl, ⟨_, rfl⟩, rfl⟩

/-- RegisterAccessRules, OperandRegistersWritable: a narrow, a misaligned and an outside access; the last reserved
offset; and operand writes under the lockout. -/
theorem witness_register_access :
    ¬(4 = 8 ∧ 0 % 8 = 0 ∧ 0 + 4 ≤ 256) ∧ ¬(8 = 8 ∧ 4 % 8 = 0 ∧ 4 + 8 ≤ 256) ∧ ¬(8 = 8 ∧ 256 % 8 = 0 ∧ 256 + 8 ≤ 256) ∧
      (0xF8 % 8 = 0 ∧ 0xF8 < 256) ∧
      ({ locked with pending := [.write 0x28 8 1, .write 0x30 8 2, .write 0x38 8 3] } : State).pending =
        .write 0x28 8 1 :: [.write 0x30 8 2, .write 0x38 8 3] :=
  ⟨by decide, by decide, by decide, by decide, rfl⟩

/-- HardwareResetAbandonsACommand: a SQUEEZE cut short while another agent loads one of its DST bytes and stores to
another, whose neighbour no other store touches. -/
theorem witness_cut_command :
    let s := { finalizedState.withOperands 0 0x2000 3 with
      pending := [.commandCutByReset 0x4#64], overlap := [.load 0x2000, .store 0x2001 7] }
    s.pending = .commandCutByReset 0x4#64 :: [] ∧ Memory.wf s.mem = true ∧ unsettled s 0x2000 = false ∧
      unsettled s 0x2001 = true ∧ ({ s with overlap := [] } : State).overlap = [] ∧
      ({ s with pending := [.hardwareReset] } : State).pending = .hardwareReset :: [] := ⟨rfl, rfl, rfl, rfl, rfl, rfl⟩

/-- RacesGiveAdmittedValues: a raced SRC byte and its neighbours, a racing load at both ends of a span beside a store
elsewhere, and a CMD write with both in progress. -/
theorem witness_races :
    let s := { started with
      pending := [.write 0x00 8 0#64], overlap := [MemAccess.store 0x1000 7, .load 0x2000, .load 0x201F] }
    MemAccess.store 0x1000 7 ∈ s.overlap ∧
      (∀ addr v, MemAccess.store addr v ∈ s.overlap → addr.toNat ≠ 0x1001) ∧ 0x1001 ∉ s.visibility.unfenced ∧
      0x1001 ∉ s.visibility.uncleaned ∧ 0x2000 ≤ (0x2000 : Word).toNat ∧ (0x201F : Word).toNat < 0x2000 + 32 ∧
      unsettled s 0x2000 = false ∧ unseen s 0x2000 = false ∧ unsettled s 0x201F = false ∧ unseen s 0x201F = false ∧
      loadedAddresses s.overlap = [0x2000, 0x201F] ∧ ∃ t, acceptWord 0#64 (takeUp [] s) = .next t := by
  refine ⟨by decide, fun addr v h => ?_, by decide, by decide, by decide, by decide, rfl, rfl, rfl, rfl, rfl, ⟨_, rfl⟩⟩
  simp only [List.mem_cons, List.not_mem_nil, or_false, MemAccess.store.injEq, reduceCtorEq] at h
  rw [h.1]
  decide

/-- RacingStoresNeedTheFence: a store at 0x2000 that races a NOP, on a platform that asks for a fence. -/
theorem witness_racing_store :
    let s := { ready with
      platform := { vectorPlatform with hostOrdered := false }
      pending := [.race (.store 0x2000 7), .write 0x00 8 0#64, .fence, .maintain] }
    inRegisterBlock s.platform (0x2000 : Word).toNat = false ∧ s.overlap = [] ∧
      spanHolds (wordSpan 0#64 s) (0x2000 : Word).toNat = false ∧ s.platform.hostOrdered = false ∧
      Memory.wf s.mem = true := ⟨rfl, rfl, rfl, rfl, rfl⟩

/-- HostStoresReachTheDma, HostLoadsSeeCompletedCommands: a store and a load at 0x2000 outside every register block; a
span of 32 bytes there that a host load waits for one thing alone to see, for each of the three; one that ends below it; and
a command that writes nothing there. -/
theorem witness_host_memory :
    let s := { ready with pending := [.memory (.store 0x2000 7), .fence, .maintain] }
    inRegisterBlock s.platform (0x2000 : Word).toNat = false ∧ Memory.wf s.mem = true ∧ s.overlap = [] ∧
      (0x2000 : Word).toNat ∉ s.visibility.unfenced ∧ (0x2000 : Word).toNat ∉ s.visibility.uncleaned ∧
      s.platform.hostOrdered = true ∧ s.platform.dmaCoherent = true ∧ (0x08 % 8 = 0 ∧ 0x08 < 256) ∧
      spanHolds (wordSpan 0x3#64 s) (0x2000 : Word).toNat = false ∧
      ((⟨0x2000, 32⟩ : Span).covers (0x2000 : Word).toNat = true ∧
        (⟨0x1FE0, 32⟩ : Span).covers (0x2000 : Word).toNat = false) ∧
      (let x : WrittenSpan := ⟨⟨0x2000, 32⟩, true, false, false⟩; x.posted = true ∧ x.unordered = false ∧ x.cached = false) ∧
      (let x : WrittenSpan := ⟨⟨0x2000, 32⟩, false, true, false⟩; x.unordered = true ∧ x.posted = false ∧ x.cached = false) ∧
      (let x : WrittenSpan := ⟨⟨0x2000, 32⟩, false, false, true⟩; x.cached = true ∧ x.posted = false ∧ x.unordered = false) :=
  ⟨rfl, rfl, rfl, by decide, by decide, rfl, rfl, by decide, rfl, by decide, by decide, by decide, by decide⟩

/-- 20_memory.md R72: on a platform that asks for a fence around register accesses, a fence before the load shows what a
completed command wrote. -/
theorem test_fence_orders_loads :
    (hostFence { ready with
      visibility := { Visibility.settled with written := [⟨⟨0x2000, 32⟩, false, true, false⟩] } }).visibility =
      Visibility.settled := rfl

/-- 70_reset_and_hazards.md R284: on a platform that posts CMD writes too, the register read comes first, and each command
has its own: a later posted command keeps hidden its own bytes alone. -/
theorem test_fence_before_register_read :
    let a : WrittenSpan := ⟨⟨0x2000, 32⟩, true, true, false⟩
    let b : WrittenSpan := ⟨⟨0x3000, 32⟩, true, true, false⟩
    let s := { ready with visibility := { Visibility.settled with written := [a] } }
    let u := hostRead 0x08 s
    let v := hostFence { u with visibility := { u.visibility with written := b :: u.visibility.written } }
    unseen (hostRead 0x08 (hostFence s)) 0x2000 = true ∧ unseen v 0x2000 = false ∧ unseen v 0x3000 = true :=
  ⟨rfl, rfl, rfl⟩

/-- 43_control.md R225: where DMA is not coherent, a host load of the one byte of DST the host has stored to since the
command waits for nothing, and its neighbours on both sides stay stale. -/
theorem test_store_then_load :
    let x : WrittenSpan := ⟨⟨0x2000, 3⟩, false, false, true⟩
    let s := hostStore 0x2001 5 { ready with visibility := { Visibility.settled with written := [x] } }
    s.visibility.written = [⟨⟨0x2000, 1⟩, false, false, true⟩, ⟨⟨0x2002, 1⟩, false, false, true⟩] ∧
      s.mem.read 0x2001 = 5 := ⟨rfl, rfl⟩

/-- ThetaXorsTwoColumnParities, ChiReadsTheInputRow: the zero state meets the hypotheses of their corner cases, and the
all-ones state those of Chi's other. -/
theorem witness_permutation_corners :
    (∀ x, x < 5 → (laneAt (Vector.replicate 25 0) x 0 ^^^ laneAt (Vector.replicate 25 0) x 1 ^^^
        laneAt (Vector.replicate 25 0) x 2 ^^^ laneAt (Vector.replicate 25 0) x 3 ^^^
        laneAt (Vector.replicate 25 0) x 4) = 0) ∧
      (∀ i, i < 25 → lane (Vector.replicate 25 0) i = 0) ∧
      (∀ i, i < 25 → lane (Vector.replicate 25 0xFFFFFFFFFFFFFFFF) i = 0xFFFFFFFFFFFFFFFF#64) := by
  refine ⟨fun x _ => ?_, fun i h => lane_replicate _ i h, fun i h => lane_replicate _ i h⟩
  have h : ∀ y, laneAt (Vector.replicate 25 0#64) x y = 0 := fun y => lane_replicate 0 _ (by omega)
  simp [h]

/-- StateBufferIsTheLaneFile: a buffer of 200 bytes. -/
theorem witness_state_buffer : (List.replicate 200 (0xA5 : Byte)).length = 200 := List.length_replicate

/-- StatusLayout: the worked example's registers. -/
theorem witness_status :
    started.sponge.phase = .absorbing ∧ started.faults.err = false ∧ started.faults.cause = .none ∧
      (∃ t, exec .absorb finalizedState = .next t ∧ t.sponge.phase = .finalized ∧ t.faults.err = true ∧
        t.faults.cause = .absorbAfterFinalize) :=
  ⟨rfl, rfl, rfl, ⟨_, rfl, rfl, rfl, rfl⟩⟩

/-- NopChangesNothing: a word with OP = 0 and another bit set (V-N2). -/
theorem witness_nop : (0x10 : Word).toNat % 16 = 0 ∧ (0x10 : Word) ≠ 0 := by decide

end Sys2Proof.Tests
end

section
/-! ROTL64 (00_scope.md R11): it is the library's rotation to the left, and what it does to each bit. -/

namespace Sys2Proof.Machine

/-- The shifts of ROTL64 are those of the library's rotation, so its lemmas apply. -/
theorem rotl64_eq_rotateLeft (v : Word) (n : Nat) : rotl64 v n = v.rotateLeft n := rfl

/-- The two cases of the library's rule, the bits that wrap around and the bits that do not, are one index mod 64. -/
theorem getLsbD_rotl64 (v : Word) (n : Nat) {i : Nat} (h : i < 64) :
    (rotl64 v n).getLsbD i = v.getLsbD ((i + 64 - n % 64) % 64) := by
  rw [rotl64_eq_rotateLeft, BitVec.getLsbD_rotateLeft]
  by_cases hwrap : i < n % 64
  · have hi : (i + 64 - n % 64) % 64 = 64 - n % 64 + i := by omega
    simp [hwrap, hi]
  · have hi : (i + 64 - n % 64) % 64 = i - n % 64 := by omega
    simp [hwrap, hi, h]

@[simp] theorem rotl64_zero (v : Word) : rotl64 v 0 = v := by
  refine BitVec.eq_of_getLsbD_eq fun i h => ?_
  have hi : (i + 64 - 0 % 64) % 64 = i := by omega
  rw [getLsbD_rotl64 v 0 h, hi]

/-- Settles O12, bit by bit from the library's rule for rotations. -/
theorem rotationMovesBits : Obligations.RotationMovesBits :=
  ⟨fun v n _ h => getLsbD_rotl64 v n h, rotl64_zero⟩

end Sys2Proof.Machine
end

section
/-! What a command does, said once for all seven (43_control.md R222): each is its checks and its effect, run in the
shared frame; and when the checks of each command pass. -/

namespace Sys2Proof.Machine

/-- The checks of a command, in the order of its rule; NOP and RESET have none. -/
def commandCheck (i : Instr) (s : State) : Option (Cause × Word) :=
  match i with
  | .nop => none
  | .init rate _ => initCheck rate
  | .absorb => absorbCheck s
  | .finalize => finalizeCheck s
  | .squeeze => squeezeCheck s
  | .permute => permuteCheck s
  | .reset => none

/-- What a command does where its checks pass. -/
def commandEffect (i : Instr) (s : State) : State :=
  match i with
  | .nop => s
  | .init rate delim => { s with sponge := startedSponge rate delim }
  | .absorb => absorbEffect s
  | .finalize => { s with sponge := finalizeContext s.sponge }
  | .squeeze => squeezeEffect s
  | .permute => permuteEffect s
  | .reset => resetEngine s

/-- Every command but RESET runs in the frame of 43_control.md R222. -/
theorem exec_eq_runCommand {i : Instr} (h : i ≠ .reset) (s : State) :
    exec i s = runCommand (encode i) (commandCheck i) (commandEffect i) s := by
  cases i with
  | reset => exact absurd rfl h
  | nop | init | absorb | finalize | squeeze | permute => rfl

theorem exec_locked {i : Instr} (hi : i ≠ .reset) {s : State} (h : s.faults.err = true) : exec i s = .next s := by
  rw [exec_eq_runCommand hi, runCommand_locked _ _ _ _ h]

theorem exec_faults {i : Instr} {s : State} {c : Cause} {a : Word} (h : s.faults.err = false)
    (hc : commandCheck i s = some (c, a)) : exec i s = .next (raiseFault (encode i) c a s) := by
  have hi : i ≠ .reset := by rintro rfl; simp [commandCheck] at hc
  rw [exec_eq_runCommand hi, runCommand_faults _ _ _ _ c a h hc]

theorem exec_runs {i : Instr} {s : State} (h : s.faults.err = false ∨ i = .reset) (hc : commandCheck i s = none) :
    exec i s = .next (commandEffect i s) := by
  by_cases hi : i = .reset
  · rw [hi]; rfl
  · rw [exec_eq_runCommand hi, runCommand_runs _ _ _ _ (h.resolve_right hi) hc]

/-- Everything a command can do: nothing under the lockout unless it is RESET, else one fault, else its effect. -/
theorem exec_cases {i : Instr} {s t : State} (h : exec i s = .next t) :
    (s.faults.err = true ∧ i ≠ .reset ∧ t = s) ∨
      (s.faults.err = false ∧ i ≠ .reset ∧
        ∃ c a, commandCheck i s = some (c, a) ∧ t = raiseFault (encode i) c a s) ∨
      ((s.faults.err = false ∨ i = .reset) ∧ commandCheck i s = none ∧ t = commandEffect i s) := by
  by_cases hi : i = .reset
  · subst hi
    exact .inr (.inr ⟨.inr rfl, rfl, (Host.Outcome.next.inj h).symm⟩)
  · rw [exec_eq_runCommand hi] at h
    rcases runCommand_cases _ _ _ _ _ h with ⟨he, ht⟩ | ⟨he, hfault⟩ | ⟨he, hc, ht⟩
    · exact .inl ⟨he, hi, ht⟩
    · exact .inr (.inl ⟨he, hi, hfault⟩)
    · exact .inr (.inr ⟨.inl he, hc, ht⟩)

/-- Everything the acceptance of a word can do: its command where it decodes, else ILLEGAL_COMMAND, which the lockout
ignores. -/
theorem acceptWord_cases {w : Word} {s t : State} (h : acceptWord w s = .next t) :
    (∃ i, decode w = .ok i ∧ exec i s = .next t) ∨
      ((∀ i, decode w ≠ .ok i) ∧ (t = s ∨ t = raiseFault w .illegalCommand 0 s)) := by
  unfold acceptWord at h
  split at h
  · next i hd => exact .inl ⟨i, hd, h⟩
  · next e hd =>
    refine .inr ⟨by simp [hd], ?_⟩
    rcases runCommand_cases _ _ _ _ _ h with ⟨-, rfl⟩ | ⟨-, c, a, hf, rfl⟩ | ⟨-, hn, -⟩
    · exact .inl rfl
    · cases hf; exact .inr rfl
    · cases hn

/-! ### When the checks pass, and what they answer otherwise -/

theorem initCheck_eq_none (rate : Byte) : initCheck rate = none ↔ 1 ≤ rate.toNat ∧ rate.toNat ≤ 200 := by
  unfold initCheck
  split
  · simp; omega
  · simp; omega

theorem absorbCheck_eq_none (s : State) :
    absorbCheck s = none ↔ s.sponge.phase = .absorbing ∧ rangeFault s.platform [absorbSource s.operands] = none := by
  cases hp : s.sponge.phase <;> simp [absorbCheck, hp]

theorem finalizeCheck_eq_none (s : State) : finalizeCheck s = none ↔ s.sponge.phase = .absorbing := by
  cases hp : s.sponge.phase <;> simp [finalizeCheck, hp]

theorem squeezeCheck_eq_none (s : State) :
    squeezeCheck s = none ↔ (s.sponge.phase = .finalized ∨ s.sponge.phase = .squeezing) ∧
      rangeFault s.platform [squeezeDestination s.operands] = none := by
  cases hp : s.sponge.phase <;> simp [squeezeCheck, hp]

/-- A buffer whose range checks pass is empty or ends inside the DMA space. -/
theorem rangeFault_none_fits {p : Platform} {bs : List Buffer} (h : rangeFault p bs = none) {b : Buffer} (hb : b ∈ bs) :
    b.len = 0 ∨ b.base.toNat + b.len ≤ Config.dmaSpace := by
  have hw : b.wraps = false := ((rangeFault_eq_none p bs).mp h).1 b hb
  simp only [Buffer.wraps, Bool.and_eq_false_iff, decide_eq_false_iff_not] at hw
  omega

/-- The range checks raise one of two causes (20_memory.md R67). -/
theorem rangeFault_cause {p : Platform} {bs : List Buffer} {c : Cause} {a : Word} (h : rangeFault p bs = some (c, a)) :
    c = .memFault ∨ c = .rangeWrap := by
  rcases rangeFault_cases p bs with ⟨hn, -⟩ | ⟨b, -, hr⟩ | ⟨-, f, hf, hr⟩
  · simp [hn] at h
  · rw [hr] at h; cases h; exact .inr rfl
  · rw [hr] at h; cases h
    obtain ⟨b, -, hb⟩ := List.exists_of_findSome?_eq_some hf
    unfold admissionFault at hb
    split at hb
    · cases hb; exact .inl rfl
    · cases hb

/-- What a check may raise: a cause that is not NONE, with an address only where the range checks raise it
(60_exceptions.md R240, R241). -/
def IsRaised (c : Cause) (a : Word) : Prop := c ≠ .none ∧ (a ≠ 0 → c = .memFault ∨ c = .rangeWrap)

theorem isRaised_of_rangeFault {p : Platform} {bs : List Buffer} {c : Cause} {a : Word}
    (h : rangeFault p bs = some (c, a)) : IsRaised c a := by
  have hc := rangeFault_cause h
  exact ⟨by rintro rfl; simp at hc, fun _ => hc⟩

/-- A check that raises a cause without an address, or else goes on to the next check. -/
theorem isRaised_of_ite {p : Prop} [Decidable p] {d c : Cause} {a : Word} {next : Option (Cause × Word)}
    (h : (if p then some (d, 0) else next) = some (c, a)) (hd : d ≠ .none)
    (hnext : next = some (c, a) → IsRaised c a) : IsRaised c a := by
  split at h
  · cases h
    exact ⟨hd, fun ha => absurd rfl ha⟩
  · exact hnext h

theorem commandCheck_isRaised {i : Instr} {s : State} {c : Cause} {a : Word} (h : commandCheck i s = some (c, a)) :
    IsRaised c a := by
  cases i with
  | nop | reset => cases h
  | init rate delim => exact isRaised_of_ite h (by decide) (by simp)
  | absorb => exact isRaised_of_ite h (by decide) fun h => isRaised_of_ite h (by decide) isRaised_of_rangeFault
  | finalize => exact isRaised_of_ite h (by decide) fun h => isRaised_of_ite h (by decide) (by simp)
  | squeeze => exact isRaised_of_ite h (by decide) fun h => isRaised_of_ite h (by decide) isRaised_of_rangeFault
  | permute => exact isRaised_of_rangeFault h

end Sys2Proof.Machine
end

section
/-! The machine's invariant (10_state.md R24, R25, R26, R29, R30, R31, and canonical memory): at reset, and through every
command, every interaction and so every step. -/

namespace Sys2Proof.Machine

/-! ### The sponge context -/

theorem advance_pos (c : Sponge) : (advance c).pos = if c.pos + 1 = c.rate then 0 else c.pos + 1 := by
  unfold advance
  split <;> rfl

/-- POS stays below RATE: the byte that fills the window sends it back to 0 (41_sponge.md R167). -/
theorem inUse_advance {c : Sponge} (h : c.inUse) : (advance c).inUse := by
  obtain ⟨hlo, hhi, hpos⟩ := h
  rw [Sponge.inUse, advance_rate, advance_pos]
  refine ⟨hlo, hhi, ?_⟩
  split
  · exact hlo
  · next hne =>
    have hsucc : (c.pos + 1).toNat = c.pos.toNat + 1 := by simp; omega
    have hne' : (c.pos + 1).toNat ≠ c.rate.toNat := fun he => hne (BitVec.eq_of_toNat_eq he)
    omega

theorem inUse_absorbBytes {c : Sponge} (h : c.inUse) (vs : List Byte) : (absorbBytes c vs).inUse := by
  induction vs generalizing c with
  | nil => exact h
  | cons v vs ih =>
    rw [absorbBytes_cons]
    exact ih (inUse_advance (c := { c with lanes := xorStateByte c.lanes c.pos.toNat v }) h)

theorem inUse_squeezeContext {c : Sponge} (h : c.inUse) (n : Nat) : (squeezeContext n c).inUse := by
  induction n generalizing c with
  | zero => exact h
  | succ n ih => exact ih (inUse_advance h)

theorem inUse_finalizeContext {c : Sponge} (h : c.inUse) : (finalizeContext c).inUse := by
  obtain ⟨hlo, hhi, -⟩ := h
  rw [Sponge.inUse, finalizeContext_rate, finalizeContext_pos]
  exact ⟨hlo, hhi, hlo⟩

theorem Sponge.inUse.consistent {c : Sponge} (h : c.inUse) (hp : c.phase ≠ .uninit) : c.consistent :=
  ⟨fun hu => absurd hu hp, fun _ => h⟩

theorem Sponge.reset_consistent : Sponge.reset.consistent := ⟨fun _ => rfl, fun h => absurd rfl h⟩

/-- A command whose checks pass keeps the context's part of the invariant. -/
theorem commandEffect_sponge_consistent {i : Instr} {s : State} (h : s.sponge.consistent)
    (hc : commandCheck i s = none) : (commandEffect i s).sponge.consistent := by
  have huse := h.2
  cases i with
  | nop => exact h
  | init rate delim =>
    obtain ⟨hlo, hhi⟩ := (initCheck_eq_none rate).mp hc
    exact Sponge.inUse.consistent ⟨hlo, hhi, hlo⟩ (by simp [commandEffect])
  | absorb =>
    obtain ⟨hp, -⟩ := (absorbCheck_eq_none s).mp hc
    exact (inUse_absorbBytes (huse (by simp [hp])) _).consistent (by simp [hp])
  | finalize =>
    have hp := (finalizeCheck_eq_none s).mp hc
    exact (inUse_finalizeContext (huse (by simp [hp]))).consistent (by simp)
  | squeeze =>
    obtain ⟨hp, -⟩ := (squeezeCheck_eq_none s).mp hc
    have hu : s.sponge.phase ≠ .uninit := by rcases hp with hp | hp <;> simp [hp]
    exact Sponge.inUse.consistent (inUse_squeezeContext (huse hu) _) (by simp [commandEffect])
  | permute => simpa [commandEffect] using h
  | reset => exact Sponge.reset_consistent

/-! ### The fault registers -/

theorem FaultRegs.reset_consistent : FaultRegs.reset.consistent :=
  by
  simp [FaultRegs.consistent, FaultRegs.reset]

theorem raiseFault_faults_consistent (w : Word) {c : Cause} {a : Word} (s : State) (h : IsRaised c a) :
    (raiseFault w c a s).faults.consistent :=
  ⟨fun he => by simp at he, fun _ => h.1, h.2⟩

theorem commandEffect_faults (i : Instr) (s : State) :
    (commandEffect i s).faults = if i = .reset then FaultRegs.reset else s.faults := by
  cases i <;> simp [commandEffect]

theorem commandEffect_faults_consistent {i : Instr} {s : State} (h : s.faults.consistent) :
    (commandEffect i s).faults.consistent := by
  rw [commandEffect_faults]
  split
  · exact FaultRegs.reset_consistent
  · exact h

/-! ### Memory -/

@[simp] theorem bytesOfLanes_length (A : Lanes) : (bytesOfLanes A).length = 200 := by simp [bytesOfLanes]

/-- The DST buffer of PERMUTE ends inside the DMA space where PERMUTE's checks pass. -/
theorem permuteCheck_none_fits {s : State} (h : permuteCheck s = none) :
    s.operands.dst.toNat + 200 ≤ Config.dmaSpace := by
  have := rangeFault_none_fits h (b := permuteDestination s.operands) (by simp)
  simpa [permuteDestination] using this

/-- The DST buffer of SQUEEZE is empty or ends inside the DMA space where SQUEEZE's checks pass. -/
theorem squeezeCheck_none_fits {s : State} (h : squeezeCheck s = none) :
    s.operands.len.toNat = 0 ∨ s.operands.dst.toNat + s.operands.len.toNat ≤ Config.dmaSpace :=
  rangeFault_none_fits ((squeezeCheck_eq_none s).mp h).2 (b := squeezeDestination s.operands) (by simp)

theorem commandEffect_mem_wf {i : Instr} {s : State} (h : s.mem.wf = true) (hc : commandCheck i s = none) :
    (commandEffect i s).mem.wf = true := by
  cases i with
  | nop | init | absorb | finalize | reset => simpa [commandEffect] using h
  | squeeze =>
    rw [commandEffect, squeezeEffect_mem]
    refine Memory.wf_writeBytes _ _ _ h ?_
    rw [← List.length_eq_zero_iff, squeezeOutput_length]
    exact squeezeCheck_none_fits hc
  | permute =>
    rw [commandEffect, permuteEffect_mem]
    refine Memory.wf_writeBytes _ _ _ h (.inr ?_)
    rw [bytesOfLanes_length]
    exact permuteCheck_none_fits hc

/-- The span, where there is one, is empty or ends inside the DMA space. -/
def SpanFits (span : Option Span) : Prop := ∀ p, span = some p → p.len = 0 ∨ p.base + p.len ≤ Config.dmaSpace

theorem spanFits_none : SpanFits none := fun _ h => by cases h

theorem SpanFits.lt_of_holds {span : Option Span} (h : SpanFits span) {a : Nat} (ha : spanHolds span a = true) :
    a < Config.dmaSpace := by
  cases span with
  | none => cases ha
  | some p =>
    have hfits := h p rfl
    simp only [spanHolds, Span.covers, Bool.and_eq_true, decide_eq_true_eq] at ha
    omega

/-- A span that is written only where the command runs. -/
theorem spanFits_of_ite {b : Bool} {p : Span} (h : b = false → p.len = 0 ∨ p.base + p.len ≤ Config.dmaSpace) :
    SpanFits (if b then none else some p) := by
  cases b with
  | true => exact spanFits_none
  | false => rintro q ⟨⟩; exact h rfl

/-- A command writes inside the DMA space alone (20_memory.md R67). -/
theorem writtenSpan_fits (i : Instr) (s : State) : SpanFits (writtenSpan i s) := by
  cases i with
  | nop | init | absorb | finalize | reset => exact spanFits_none
  | squeeze => exact spanFits_of_ite fun h => squeezeCheck_none_fits (by simpa using (Bool.or_eq_false_iff.mp h).2)
  | permute => exact spanFits_of_ite fun h => .inr (permuteCheck_none_fits (by simpa using (Bool.or_eq_false_iff.mp h).2))

theorem wordSpan_fits (w : Word) (s : State) : SpanFits (wordSpan w s) := by
  unfold wordSpan
  split
  · exact writtenSpan_fits _ s
  · exact spanFits_none

theorem settleOverlap_mem_wf {span : Option Span} (hs : SpanFits span) (s : State) {t : State} (h : t.mem.wf = true) :
    (settleOverlap span s t).mem.wf = true :=
  Memory.wf_settleRaces _ _ _ _ _ _ (Memory.wf_landLate _ _ _ _ h fun _ ha => hs.lt_of_holds ha)

theorem partlyWritten_wf (serial : Nat) {span : Option Span} (hs : SpanFits span) {before : Memory} (after : Memory)
    (h : before.wf = true) : (partlyWritten serial span before after).wf = true := by
  cases span with
  | none => exact h
  | some p => exact Memory.wf_landSome _ _ _ _ _ h (hs p rfl)

/-! ### Commands -/

theorem inv_raiseFault {s : State} (h : s.Inv) (w : Word) {c : Cause} {a : Word} (hr : IsRaised c a) :
    (raiseFault w c a s).Inv := by
  obtain ⟨hsponge, -, hmem⟩ := h
  exact ⟨hsponge, raiseFault_faults_consistent w s hr, hmem⟩

/-- RESET and hardware reset establish the invariant whatever the engine's registers held. -/
theorem inv_resetEngine {s : State} (h : s.mem.wf = true) : (resetEngine s).Inv :=
  ⟨Sponge.reset_consistent, FaultRegs.reset_consistent, h⟩

theorem inv_exec {i : Instr} {s t : State} (h : s.Inv) (he : exec i s = .next t) : t.Inv := by
  rcases exec_cases he with ⟨-, -, rfl⟩ | ⟨-, -, c, a, hc, rfl⟩ | ⟨-, hc, rfl⟩
  · exact h
  · exact inv_raiseFault h _ (commandCheck_isRaised hc)
  · obtain ⟨hsponge, hfaults, hmem⟩ := h
    exact ⟨commandEffect_sponge_consistent hsponge hc, commandEffect_faults_consistent hfaults,
      commandEffect_mem_wf hmem hc⟩

theorem inv_acceptWord {w : Word} {s t : State} (h : s.Inv) (ha : acceptWord w s = .next t) : t.Inv := by
  rcases acceptWord_cases ha with ⟨i, -, he⟩ | ⟨-, rfl | rfl⟩
  · exact inv_exec h he
  · exact h
  · exact inv_raiseFault h w (by simp [IsRaised])

theorem inv_commandWrite {w : Word} {s t : State} (h : s.Inv) (hw : commandWrite w s = .next t) : t.Inv := by
  unfold commandWrite at hw
  split at hw
  · next u hu =>
    cases hw
    obtain ⟨hsponge, hfaults, hmem⟩ := inv_acceptWord h hu
    refine ⟨by simpa using hsponge, by simpa using hfaults, ?_⟩
    rw [completeCommand_mem]
    exact settleOverlap_mem_wf (wordSpan_fits w s) s hmem
  · cases hw
  · cases hw

theorem inv_cutCommand {w : Word} {s t : State} (h : s.Inv) (hw : cutCommand w s = .next t) : t.Inv := by
  have hfits := wordSpan_fits w s
  obtain ⟨-, -, hmem⟩ := h
  unfold cutCommand at hw
  split at hw
  · cases hw
    refine inv_resetEngine ?_
    rw [markWritten_mem]
    exact settleOverlap_mem_wf hfits s (partlyWritten_wf _ hfits _ hmem)
  · cases hw
  · cases hw

/-! ### Every interaction -/

/-- The invariant speaks of the context, the fault registers and memory alone. -/
theorem State.Inv.congr {s t : State} (h : s.Inv) (hsponge : t.sponge = s.sponge) (hfaults : t.faults = s.faults)
    (hmem : t.mem = s.mem) : t.Inv := by
  unfold State.Inv
  rw [hsponge, hfaults, hmem]
  exact h

theorem inv_registerWrite {offset width : Nat} {v : Word} {s t : State} (h : s.Inv)
    (hw : registerWrite offset width v s = .next t) : t.Inv := by
  unfold registerWrite at hw
  split at hw
  · split at hw
    · exact inv_commandWrite h hw
    · cases hw
      exact h.congr (by simp) (by simp) (by simp)
  · cases hw

theorem inv_memoryAccess {acc : MemAccess} {s t : State} (h : s.Inv) (ha : memoryAccess acc s = .next t) : t.Inv := by
  unfold memoryAccess at ha
  split at ha
  · cases ha
  · cases acc with
    | store addr v =>
      cases ha
      obtain ⟨hsponge, hfaults, hmem⟩ := h
      exact ⟨hsponge, hfaults, Memory.wf_write _ _ v hmem addr.isLt⟩
    | load addr => cases ha; exact h

theorem inv_serve {e : BusEvent} {s t : State} (h : s.Inv) (hs : serve e s = .next t) : t.Inv := by
  cases e with
  | write offset width v => exact inv_registerWrite h hs
  | read offset width =>
    simp only [serve, registerRead] at hs
    split at hs
    · cases hs; exact h
    · cases hs
  | memory acc => exact inv_memoryAccess h hs
  | race acc =>
    simp only [serve, raceAccess] at hs
    split at hs
    · cases hs
    · cases hs; exact h
  | fence | maintain | configureAdmit => cases hs; exact h
  | hardwareReset => cases hs; exact inv_resetEngine h.2.2
  | commandCutByReset w => exact inv_cutCommand h hs

/-- Settles O50: an idle step keeps the state, and any other serves one interaction. -/
theorem stepKeepsTheInvariant : Obligations.StepKeepsTheInvariant := by
  intro s t h hstep
  cases hp : s.pending with
  | nil =>
    rw [step_idle s hp] at hstep
    cases hstep
    exact h
  | cons e rest =>
    rw [step_serves s e rest hp] at hstep
    exact inv_serve (s := takeUp rest s) h hstep

/-- Settles O51: each part of the invariant is its fact about reset. -/
theorem resetHasTheInvariant : Obligations.ResetHasTheInvariant :=
  ⟨Sponge.reset_consistent, FaultRegs.reset_consistent, Memory.wf_reset⟩

end Sys2Proof.Machine
end

section
/-! What the commands leave alone, how they move the phase (10_state.md R28), and that the lane file stays hidden
(10_state.md R23). -/

namespace Sys2Proof.Machine

/-! ### Frames -/

/-- What no command changes: the platform, the bus and the host side. -/
structure SameSurroundings (s t : State) : Prop where
  platform : t.platform = s.platform
  pending : t.pending = s.pending
  overlap : t.overlap = s.overlap
  visibility : t.visibility = s.visibility
  answers : t.answers = s.answers
  serial : t.serial = s.serial

theorem commandEffect_sameSurroundings (i : Instr) (s : State) : SameSurroundings s (commandEffect i s) := by
  cases i <;> constructor <;> simp [commandEffect]

theorem commandEffect_operands {i : Instr} (h : i ≠ .reset) (s : State) :
    (commandEffect i s).operands = s.operands := by
  cases i with
  | reset => exact absurd rfl h
  | nop | init | absorb | finalize | squeeze | permute => simp [commandEffect]

/-- RATE and DELIM are set by INIT and cleared by RESET (10_state.md R24, R25). -/
theorem commandEffect_rate_delim {i : Instr} (hr : i ≠ .reset) (hi : ∀ rate delim, i ≠ .init rate delim) (s : State) :
    (commandEffect i s).sponge.rate = s.sponge.rate ∧ (commandEffect i s).sponge.delim = s.sponge.delim := by
  cases i with
  | reset => exact absurd rfl hr
  | init rate delim => exact absurd rfl (hi rate delim)
  | nop | absorb | finalize | squeeze | permute => simp [commandEffect]

theorem commandEffect_sponge {i : Instr} (h : i = .nop ∨ i = .permute) (s : State) :
    (commandEffect i s).sponge = s.sponge := by
  rcases h with rfl | rfl <;> simp [commandEffect]

theorem commandEffect_mem {i : Instr} (hs : i ≠ .squeeze) (hp : i ≠ .permute) (s : State) :
    (commandEffect i s).mem = s.mem := by
  cases i with
  | squeeze => exact absurd rfl hs
  | permute => exact absurd rfl hp
  | nop | init | absorb | finalize | reset => simp [commandEffect]

/-- Settles O46: a command keeps the state, changes the fault registers alone, or takes its effect, whose frame is known. -/
theorem commandFrames : Obligations.CommandFrames := by
  intro i s t h
  rcases exec_cases h with ⟨-, -, rfl⟩ | ⟨-, -, c, a, -, rfl⟩ | ⟨-, -, rfl⟩
  · simp
  · simp
  · obtain ⟨hplat, hpend, hover, hvis, hans, hser⟩ := commandEffect_sameSurroundings i s
    exact ⟨hplat, hpend, hover, hvis, hans, hser, fun hr => commandEffect_operands hr s,
      fun hr hi => commandEffect_rate_delim hr hi s, fun hi => commandEffect_sponge hi s,
      fun hs hp => commandEffect_mem hs hp s⟩

/-! ### The phase -/

/-- The phase a command that takes effect found and the one it leaves (the table of 10_state.md R28). -/
def PhaseMove (i : Instr) (before after : Phase) : Prop :=
  match i with
  | .nop => after = before
  | .init _ _ => after = .absorbing
  | .absorb => before = .absorbing ∧ after = .absorbing
  | .finalize => before = .absorbing ∧ after = .finalized
  | .squeeze => (before = .finalized ∨ before = .squeezing) ∧ after = .squeezing
  | .permute => after = before
  | .reset => after = .uninit

theorem commandEffect_phase {i : Instr} {s : State} (hc : commandCheck i s = none) :
    PhaseMove i s.sponge.phase (commandEffect i s).sponge.phase := by
  cases i with
  | nop | reset => rfl
  | init rate delim => exact startedSponge_phase rate delim
  | absorb =>
    obtain ⟨hp, -⟩ := (absorbCheck_eq_none s).mp hc
    exact ⟨hp, by simp [commandEffect, hp]⟩
  | finalize => exact ⟨(finalizeCheck_eq_none s).mp hc, finalizeContext_phase _⟩
  | squeeze =>
    obtain ⟨hp, -⟩ := (squeezeCheck_eq_none s).mp hc
    exact ⟨hp, by simp [commandEffect]⟩
  | permute => exact congrArg Sponge.phase (permuteEffect_sponge s)

/-- Settles O45: the command's checks fix the phase it starts from, and its effect the phase it leaves. -/
theorem phaseTransitions : Obligations.PhaseTransitions := by
  refine ⟨fun i s t he h => ?_, fun i s t he h => ?_, fun w s t hw h => ?_⟩
  · rcases exec_cases h with ⟨he', -, -⟩ | ⟨-, -, c, a, -, rfl⟩ | ⟨-, hc, rfl⟩
    · simp [he] at he'
    · simp
    · have hne : (commandEffect i s).faults.err = false := by
        rw [commandEffect_faults]
        split
        · rfl
        · exact he
      refine ⟨by simp [hne], fun _ => ?_⟩
      have hmove := commandEffect_phase hc
      cases i <;> exact hmove
  · rcases exec_cases h with ⟨-, hi, rfl⟩ | ⟨he', -⟩ | ⟨hr, -, rfl⟩
    · exact .inr ⟨hi, rfl⟩
    · simp [he] at he'
    · have hi : i = .reset := hr.resolve_left (by simp [he])
      subst hi
      exact .inl ⟨rfl, rfl⟩
  · rcases acceptWord_cases h with ⟨i, hd, -⟩ | ⟨-, rfl | rfl⟩
    · exact absurd hd (hw i)
    · rfl
    · rfl

/-! ### The lane file -/

/-- The two contexts differ in their lanes alone. -/
def Sponge.LanesApart (c d : Sponge) : Prop := c = { d with lanes := c.lanes }

theorem Sponge.LanesApart.of_lanes (c : Sponge) (A : Lanes) : c.LanesApart { c with lanes := A } := rfl

theorem lanesApart_iff (c d : Sponge) : c.LanesApart d ↔
    c.rate = d.rate ∧ c.delim = d.delim ∧ c.pos = d.pos ∧ c.phase = d.phase ∧ c.permcnt = d.permcnt := by
  cases c
  cases d
  simp [Sponge.LanesApart]

theorem advance_permcnt (c : Sponge) :
    (advance c).permcnt = if c.pos + 1 = c.rate then c.permcnt + 1 else c.permcnt := by
  unfold advance
  split
  · exact permuteContext_permcnt c
  · rfl

/-- When the window is full does not depend on the lanes. -/
theorem lanesApart_advance {c d : Sponge} (h : c.LanesApart d) : (advance c).LanesApart (advance d) := by
  rw [lanesApart_iff] at h ⊢
  obtain ⟨hrate, hdelim, hpos, hphase, hcnt⟩ := h
  simp [advance_pos, advance_permcnt, *]

theorem lanesApart_absorbByte {c d : Sponge} (h : c.LanesApart d) (v : Byte) :
    (absorbByte c v).LanesApart (absorbByte d v) :=
  lanesApart_advance (by rw [lanesApart_iff] at h ⊢; exact h)

theorem lanesApart_absorbBytes {c d : Sponge} (h : c.LanesApart d) (vs : List Byte) :
    (absorbBytes c vs).LanesApart (absorbBytes d vs) := by
  induction vs generalizing c d with
  | nil => exact h
  | cons v vs ih => exact ih (lanesApart_absorbByte h v)

theorem lanesApart_squeezeContext {c d : Sponge} (h : c.LanesApart d) (n : Nat) :
    (squeezeContext n c).LanesApart (squeezeContext n d) := by
  induction n generalizing c d with
  | zero => exact h
  | succ n ih => exact ih (lanesApart_advance h)

theorem lanesApart_finalizeContext {c d : Sponge} (h : c.LanesApart d) :
    (finalizeContext c).LanesApart (finalizeContext d) := by
  rw [lanesApart_iff] at h ⊢
  obtain ⟨hrate, hdelim, -, -, hcnt⟩ := h
  simp [hrate, hdelim, hcnt]

theorem readRegister_withLanes (s : State) (A : Lanes) (offset : Nat) :
    readRegister (s.withLanes A) offset = readRegister s offset := by
  unfold readRegister
  split <;> rfl

/-- No check reads the lanes. -/
theorem commandCheck_withLanes (i : Instr) (s : State) (A : Lanes) :
    commandCheck i (s.withLanes A) = commandCheck i s := by
  cases i <;> rfl

theorem permuteInput_withLanes (s : State) (A : Lanes) : permuteInput (s.withLanes A) = permuteInput s := by
  simp only [permuteInput]
  rw [dmaReadBytes_congr s (s.withLanes A) _ _ rfl rfl rfl rfl]
  rfl

/-- The two states differ in their lanes alone, and in memory only where the command is SQUEEZE. -/
def HiddenFrom (i : Instr) (t u : State) : Prop :=
  t = { u.withLanes t.sponge.lanes with mem := t.mem } ∧ (i ≠ .squeeze → t.mem = u.mem)

theorem hiddenFrom_of_lanesApart {i : Instr} (s : State) {c d : Sponge} {m n : Memory} (h : c.LanesApart d)
    (hm : i ≠ .squeeze → m = n) : HiddenFrom i { s with sponge := c, mem := m } { s with sponge := d, mem := n } :=
  ⟨congrArg (fun e => { s with sponge := e, mem := m }) h, hm⟩

/-- Only SQUEEZE's effect shows the lanes, in the bytes it writes to memory. -/
theorem commandEffect_withLanes (i : Instr) (s : State) (A : Lanes) :
    HiddenFrom i (commandEffect i s) (commandEffect i (s.withLanes A)) := by
  have hapart : s.sponge.LanesApart (s.withLanes A).sponge := .of_lanes s.sponge A
  cases i with
  | nop | init | reset => exact ⟨rfl, fun _ => rfl⟩
  | absorb =>
    have hread : dmaReadBytes (s.withLanes A) s.operands.src.toNat s.operands.len.toNat =
        dmaReadBytes s s.operands.src.toNat s.operands.len.toNat := dmaReadBytes_congr _ _ _ _ rfl rfl rfl rfl
    have hloop := lanesApart_absorbBytes hapart (dmaReadBytes s s.operands.src.toNat s.operands.len.toNat)
    refine hiddenFrom_of_lanesApart s (d := (absorbEffect (s.withLanes A)).sponge) ?_ fun _ => rfl
    rw [absorbEffect_sponge]
    exact hread ▸ hloop
  | finalize => exact hiddenFrom_of_lanesApart s (lanesApart_finalizeContext hapart) fun _ => rfl
  | squeeze =>
    have hloop := lanesApart_squeezeContext hapart s.operands.len.toNat
    refine hiddenFrom_of_lanesApart s (c := { squeezeContext _ s.sponge with phase := .squeezing }) ?_
      fun h => absurd rfl h
    rw [lanesApart_iff] at hloop ⊢
    obtain ⟨hrate, hdelim, hpos, -, hcnt⟩ := hloop
    exact ⟨hrate, hdelim, hpos, rfl, hcnt⟩
  | permute =>
    rw [commandEffect, permuteEffect, commandEffect, permuteEffect, permuteInput_withLanes]
    exact hiddenFrom_of_lanesApart s hapart fun _ => rfl

/-- Settles O49: neither the checks nor an effect but SQUEEZE's reads the lanes into anything else. -/
theorem laneFileStaysHidden : Obligations.LaneFileStaysHidden := by
  intro i s t A
  refine ⟨readRegister_withLanes s A, fun h => ?_⟩
  rcases exec_cases h with ⟨he, hi, rfl⟩ | ⟨he, -, c, a, hc, rfl⟩ | ⟨hr, hc, rfl⟩
  · exact ⟨_, exec_locked hi he, rfl, fun _ => rfl⟩
  · rw [← commandCheck_withLanes i s A] at hc
    exact ⟨_, exec_faults he hc, rfl, fun _ => rfl⟩
  · rw [← commandCheck_withLanes i s A] at hc
    exact ⟨_, exec_runs hr hc, commandEffect_withLanes i s A⟩

end Sys2Proof.Machine
end

section
/-! The byte view of the lane file (10_state.md R21), STATUS (R32), the register block (R33, R34, R40) and reset (R39). -/

namespace Sys2Proof.Machine

/-! ### The byte view -/

theorem getLsbD_laneByte (l : Word) (j : Nat) {b : Nat} (hb : b < 8) :
    (laneByte l j).getLsbD b = l.getLsbD (8 * j + b) := by
  simp [laneByte, hb]

theorem getLsbD_byteMask (b : Nat) : (0xFF#64).getLsbD b = decide (b < 8) := by
  have hmask : (0xFF#64) = (BitVec.allOnes 8).setWidth 64 := rfl
  rw [hmask, BitVec.getLsbD_setWidth, BitVec.getLsbD_allOnes, ← Bool.decide_and]
  exact decide_eq_decide.mpr (by omega)

/-- Replacing byte j of a lane changes those 8 bits alone. -/
theorem getLsbD_setLaneByte (l : Word) (j : Nat) (v : Byte) {b : Nat} (hb : b < 64) :
    (setLaneByte l j v).getLsbD b = if b / 8 = j then v.getLsbD (b % 8) else l.getLsbD b := by
  simp only [setLaneByte, BitVec.getLsbD_or, BitVec.getLsbD_and, BitVec.getLsbD_not, BitVec.getLsbD_shiftLeft,
    BitVec.getLsbD_setWidth, getLsbD_byteMask, hb, decide_true, Bool.true_and]
  rcases Nat.lt_trichotomy (b / 8) j with hlt | rfl | hgt
  · have hbelow : b < 8 * j := by omega
    simp [hbelow, hlt.ne]
  · have hat : ¬ b < 8 * (b / 8) := by omega
    have hoff : b - 8 * (b / 8) = b % 8 := by omega
    have hmod : b % 8 < 8 := Nat.mod_lt _ (by decide)
    have hmod' : b % 8 < 64 := by omega
    simp [hat, hoff, hmod, hmod']
  · have habove : 8 ≤ b - 8 * j := by omega
    have hat : ¬ b < 8 * j := by omega
    simp [hat, habove, hgt.ne', Nat.not_lt.mpr habove]

/-- Settles O6: a byte of the view is a byte of its lane, and writing it replaces that byte of that lane. -/
theorem byteViewOfTheLanes : Obligations.ByteViewOfTheLanes := by
  refine ⟨fun A k b hk hb => ?_, fun A k v i b hk hi hb => ?_⟩
  · rw [stateByte, getLsbD_laneByte _ _ hb, lane_eq_laneAt A (k / 8) (by omega)]
  · rw [setStateByte, lane_setIfInBounds A _ i _ hi]
    by_cases hik : k / 8 = i
    · subst hik
      simp [getLsbD_setLaneByte _ _ _ hb]
    · simp [hik, Ne.symm hik]

/-! ### STATUS -/

/-- STATUS bit by bit: PHASE, ERR, five reserved bits, CAUSE, and reserved bits above it (10_state.md R32). -/
theorem getLsbD_statusWord (c : Sponge) (f : FaultRegs) (k : Nat) :
    (statusWord c f).getLsbD k =
      if k < 2 then (phaseCode c.phase).getLsbD k
      else if k < 3 then f.err
      else if k < 8 then false
      else if k < 16 then (causeCode f.cause).getLsbD (k - 8)
      else false := by
  simp only [statusWord, errBit, BitVec.getLsbD_append, BitVec.getLsbD_zero]
  simp only [Nat.sub_sub, Nat.reduceAdd]
  by_cases hphase : k < 2
  · simp [hphase]
  · have herr : k - 2 < 1 ↔ k < 3 := by omega
    have hreserved : k - 3 < 5 ↔ k < 8 := by omega
    have hcause : k - 8 < 8 ↔ k < 16 := by omega
    simp only [hphase, herr, hreserved, hcause, if_false]
    by_cases hk : k = 2
    · simp [hk]
    · have hpast : ¬ k < 3 := by omega
      simp [hpast]

/-- Settles O8: each field is its run of bits of STATUS, and the examples are concatenations of numerals. -/
theorem statusLayout : Obligations.StatusLayout := by
  refine ⟨fun c f => ⟨?_, ?_, fun k hlo hhi => ?_, ?_, fun k hk => ?_⟩, fun c f hp he hc => ?_, fun c f hp he hc => ?_,
    by decide, by decide⟩
  · refine BitVec.eq_of_getLsbD_eq fun k hk => ?_
    simp [getLsbD_statusWord, hk]
  · exact getLsbD_statusWord c f 2
  · have hnot : ¬ k < 2 ∧ ¬ k < 3 := by omega
    simp [getLsbD_statusWord, hnot, hhi]
  · refine BitVec.eq_of_getLsbD_eq fun k hk => ?_
    have hnot : ¬ 8 + k < 2 ∧ ¬ 8 + k < 3 ∧ 8 + k < 16 := by omega
    simp [getLsbD_statusWord, hk, hnot]
  · have hnot : ¬ k < 2 ∧ ¬ k < 3 ∧ ¬ k < 16 := by omega
    simp [getLsbD_statusWord, hnot]
  · rw [statusWord, errBit, hp, he, hc]; rfl
  · rw [statusWord, errBit, hp, he, hc]; rfl

/-! ### The register block -/

/-- Every offset past ERRADDR is reserved and reads 0 (10_state.md R33, R40). -/
theorem readRegister_reserved (s : State) {offset : Nat} (h : 0x58 ≤ offset) : readRegister s offset = 0 := by
  unfold readRegister
  split <;> simp at h ⊢

/-- Settles O9: one clause of the register map per offset, and the reserved rest. -/
theorem registerMap : Obligations.RegisterMap := fun s =>
  ⟨rfl, rfl, rfl, rfl, rfl, rfl, rfl, rfl, rfl, rfl, rfl, fun _ h => readRegister_reserved s h⟩

/-- A write to any offset but those of SRC, DST and LEN is ignored (10_state.md R40). -/
theorem writeRegister_ignored (s : State) {offset : Nat} (v : Word) (hsrc : offset ≠ 0x28) (hdst : offset ≠ 0x30)
    (hlen : offset ≠ 0x38) : writeRegister s offset v = s := by
  unfold writeRegister
  split
  · exact absurd rfl hsrc
  · exact absurd rfl hdst
  · exact absurd rfl hlen
  · rfl

/-- An aligned 8-byte access that starts inside the block ends inside it. -/
theorem admittedAccess_iff (offset width : Nat) :
    admittedAccess offset width = true ↔ width = 8 ∧ offset % 8 = 0 ∧ offset + width ≤ 256 := by
  simp only [admittedAccess, Config.blockBytes, Bool.and_eq_true, beq_iff_eq, decide_eq_true_eq]
  omega

/-- A step that serves an admitted write to an offset other than CMD's writes that register. -/
theorem step_registerWrite {s : State} {offset : Nat} {v : Word} {rest : List BusEvent}
    (hp : s.pending = .write offset 8 v :: rest) (ha : admittedAccess offset 8 = true) (hcmd : offset ≠ 0x00) :
    step s = .next (writeRegister (takeUp rest s) offset v) := by
  rw [step_serves s _ rest hp, serve, registerWrite, if_pos ha, if_neg hcmd]

/-- A step that serves an admitted read answers the register's value. -/
theorem step_registerRead {s : State} {offset width : Nat} {rest : List BusEvent}
    (hp : s.pending = .read offset width :: rest) (ha : admittedAccess offset width = true) :
    step s = .next (hostRead offset (takeUp rest s)) := by
  rw [step_serves s _ rest hp, serve, registerRead, if_pos ha]

/-- Taking up an interaction changes no register. -/
theorem readRegister_takeUp (rest : List BusEvent) (s : State) (offset : Nat) :
    readRegister (takeUp rest s) offset = readRegister s offset := by
  unfold readRegister
  split <;> rfl

/-- Settles O10: admission decides whether there is a step, and reads and ignored writes change no register. -/
theorem registerAccessRules : Obligations.RegisterAccessRules := by
  refine ⟨fun s offset width v rest hp ha => ?_, fun s offset width rest hp ha => ?_,
    fun s offset v rest hp hal hin hcmd hsrc hdst hlen => ?_, fun s offset rest hp hal hin => ?_⟩
  · rw [← admittedAccess_iff] at ha
    rw [step_serves s _ rest hp, serve, registerWrite, if_neg ha]
  · rw [← admittedAccess_iff] at ha
    rw [step_serves s _ rest hp, serve, registerRead, if_neg ha]
  · have ha := (admittedAccess_iff offset 8).mpr ⟨rfl, hal, by omega⟩
    rw [step_registerWrite hp ha hcmd, writeRegister_ignored _ v hsrc hdst hlen]
  · have ha := (admittedAccess_iff offset 8).mpr ⟨rfl, hal, by omega⟩
    have hans : (hostRead offset (takeUp rest s)).answers = s.answers ++ [.register (readRegister s offset)] := by
      rw [hostRead_answers, readRegister_takeUp, takeUp_answers]
    refine ⟨_, step_registerRead hp ha, hans, rfl, rfl, rfl, rfl, rfl, rfl, rfl, fun hzero => ?_⟩
    have hread : readRegister s offset = 0 := by
      rcases hzero with rfl | hres
      · rfl
      · exact readRegister_reserved s hres
    rw [hans, hread]

/-- Settles O11: SRC, DST and LEN are admitted offsets, and the lockout is not asked. -/
theorem operandRegistersWritable : Obligations.OperandRegistersWritable := fun _ _ _ =>
  ⟨fun hp => step_registerWrite hp rfl (by decide), fun hp => step_registerWrite hp rfl (by decide),
    fun hp => step_registerWrite hp rfl (by decide)⟩

/-! ### Reset -/

/-- Settles O52: the reset values as written, a lane of the constant lane file, and resetEngine's own frame. -/
theorem resetValues : Obligations.ResetValues :=
  ⟨fun _ _ _ _ => lane_replicate 0 _ (by omega), rfl, rfl, rfl, rfl, rfl, rfl, rfl, rfl, rfl, rfl, rfl, rfl, rfl,
    fun s => ⟨resetEngine_mem s, resetEngine_sponge s, resetEngine_faults s, resetEngine_operands s⟩⟩

end Sys2Proof.Machine
end

section
/-! The state buffer (20_memory.md R62, R63) and the register blocks (R61). -/

namespace Sys2Proof.Machine

/-! ### The state buffer -/

/-- Bit b of a lane is bit b mod 8 of its byte b div 8 (20_memory.md R62). -/
theorem getLsbD_wordOfBytes (f : Nat → Byte) {b : Nat} (hb : b < 64) :
    (wordOfBytes (f 0) (f 1) (f 2) (f 3) (f 4) (f 5) (f 6) (f 7)).getLsbD b = (f (b / 8)).getLsbD (b % 8) := by
  unfold wordOfBytes
  repeat rw [BitVec.getLsbD_append]
  have hj : b / 8 < 8 := by omega
  have hr : b % 8 < 8 := Nat.mod_lt b (by decide)
  have hsplit : b = b % 8 + 8 * (b / 8) := (Nat.mod_add_div b 8).symm
  generalize b / 8 = j at hsplit hj ⊢
  generalize b % 8 = r at hsplit hr ⊢
  subst hsplit
  have hpast : ∀ n, 8 ≤ n → ¬ r + n < 8 := by omega
  interval_cases j <;> simp [hr, hpast]

/-- Bit b of lane i of a state buffer (20_memory.md R63). -/
theorem getLsbD_lane_lanesOfBytes (buf : List Byte) {i b : Nat} (hi : i < 25) (hb : b < 64) :
    (lane (lanesOfBytes buf) i).getLsbD b = (buf.getD (8 * i + b / 8) 0).getLsbD (b % 8) := by
  rw [lane_eq_getElem _ i hi, lanesOfBytes, Vector.getElem_ofFn]
  exact getLsbD_wordOfBytes (fun j => buf.getD (8 * i + j) 0) hb

/-- Bit b of byte k of a lane file (10_state.md R21). -/
theorem getLsbD_stateByte (A : Lanes) (k : Nat) {b : Nat} (hb : b < 8) :
    (stateByte A k).getLsbD b = (lane A (k / 8)).getLsbD (8 * (k % 8) + b) :=
  getLsbD_laneByte _ _ hb

theorem bytesOfLanes_getD (A : Lanes) {k : Nat} (hk : k < 200) : (bytesOfLanes A).getD k 0 = stateByte A k := by
  simp [bytesOfLanes, hk]

theorem lanesOfBytes_bytesOfLanes (A : Lanes) : lanesOfBytes (bytesOfLanes A) = A := by
  refine lanes_ext _ _ fun i hi => BitVec.eq_of_getLsbD_eq fun b hb => ?_
  have hlane : (8 * i + b / 8) / 8 = i := by omega
  have hbit : 8 * ((8 * i + b / 8) % 8) + b % 8 = b := by omega
  rw [getLsbD_lane_lanesOfBytes _ hi hb, bytesOfLanes_getD A (by omega),
    getLsbD_stateByte _ _ (Nat.mod_lt b (by decide)), hlane, hbit]

theorem stateByte_lanesOfBytes (buf : List Byte) {k : Nat} (hk : k < 200) :
    stateByte (lanesOfBytes buf) k = buf.getD k 0 := by
  refine BitVec.eq_of_getLsbD_eq fun b hb => ?_
  have hbyte : 8 * (k / 8) + (8 * (k % 8) + b) / 8 = k := by omega
  have hbit : (8 * (k % 8) + b) % 8 = b := by omega
  rw [getLsbD_stateByte _ _ hb, getLsbD_lane_lanesOfBytes _ (by omega) (by omega), hbyte, hbit]

theorem bytesOfLanes_lanesOfBytes (buf : List Byte) (h : buf.length = 200) :
    bytesOfLanes (lanesOfBytes buf) = buf := by
  refine List.ext_getElem (by rw [bytesOfLanes_length, h]) fun k hk hk' => ?_
  rw [bytesOfLanes_length] at hk
  rw [← List.getD_eq_getElem _ 0, bytesOfLanes_getD _ hk, stateByte_lanesOfBytes buf hk, List.getD_eq_getElem _ 0 hk']

/-- Settles O7: the two round trips, bit by bit through the byte view. -/
theorem stateBufferIsTheLaneFile : Obligations.StateBufferIsTheLaneFile :=
  ⟨lanesOfBytes_bytesOfLanes, bytesOfLanes_lanesOfBytes⟩

/-! ### The register blocks -/

theorem inRegisterBlock_eq_true {p : Platform} {base : Word} {a : Nat} (hbase : base = p.base ∨ base ∈ p.otherBases)
    (hlo : base.toNat ≤ a) (hhi : a < base.toNat + 256) : inRegisterBlock p a = true := by
  have hin : inBlockAt base a = true := by simp [inBlockAt, Config.blockBytes, hlo, hhi]
  exact List.any_eq_true.mpr ⟨base, List.mem_cons.mpr hbase, hin⟩

/-- Settles O48: admission asks for the register blocks first, whatever the regions say. -/
theorem registerBlocksNeverAdmitted : Obligations.RegisterBlocksNeverAdmitted := by
  intro p k base a hbase hlo hhi
  simp [admits, inRegisterBlock_eq_true hbase hlo hhi]

end Sys2Proof.Machine
end

section
/-! Accepting a command word (43_control.md R222): it always completes, touches nothing of the surroundings, and writes
memory inside the word's span alone. Then one equation of `step` per interaction with memory. -/

namespace Sys2Proof.Machine

/-! ### Accepting a word -/

theorem SameSurroundings.refl (s : State) : SameSurroundings s s := ⟨rfl, rfl, rfl, rfl, rfl, rfl⟩

theorem raiseFault_sameSurroundings (w : Word) (c : Cause) (a : Word) (s : State) :
    SameSurroundings s (raiseFault w c a s) := ⟨rfl, rfl, rfl, rfl, rfl, rfl⟩

theorem exec_sameSurroundings {i : Instr} {s t : State} (h : exec i s = .next t) : SameSurroundings s t := by
  rcases exec_cases h with ⟨-, -, rfl⟩ | ⟨-, -, c, a, -, rfl⟩ | ⟨-, -, rfl⟩
  · exact .refl _
  · exact raiseFault_sameSurroundings _ _ _ _
  · exact commandEffect_sameSurroundings i s

theorem acceptWord_sameSurroundings {w : Word} {s t : State} (h : acceptWord w s = .next t) : SameSurroundings s t := by
  rcases acceptWord_cases h with ⟨i, -, he⟩ | ⟨-, rfl | rfl⟩
  · exact exec_sameSurroundings he
  · exact .refl _
  · exact raiseFault_sameSurroundings _ _ _ _

theorem exec_completes (i : Instr) (s : State) : ∃ t, exec i s = .next t := by
  by_cases hi : i = .reset
  · exact ⟨_, hi ▸ exec_reset s⟩
  · rw [exec_eq_runCommand hi]
    exact runCommand_completes _ _ _ _

theorem acceptWord_completes (w : Word) (s : State) : ∃ t, acceptWord w s = .next t := by
  unfold acceptWord
  split
  · exact exec_completes _ s
  · exact runCommand_completes _ _ _ _

theorem exec_mem_wf {i : Instr} {s t : State} (h : s.mem.wf = true) (he : exec i s = .next t) : t.mem.wf = true := by
  rcases exec_cases he with ⟨-, -, rfl⟩ | ⟨-, -, c, a, -, rfl⟩ | ⟨-, hc, rfl⟩
  · exact h
  · exact h
  · exact commandEffect_mem_wf h hc

theorem acceptWord_mem_wf {w : Word} {s t : State} (h : s.mem.wf = true) (ha : acceptWord w s = .next t) :
    t.mem.wf = true := by
  rcases acceptWord_cases ha with ⟨i, -, he⟩ | ⟨-, rfl | rfl⟩
  · exact exec_mem_wf h he
  · exact h
  · exact h

/-! ### The word's span -/

theorem covers_eq_false (p : Span) (a : Nat) : p.covers a = false ↔ a < p.base ∨ p.base + p.len ≤ a := by
  simp only [Span.covers, Bool.and_eq_false_iff, decide_eq_false_iff_not]
  omega

/-- Storing a span's bytes leaves every address alone that the span does not cover. -/
theorem read_writeBytes_of_covers_eq_false (m : Memory) (p : Span) {vs : List Byte} {a : Nat}
    (hlen : vs.length = p.len) (ha : p.covers a = false) : (m.writeBytes p.base vs).read a = m.read a :=
  Memory.read_writeBytes_outside m p.base a vs (hlen ▸ (covers_eq_false p a).mp ha)

theorem writtenSpan_squeeze {s : State} (he : s.faults.err = false) (hc : squeezeCheck s = none) :
    writtenSpan .squeeze s = some { base := s.operands.dst.toNat, len := s.operands.len.toNat } := by
  simp [writtenSpan, he, hc]

theorem writtenSpan_permute {s : State} (he : s.faults.err = false) (hc : permuteCheck s = none) :
    writtenSpan .permute s = some { base := s.operands.dst.toNat, len := Config.stateBytes } := by
  simp [writtenSpan, he, hc]

/-- A command that takes its effect leaves memory alone outside the bytes it writes. -/
theorem commandEffect_mem_outside {i : Instr} {s : State} {a : Nat} (he : s.faults.err = false ∨ i = .reset)
    (hc : commandCheck i s = none) (ha : spanHolds (writtenSpan i s) a = false) :
    (commandEffect i s).mem.read a = s.mem.read a := by
  cases i with
  | nop | init | absorb | finalize | reset => rw [commandEffect_mem (by simp) (by simp)]
  | squeeze =>
    rw [writtenSpan_squeeze (he.resolve_right (by simp)) hc] at ha
    rw [commandEffect, squeezeEffect_mem]
    exact read_writeBytes_of_covers_eq_false s.mem ⟨_, s.operands.len.toNat⟩ (squeezeOutput_length _ _) ha
  | permute =>
    rw [writtenSpan_permute (he.resolve_right (by simp)) hc] at ha
    rw [commandEffect, permuteEffect_mem]
    exact read_writeBytes_of_covers_eq_false s.mem ⟨_, Config.stateBytes⟩ (bytesOfLanes_length _) ha

theorem acceptWord_mem_outside {w : Word} {s t : State} {a : Nat} (h : acceptWord w s = .next t)
    (ha : spanHolds (wordSpan w s) a = false) : t.mem.read a = s.mem.read a := by
  rcases acceptWord_cases h with ⟨i, hd, he⟩ | ⟨-, rfl | rfl⟩
  · rcases exec_cases he with ⟨-, -, rfl⟩ | ⟨-, -, c, b, -, rfl⟩ | ⟨hr, hc, rfl⟩
    · rfl
    · rfl
    · rw [wordSpan, hd] at ha
      exact commandEffect_mem_outside hr hc ha
  · rfl
  · rfl

/-- Which bytes a word writes is settled by the engine's registers and the platform. -/
theorem wordSpan_congr (w : Word) {s t : State} (hsponge : t.sponge = s.sponge) (hfaults : t.faults = s.faults)
    (hops : t.operands = s.operands) (hplat : t.platform = s.platform) : wordSpan w t = wordSpan w s := by
  cases t
  cases hsponge
  cases hfaults
  cases hops
  cases hplat
  rfl

/-! ### Steps -/

theorem step_store {s : State} {addr : Word} {v : Byte} {rest : List BusEvent}
    (hp : s.pending = .memory (.store addr v) :: rest) (hb : inRegisterBlock s.platform addr.toNat = false) :
    step s = .next (hostStore addr.toNat v (takeUp rest s)) := by
  simp [step_serves s _ rest hp, serve, memoryAccess, MemAccess.address, hb]

theorem step_load {s : State} {addr : Word} {rest : List BusEvent} (hp : s.pending = .memory (.load addr) :: rest)
    (hb : inRegisterBlock s.platform addr.toNat = false) :
    step s = .next (hostLoad addr.toNat (takeUp rest s)) := by
  simp [step_serves s _ rest hp, serve, memoryAccess, MemAccess.address, hb]

theorem step_race {s : State} {acc : MemAccess} {rest : List BusEvent} (hp : s.pending = .race acc :: rest)
    (hb : inRegisterBlock s.platform acc.address = false) :
    step s = .next { takeUp rest s with overlap := s.overlap ++ [acc] } := by
  simp [step_serves s _ rest hp, serve, raceAccess, hb]

theorem step_fence {s : State} {rest : List BusEvent} (hp : s.pending = .fence :: rest) :
    step s = .next (hostFence (takeUp rest s)) := step_serves s _ rest hp

theorem step_maintain {s : State} {rest : List BusEvent} (hp : s.pending = .maintain :: rest) :
    step s = .next (hostMaintain (takeUp rest s)) := step_serves s _ rest hp

theorem step_commandWrite {s t : State} {w : Word} {rest : List BusEvent} (hp : s.pending = .write 0x00 8 w :: rest)
    (h : acceptWord w (takeUp rest s) = .next t) :
    step s = .next (completeCommand (wordSpan w (takeUp rest s)) (takeUp rest s) t) := by
  have ha : admittedAccess 0x00 8 = true := rfl
  rw [step_serves s _ rest hp, serve, registerWrite, if_pos ha, if_pos rfl, commandWrite, h]

/-- A run of k + 1 steps is a step and a run of k. -/
theorem core_run_succ (M : Host.Core) {s t : M.State} (h : M.step s = .next t) (k : Nat) :
    M.run (k + 1) s = M.run k t := by
  rw [Host.Core.run, h]

theorem run_succ {s t : State} (h : step s = .next t) (k : Nat) :
    Sys2Proof.core.run (k + 1) s = Sys2Proof.core.run k t := core_run_succ _ h k

theorem run_one {s t : State} (h : step s = .next t) : Sys2Proof.core.run 1 s = .next t := run_succ h 0

end Sys2Proof.Machine
end

section
/-! Host stores and the DMA (20_memory.md R70, R71 (a), R72, R75): which stores are on their way, and that a fence and a
maintenance bring them in. -/

namespace Sys2Proof.Machine

/-! ### Stores on their way -/

theorem unsettled_of_waiting {s : State} {a : Nat} (h : waiting s a = true) : unsettled s a = true := by
  simp [unsettled, h]

theorem unsettled_of_race {s : State} {addr : Word} {v : Byte} (h : MemAccess.store addr v ∈ s.overlap) :
    unsettled s addr.toNat = true := by
  have hrace : (s.overlap.any fun acc => acc.storesTo addr.toNat) = true :=
    List.any_eq_true.mpr ⟨_, h, by simp [MemAccess.storesTo]⟩
  simp [unsettled, hrace]

theorem dmaRead_unsettled {s : State} {a : Nat} (h : unsettled s a = true) :
    dmaRead s a = Config.unsettledByte s.serial a := if_pos h

/-- Where the platform asks for a fence or for maintenance, a store is on its way (20_memory.md R72, R75). -/
theorem waiting_hostStore {s : State} (a : Nat) (v : Byte)
    (h : s.platform.hostOrdered = false ∨ s.platform.dmaCoherent = false) : waiting (hostStore a v s) a = true := by
  rcases h with h | h <;> simp [waiting, hostStore, markStored, h]

/-- Where it asks for neither, a store puts nothing on its way (20_memory.md R71 (a)). -/
theorem waiting_hostStore_ordered {s : State} (a b : Nat) (v : Byte) (ho : s.platform.hostOrdered = true)
    (hc : s.platform.dmaCoherent = true) : waiting (hostStore a v s) b = waiting s b := by
  simp [waiting, hostStore, markStored, ho, hc]

@[simp] theorem waiting_markWritten (p : Option Span) (s : State) (a : Nat) :
    waiting (markWritten p s) a = waiting s a := by
  cases p <;> rfl

theorem waiting_completeCommand (p : Option Span) (s t : State) (a : Nat) :
    waiting (completeCommand p s t) a = waiting (settleOverlap p s t) a :=
  waiting_markWritten p (settleOverlap p s t) a

/-- After a fence and a maintenance the DMA reads what memory holds (20_memory.md R72, R75). -/
theorem dmaRead_after_fence_maintain {s : State} {rest : List BusEvent} (hp : s.pending = .fence :: .maintain :: rest)
    (ho : s.overlap = []) (a : Nat) :
    ∃ t, Sys2Proof.core.run 2 s = .next t ∧ dmaRead t a = s.mem.read a := by
  refine ⟨_, (run_succ (step_fence hp) 1).trans (run_one (step_maintain rfl)), ?_⟩
  exact dmaRead_settled _ a ((unsettled_eq_false _ a).mpr ⟨by simp [ho], by simp, by simp⟩)

/-- Settles O58: such a store waits for nothing, or for the fence and the maintenance that follow. -/
theorem hostStoresReachTheDma : Obligations.HostStoresReachTheDma := by
  refine ⟨fun s addr v rest hp hb hwf hov hf hc hord hcoh => ?_, fun s addr v rest hp hb hwf hov => ?_⟩
  · have hset : unsettled (hostStore addr.toNat v (takeUp rest s)) addr.toNat = false := by
      have hwait : waiting (takeUp rest s) addr.toNat = false := by simp [waiting, hf, hc]
      simp [unsettled, waiting_hostStore_ordered, hord, hcoh, hwait, hov]
    refine ⟨_, step_store hp hb, ?_⟩
    rw [dmaRead_settled _ _ hset]
    exact Memory.read_write_same s.mem 0 addr.toNat v hwf
  · obtain ⟨t, hrun, hread⟩ := dmaRead_after_fence_maintain
      (s := hostStore addr.toNat v (takeUp (.fence :: .maintain :: rest) s)) rfl hov addr.toNat
    refine ⟨t, (run_succ (step_store hp hb) 2).trans hrun, ?_⟩
    rw [hread]
    exact Memory.read_write_same s.mem 0 addr.toNat v hwf

/-! ### A racing store outside the command's bytes -/

/-- One racing store outside the span lands as a host store, after the stores on their way to the span. -/
theorem settleOverlap_of_store {p : Option Span} {s : State} {addr : Word} {v : Byte}
    (ho : s.overlap = [.store addr v]) (hp : spanHolds p addr.toNat = false) (t : State) :
    settleOverlap p s t =
      { hostStore addr.toNat v { t with
          mem := landLate s.serial p (s.visibility.unfenced ++ s.visibility.uncleaned) t.mem } with overlap := [] } := by
  simp [settleOverlap, settleRaces, ho, hp]

section
variable {w : Word} {c t : State} {addr : Word} {v : Byte}

theorem waiting_completeCommand_of_store (ho : c.overlap = [.store addr v])
    (hp : spanHolds (wordSpan w c) addr.toNat = false) (hacc : acceptWord w c = .next t)
    (hneeds : c.platform.hostOrdered = false ∨ c.platform.dmaCoherent = false) :
    waiting (completeCommand (wordSpan w c) c t) addr.toNat = true := by
  rw [waiting_completeCommand, settleOverlap_of_store ho hp]
  refine waiting_hostStore addr.toNat v ?_
  rw [(acceptWord_sameSurroundings hacc).platform]
  exact hneeds

theorem read_completeCommand_of_store (ho : c.overlap = [.store addr v])
    (hp : spanHolds (wordSpan w c) addr.toNat = false) (hacc : acceptWord w c = .next t) (hwf : c.mem.wf = true) :
    (completeCommand (wordSpan w c) c t).mem.read addr.toNat = v := by
  rw [completeCommand_mem, settleOverlap_of_store ho hp]
  exact Memory.read_write_same _ 0 addr.toNat v (Memory.wf_landLate _ _ _ _ (acceptWord_mem_wf hwf hacc)
    fun _ ha => (wordSpan_fits w c).lt_of_holds ha)

end

/-- A race and the CMD write it falls into: the command starts from s with the race in progress. -/
theorem run_race_commandWrite {s : State} {acc : MemAccess} {w : Word} {rest : List BusEvent}
    (hp : s.pending = .race acc :: .write 0x00 8 w :: rest) (hb : inRegisterBlock s.platform acc.address = false) :
    ∃ c t, acceptWord w c = .next t ∧ c.overlap = s.overlap ++ [acc] ∧ c.platform = s.platform ∧ c.mem = s.mem ∧
      c.pending = rest ∧ wordSpan w c = wordSpan w s ∧
      ∀ k, Sys2Proof.core.run (k + 2) s = Sys2Proof.core.run k (completeCommand (wordSpan w c) c t) := by
  have hrace := step_race hp hb
  obtain ⟨t, hacc⟩ := acceptWord_completes w (takeUp rest { takeUp (.write 0x00 8 w :: rest) s with
    overlap := s.overlap ++ [acc] })
  exact ⟨_, t, hacc, rfl, rfl, rfl, rfl, wordSpan_congr w rfl rfl rfl rfl,
    fun k => (run_succ hrace (k + 1)).trans (run_succ (step_commandWrite rfl hacc) k)⟩

/-- Settles O59: the racing store lands as a host store when the command completes, so it is on its way where the
platform asks for a fence or for maintenance, and memory holds it. -/
theorem racingStoresNeedTheFence : Obligations.RacingStoresNeedTheFence := by
  intro s addr v w rest hp hb hov hspan
  obtain ⟨c, t, hacc, hcov, hplat, hmem, hpend, hcspan, hrun⟩ := run_race_commandWrite hp hb
  rw [hov, List.nil_append] at hcov
  rw [← hcspan] at hspan
  refine ⟨fun hneeds => ⟨_, hrun 0, ?_⟩, fun hwf => ?_⟩
  · rw [← hplat] at hneeds
    exact dmaRead_unsettled (unsettled_of_waiting (waiting_completeCommand_of_store hcov hspan hacc hneeds))
  · have hpend' : (completeCommand (wordSpan w c) c t).pending = .fence :: .maintain :: rest := by
      rw [completeCommand_pending, (acceptWord_sameSurroundings hacc).pending, hpend]
    obtain ⟨u, hrun', hread⟩ := dmaRead_after_fence_maintain hpend' (completeCommand_overlap _ _ _) addr.toNat
    refine ⟨u, (hrun 2).trans hrun', ?_⟩
    rw [hread]
    exact read_completeCommand_of_store hcov hspan hacc (hmem ▸ hwf)

end Sys2Proof.Machine
end

section
/-! Races (20_memory.md R70): what the racing loads of a command give, and what its races leave at a byte that no other
store touches. -/

namespace Sys2Proof.Machine

/-! ### One racing load -/

/-- A racing load of a byte that nothing hides and no other store touches gives the byte before or after the command,
where memory still holds what the command left. -/
theorem racedLoadByte_admitted {s t : State} {span : Option Span} {after : Memory} {a : Nat} (index : Nat)
    (hset : unsettled s a = false) (hseen : unseen t a = false)
    (hmem : spanHolds span a = false → t.mem.read a = after.read a) :
    racedLoadByte s t span after index a = s.mem.read a ∨
      racedLoadByte s t span after index a = after.read a := by
  unfold racedLoadByte
  rw [hseen, hset, if_neg Bool.false_ne_true, if_neg Bool.false_ne_true]
  cases hspan : spanHolds span a with
  | false => exact .inr (hmem hspan)
  | true =>
    rw [if_pos rfl]
    split
    · exact .inr rfl
    · exact .inl rfl

/-! ### All of a command's races -/

/-- While its races settle, t shows the command's memory at every byte that no other store touches, and hides no such byte
that s did not. -/
def ShowsCommand (s : State) (after : Memory) (t : State) : Prop :=
  ∀ a, unsettled s a = false → (unseen s a = false → unseen t a = false) ∧ t.mem.read a = after.read a

theorem showsCommand_hostStore {s t : State} {after : Memory} (h : ShowsCommand s after t) {b : Nat} (v : Byte)
    (hb : unsettled s b = true) : ShowsCommand s after (hostStore b v t) := by
  intro a ha
  obtain ⟨hseen, hmem⟩ := h a ha
  have hne : a ≠ b := by rintro rfl; simp [ha] at hb
  refine ⟨fun hs => by simp [hseen hs], ?_⟩
  rw [hostStore_mem, Memory.read_write_ne _ _ _ _ hne, hmem]

/-- Stores that land late leave alone every byte to which none was on its way. -/
theorem showsCommand_landLate {s t : State} (span : Option Span) (hv : t.visibility = s.visibility) :
    ShowsCommand s t.mem
      { t with mem := landLate s.serial span (s.visibility.unfenced ++ s.visibility.uncleaned) t.mem } := by
  intro a ha
  obtain ⟨-, hf, hc⟩ := (unsettled_eq_false s a).mp ha
  refine ⟨fun hs => ?_, Memory.read_landLate _ _ _ _ _ (by simp [hf, hc])⟩
  rw [unseen, hv]
  exact hs

/-- The byte v is one R70 admits for a racing load of address a. -/
def AdmittedLoad (s : State) (after : Memory) (a : Nat) (v : Byte) : Prop :=
  unsettled s a = false → unseen s a = false → v = s.mem.read a ∨ v = after.read a

/-- The races of a command answer its racing loads in order, each with an admitted byte, and leave memory as the command
left it wherever no other store touches it. -/
theorem settleRaces_admitted {s : State} {span : Option Span} {after : Memory} (index : Nat) (todo : List MemAccess)
    {t : State} (hsub : ∀ acc ∈ todo, acc ∈ s.overlap) (ht : ShowsCommand s after t) :
    ∃ bytes : List Byte,
      (settleRaces s span after index todo t).answers = t.answers ++ bytes.map Answer.racedLoad ∧
        List.Forall₂ (AdmittedLoad s after) (loadedAddresses todo) bytes ∧
        ShowsCommand s after (settleRaces s span after index todo t) := by
  induction todo generalizing index t with
  | nil => exact ⟨[], by simp [settleRaces], .nil, ht⟩
  | cons acc rest ih =>
    obtain ⟨hacc, hrest⟩ := List.forall_mem_cons.mp hsub
    cases acc with
    | store addr v => exact ih (index + 1) hrest (showsCommand_hostStore ht _ (unsettled_of_race hacc))
    | load addr =>
      have hload : AdmittedLoad s after addr.toNat (racedLoadByte s t span after index addr.toNat) :=
        fun hset hseen => racedLoadByte_admitted index hset ((ht _ hset).1 hseen) fun _ => (ht _ hset).2
      obtain ⟨bytes, hans, hall, hshows⟩ := ih (index + 1)
        (t := { t with answers := t.answers ++ [.racedLoad (racedLoadByte s t span after index addr.toNat)] }) hrest ht
      exact ⟨racedLoadByte s t span after index addr.toNat :: bytes, by simp [settleRaces, hans], .cons hload hall,
        hshows⟩

/-- What completing a command gives its racing loads and leaves in memory. -/
theorem completeCommand_admitted {s t : State} (span : Option Span) (h : SameSurroundings s t) :
    ∃ bytes : List Byte,
      (completeCommand span s t).answers = s.answers ++ bytes.map Answer.racedLoad ++ [.completed] ∧
        List.Forall₂ (AdmittedLoad s t.mem) (loadedAddresses s.overlap) bytes ∧
        ∀ a, unsettled s a = false → (completeCommand span s t).mem.read a = t.mem.read a := by
  obtain ⟨bytes, hans, hall, hshows⟩ := settleRaces_admitted (span := span) 0 s.overlap (fun _ h => h)
    (showsCommand_landLate span h.visibility)
  refine ⟨bytes, ?_, hall, fun a ha => ?_⟩
  · rw [completeCommand_answers, settleOverlap, hans, h.answers]
  · rw [completeCommand_mem, settleOverlap, (hshows a ha).2]

/-- Settles O57: the first two clauses are the two values of a DMA read, the third is one racing load, and the last is
the completion of the command. -/
theorem racesGiveAdmittedValues : Obligations.RacesGiveAdmittedValues := by
  refine ⟨fun s addr v h => dmaRead_unsettled (unsettled_of_race h), fun s a hrace hf hc => ?_,
    fun s t p after index a hlo hhi hset hseen => ?_, fun s t w rest hp hacc => ?_⟩
  · refine dmaRead_settled s a ((unsettled_eq_false s a).mpr ⟨List.any_eq_false.mpr fun acc hacc => ?_, hf, hc⟩)
    cases acc with
    | load addr => simp [MemAccess.storesTo]
    | store addr v => simpa [MemAccess.storesTo] using hrace addr v hacc
  · have hin : spanHolds (some p) a = true := by simp [spanHolds, Span.covers, hlo, hhi]
    exact racedLoadByte_admitted index hset hseen fun hout => by simp [hin] at hout
  · obtain ⟨bytes, hans, hall, hmem⟩ :=
      completeCommand_admitted (wordSpan w (takeUp rest s)) (acceptWord_sameSurroundings hacc)
    refine ⟨_, bytes, step_commandWrite hp hacc, completeCommand_overlap _ _ _, hans, hall.length_eq.symm,
      fun i a hi hset hseen => ?_, hmem⟩
    obtain ⟨hlt, rfl⟩ := List.getElem?_eq_some_iff.mp hi
    have hlt' : i < bytes.length := hall.length_eq ▸ hlt
    rw [List.getElem?_eq_getElem hlt']
    exact (hall.get hlt hlt' hset hseen).imp (congrArg some) (congrArg some)

end Sys2Proof.Machine
end

section
/-! Host loads (20_memory.md R71 (b), R72, R75; 43_control.md R225; 70_reset_and_hazards.md R284): what each of the host's
interactions leaves a load of one byte waiting for, and the loads themselves. -/

namespace Sys2Proof.Machine

/-! ### What a load of one byte waits for -/

/-- Every written span that covers a has the property P. -/
def SpansAt (s : State) (a : Nat) (P : WrittenSpan → Prop) : Prop :=
  ∀ x ∈ s.visibility.written, x.span.covers a = true → P x

theorem hides_eq_false (x : WrittenSpan) :
    x.hides = false ↔ x.posted = false ∧ x.unordered = false ∧ x.cached = false := by
  simp [WrittenSpan.hides, and_assoc]

theorem unseen_eq_false_of_spansAt {s : State} {a : Nat}
    (h : SpansAt s a fun x => x.posted = false ∧ x.unordered = false ∧ x.cached = false) : unseen s a = false :=
  (unseen_eq_false s a).mpr fun x hx hc => (hides_eq_false x).mpr (h x hx hc)

theorem unseen_eq_true_of_mem {s : State} {x : WrittenSpan} {a : Nat} (hx : x ∈ s.visibility.written)
    (hh : x.posted = true ∨ x.unordered = true ∨ x.cached = true) (hc : x.span.covers a = true) : unseen s a = true := by
  have hhides : x.hides = true := by simpa [WrittenSpan.hides, or_assoc] using hh
  exact List.any_eq_true.mpr ⟨x, hx, by simp [hhides, hc]⟩

/-- An update that leaves each span its bytes gives the spans at a what it gives each of them. -/
theorem spansAt_of_updateWritten {s t : State} {a : Nat} {P Q : WrittenSpan → Prop} {f : WrittenSpan → WrittenSpan}
    (ht : t.visibility.written = updateWritten f s.visibility.written) (hspan : ∀ x, (f x).span = x.span)
    (hf : ∀ x, P x → Q (f x)) (h : SpansAt s a P) : SpansAt t a Q := by
  intro y hy hc
  rw [ht, mem_updateWritten] at hy
  obtain ⟨⟨x, hx, rfl⟩, -⟩ := hy
  exact hf x (h x hx (hspan x ▸ hc))

theorem spansAt_hostRead {s : State} {a offset : Nat} {P Q : WrittenSpan → Prop} (hf : ∀ x, P x → Q x.afterRead)
    (h : SpansAt s a P) : SpansAt (hostRead offset s) a Q := spansAt_of_updateWritten rfl afterRead_span hf h

theorem spansAt_hostFence {s : State} {a : Nat} {P Q : WrittenSpan → Prop} (hf : ∀ x, P x → Q x.afterFence)
    (h : SpansAt s a P) : SpansAt (hostFence s) a Q := spansAt_of_updateWritten rfl afterFence_span hf h

theorem spansAt_hostMaintain {s : State} {a : Nat} {P Q : WrittenSpan → Prop} (hf : ∀ x, P x → Q x.afterMaintain)
    (h : SpansAt s a P) : SpansAt (hostMaintain s) a Q := spansAt_of_updateWritten rfl afterMaintain_span hf h

/-- A command to other bytes changes nothing of what a load of this one waits for. -/
theorem spansAt_markWritten {p : Option Span} {s : State} {a : Nat} {P : WrittenSpan → Prop}
    (hp : spanHolds p a = false) (h : SpansAt s a P) : SpansAt (markWritten p s) a P := by
  cases p with
  | none => exact h
  | some p =>
    intro x hx hc
    simp only [markWritten] at hx
    split at hx
    · rcases List.mem_cons.mp hx with rfl | hx
      · simp only [spanHolds, hc, Bool.true_eq_false] at hp
      · exact h x hx hc
    · exact h x hx hc

/-! ### Loads -/

theorem step_load_seen {s : State} {addr : Word} {rest : List BusEvent} (hp : s.pending = .memory (.load addr) :: rest)
    (hb : inRegisterBlock s.platform addr.toNat = false) (h : unseen s addr.toNat = false) :
    ∃ t, step s = .next t ∧ t.mem = s.mem ∧ t.answers = s.answers ++ [.loaded (s.mem.read addr.toNat)] := by
  have hseen : unseen (takeUp rest s) addr.toNat = false := h
  exact ⟨_, step_load hp hb, rfl, by simp [hseen]⟩

theorem step_load_hidden {s : State} {addr : Word} {rest : List BusEvent}
    (hp : s.pending = .memory (.load addr) :: rest) (hb : inRegisterBlock s.platform addr.toNat = false)
    (h : unseen s addr.toNat = true) :
    ∃ t, step s = .next t ∧
      t.answers = s.answers ++ [.loaded (Config.unseenByte (s.serial + 1) addr.toNat)] := by
  have hhidden : unseen (takeUp rest s) addr.toNat = true := h
  exact ⟨_, step_load hp hb, by simp [hhidden]⟩

section
variable {s : State} {addr : Word} {rest : List BusEvent}

theorem run_load (hp : s.pending = .memory (.load addr) :: rest) (hb : inRegisterBlock s.platform addr.toNat = false)
    (h : SpansAt s addr.toNat fun x => x.posted = false ∧ x.unordered = false ∧ x.cached = false) :
    ∃ t, Sys2Proof.core.run 1 s = .next t ∧ t.answers = s.answers ++ [.loaded (s.mem.read addr.toNat)] := by
  obtain ⟨t, hstep, -, hans⟩ := step_load_seen hp hb (unseen_eq_false_of_spansAt h)
  exact ⟨t, run_one hstep, hans⟩

theorem run_maintain_load (hp : s.pending = .maintain :: .memory (.load addr) :: rest)
    (hb : inRegisterBlock s.platform addr.toNat = false)
    (h : SpansAt s addr.toNat fun x => x.posted = false ∧ x.unordered = false) :
    ∃ t, Sys2Proof.core.run 2 s = .next t ∧ t.answers = s.answers ++ [.loaded (s.mem.read addr.toNat)] := by
  obtain ⟨t, hrun, hans⟩ := run_load (s := hostMaintain (takeUp (.memory (.load addr) :: rest) s)) rfl hb
    (spansAt_hostMaintain (fun x hx => by simp [hx]) h)
  exact ⟨t, (run_succ (step_maintain hp) 1).trans hrun, hans⟩

theorem run_fence_load (hp : s.pending = .fence :: .memory (.load addr) :: rest)
    (hb : inRegisterBlock s.platform addr.toNat = false)
    (h : SpansAt s addr.toNat fun x => x.posted = false ∧ x.cached = false) :
    ∃ t, Sys2Proof.core.run 2 s = .next t ∧ t.answers = s.answers ++ [.loaded (s.mem.read addr.toNat)] := by
  obtain ⟨t, hrun, hans⟩ := run_load (s := hostFence (takeUp (.memory (.load addr) :: rest) s)) rfl hb
    (spansAt_hostFence (fun x hx => by simp [hx]) h)
  exact ⟨t, (run_succ (step_fence hp) 1).trans hrun, hans⟩

theorem run_fence_maintain_load (hp : s.pending = .fence :: .maintain :: .memory (.load addr) :: rest)
    (hb : inRegisterBlock s.platform addr.toNat = false) (h : SpansAt s addr.toNat fun x => x.posted = false) :
    ∃ t, Sys2Proof.core.run 3 s = .next t ∧ t.answers = s.answers ++ [.loaded (s.mem.read addr.toNat)] := by
  obtain ⟨t, hrun, hans⟩ := run_maintain_load
    (s := hostFence (takeUp (.maintain :: .memory (.load addr) :: rest) s)) rfl hb
    (spansAt_hostFence (fun x hx => by simp [hx]) h)
  exact ⟨t, (run_succ (step_fence hp) 2).trans hrun, hans⟩

/-- A register read, and after it a run from the state the read leaves. -/
theorem run_read_then {offset k : Nat} {given : List Answer} (hp : s.pending = .read offset 8 :: rest)
    (hal : offset % 8 = 0) (hin : offset < 256)
    (h : ∃ t, Sys2Proof.core.run k (hostRead offset (takeUp rest s)) = .next t ∧
      t.answers = (hostRead offset (takeUp rest s)).answers ++ given) :
    ∃ t, Sys2Proof.core.run (k + 1) s = .next t ∧
      t.answers = s.answers ++ .register (readRegister s offset) :: given := by
  obtain ⟨t, hrun, hans⟩ := h
  have ha := (admittedAccess_iff offset 8).mpr ⟨rfl, hal, by omega⟩
  refine ⟨t, (run_succ (step_registerRead hp ha) k).trans hrun, ?_⟩
  rw [hans, hostRead_answers, readRegister_takeUp, takeUp_answers, List.append_assoc, List.singleton_append]

/-- After a register read no command's completion is unknown to the host. -/
theorem spansAt_read_posted (offset a : Nat) (events : List BusEvent) :
    SpansAt (hostRead offset (takeUp events s)) a fun x => x.posted = false :=
  spansAt_hostRead (P := fun _ => True) (fun _ _ => rfl) fun _ _ _ => trivial

end

/-! ### A command to other bytes between the read and the load -/

theorem read_landLate_outside (serial : Nat) {span : Option Span} (addrs : List Nat) (m : Memory) {a : Nat}
    (ha : spanHolds span a = false) : (landLate serial span addrs m).read a = m.read a := by
  induction addrs generalizing m with
  | nil => rfl
  | cons b rest ih =>
    rw [landLate, ih]
    split
    · next hb =>
      refine Memory.read_write_ne _ _ _ _ ?_
      rintro rfl
      simp [hb] at ha
    · rfl

/-- With no race in progress, settling the overlap does no more than land stores on their way. -/
theorem settleOverlap_of_no_race {p : Option Span} {s : State} (ho : s.overlap = []) (t : State) :
    settleOverlap p s t =
      { t with
        mem := landLate s.serial p (s.visibility.unfenced ++ s.visibility.uncleaned) t.mem, overlap := [] } := by
  simp [settleOverlap, settleRaces, ho]

/-- With no race in progress, a CMD write leaves a byte that its command does not write as it was, to memory and to a host
load. -/
theorem step_commandWrite_elsewhere {s : State} {w : Word} {rest : List BusEvent} {a : Nat} {P : WrittenSpan → Prop}
    (hp : s.pending = .write 0x00 8 w :: rest) (ho : s.overlap = []) (ha : spanHolds (wordSpan w s) a = false)
    (h : SpansAt s a P) :
    ∃ t, step s = .next t ∧ t.pending = rest ∧ t.platform = s.platform ∧ t.mem.read a = s.mem.read a ∧
      t.answers = s.answers ++ [.completed] ∧ SpansAt t a P := by
  rw [← wordSpan_congr (s := s) (t := takeUp rest s) w rfl rfl rfl rfl] at ha
  obtain ⟨t, hacc⟩ := acceptWord_completes w (takeUp rest s)
  obtain ⟨hplat, hpend, -, hvis, hans, -⟩ := acceptWord_sameSurroundings hacc
  have hsettle := settleOverlap_of_no_race (p := wordSpan w (takeUp rest s)) (s := takeUp rest s) ho t
  refine ⟨_, step_commandWrite hp hacc, ?_, ?_, ?_, ?_, ?_⟩
  · rw [completeCommand_pending, hpend, takeUp_pending]
  · rw [completeCommand_platform, hplat, takeUp_platform]
  · rw [completeCommand_mem, hsettle, read_landLate_outside _ _ _ ha, acceptWord_mem_outside hacc ha, takeUp_mem]
  · rw [completeCommand_answers, hsettle, hans, takeUp_answers]
  · refine spansAt_markWritten (s := settleOverlap _ _ _) ha ?_
    rw [hsettle, SpansAt, hvis]
    exact h

theorem run_commandWrite_fence_maintain_load {s : State} {w addr : Word} {rest : List BusEvent}
    (hp : s.pending = .write 0x00 8 w :: .fence :: .maintain :: .memory (.load addr) :: rest)
    (hb : inRegisterBlock s.platform addr.toNat = false) (ho : s.overlap = [])
    (hw : spanHolds (wordSpan w s) addr.toNat = false) (h : SpansAt s addr.toNat fun x => x.posted = false) :
    ∃ t, Sys2Proof.core.run 4 s = .next t ∧
      t.answers = s.answers ++ [.completed, .loaded (s.mem.read addr.toNat)] := by
  obtain ⟨t, hstep, hpend, hplat, hmem, hans, hspans⟩ := step_commandWrite_elsewhere hp ho hw h
  obtain ⟨u, hrun, hloaded⟩ := run_fence_maintain_load hpend (hplat ▸ hb) hspans
  refine ⟨u, (run_succ hstep 3).trans hrun, ?_⟩
  rw [hloaded, hans, hmem, List.append_assoc, List.singleton_append]

/-! ### A host store between the command and the load -/

theorem run_store_load {s : State} {addr : Word} {v : Byte} {rest : List BusEvent}
    (hp : s.pending = .memory (.store addr v) :: .memory (.load addr) :: rest)
    (hb : inRegisterBlock s.platform addr.toNat = false) (hwf : s.mem.wf = true) :
    ∃ t, Sys2Proof.core.run 2 s = .next t ∧ t.answers = s.answers ++ [.loaded v] := by
  have hread : (s.mem.write addr.toNat v).read addr.toNat = v := Memory.read_write_same _ 0 _ _ hwf
  obtain ⟨t, hstep, -, hans⟩ := step_load_seen
    (s := hostStore addr.toNat v (takeUp (.memory (.load addr) :: rest) s)) rfl hb (by simp)
  refine ⟨t, (run_succ (step_store hp hb) 1).trans (run_one hstep), ?_⟩
  rw [hans, hostStore_mem, takeUp_mem, hread, hostStore_answers, takeUp_answers]

theorem run_store_load_hidden {s : State} {other addr : Word} {v : Byte} {rest : List BusEvent}
    (hp : s.pending = .memory (.store other v) :: .memory (.load addr) :: rest)
    (hbo : inRegisterBlock s.platform other.toNat = false) (hb : inRegisterBlock s.platform addr.toNat = false)
    (hne : other ≠ addr) (h : unseen s addr.toNat = true) :
    ∃ t, Sys2Proof.core.run 2 s = .next t ∧
      t.answers = s.answers ++ [.loaded (Config.unseenByte (s.serial + 2) addr.toNat)] := by
  have hne' : addr.toNat ≠ other.toNat := fun he => hne (BitVec.eq_of_toNat_eq he.symm)
  have hhidden : unseen (takeUp (.memory (.load addr) :: rest) s) addr.toNat = true := h
  obtain ⟨t, hstep, hans⟩ := step_load_hidden
    (s := hostStore other.toNat v (takeUp (.memory (.load addr) :: rest) s)) rfl hb (by simp [hhidden, hne'])
  exact ⟨t, (run_succ (step_store hp hbo) 1).trans (run_one hstep), hans⟩

/-- Settles O60: a load gives what memory holds where no span that covers its byte waits for anything, and each of the
host's interactions ends one of the waits. -/
theorem hostLoadsSeeCompletedCommands : Obligations.HostLoadsSeeCompletedCommands :=
  ⟨fun _ _ _ _ hp hal hin hb => run_read_then hp hal hin (run_fence_maintain_load rfl hb (spansAt_read_posted _ _ _)),
    fun _ _ _ _ _ hp hal hin hb ho hw => run_read_then hp hal hin
      (run_commandWrite_fence_maintain_load rfl hb ho hw (spansAt_read_posted _ _ _)),
    fun _ _ _ hp hb h => step_load_seen hp hb (unseen_eq_false_of_spansAt h),
    fun _ _ _ _ hp hal hin hb h => run_read_then hp hal hin
      (run_load rfl hb (spansAt_hostRead (fun _ hx => ⟨rfl, hx⟩) h)),
    fun _ _ _ hp hb h => run_fence_load hp hb h,
    fun _ _ _ hp hb h => run_maintain_load hp hb h,
    fun _ _ _ _ hp hb hx hh hc => step_load_hidden hp hb (unseen_eq_true_of_mem hx hh hc),
    fun _ _ _ _ hp hb hwf => run_store_load hp hb hwf,
    fun _ _ _ _ _ _ hp hbo hb hne hx hh hc => run_store_load_hidden hp hbo hb hne (unseen_eq_true_of_mem hx hh hc)⟩

end Sys2Proof.Machine
end

section
/-! Command words (30_encoding.md): a word is its fields put side by side, so decoding and encoding are inverse (R90,
R91, R94, R97); the rows of the opcode map (R94); which words are illegal and what they do (R95). -/

namespace Sys2Proof

/-! ### The fields of a word -/

/-- A word of five fields, from the top bit down: the reserved bits of INIT, DELIM, RATE, W[7:4] and OP (R90). -/
theorem fields_append (w : Word) :
    w.extractLsb' 24 40 ++ delimField w ++ rateField w ++ (w.extractLsb' 4 4 ++ opField w) = w := by
  have hlow : w.extractLsb' 4 4 ++ opField w = w.extractLsb' 0 8 :=
    BitVec.extractLsb'_append_extractLsb'_eq_extractLsb' rfl
  have hdelim : w.extractLsb' 24 40 ++ delimField w = w.extractLsb' 16 48 :=
    BitVec.extractLsb'_append_extractLsb'_eq_extractLsb' rfl
  have hrate : w.extractLsb' 16 48 ++ rateField w = w.extractLsb' 8 56 :=
    BitVec.extractLsb'_append_extractLsb'_eq_extractLsb' rfl
  rw [hlow, hdelim, hrate]
  exact (BitVec.extractLsb'_append_extractLsb'_eq_extractLsb' rfl).trans BitVec.extractLsb'_eq_self

theorem aboveOp_append_opField (w : Word) : w.extractLsb' 4 60 ++ opField w = w :=
  (BitVec.extractLsb'_append_extractLsb'_eq_extractLsb' rfl).trans BitVec.extractLsb'_eq_self

theorem opField_toNat (w : Word) : (opField w).toNat = w.toNat % 16 := by
  simp [opField]

theorem opField_eq_one_iff (w : Word) : opField w = 0x1#4 ↔ w.toNat % 16 = 1 := by
  rw [← BitVec.toNat_inj, opField_toNat]
  rfl

/-- A field is not 0 when one of its bits is set. -/
theorem extractLsb'_ne_zero_iff (w : Word) (start len : Nat) :
    w.extractLsb' start len ≠ 0#len ↔ ∃ k, start ≤ k ∧ k < start + len ∧ w.getLsbD k = true := by
  rw [Ne, BitVec.eq_of_getLsbD_eq_iff]
  constructor
  · intro h
    push Not at h
    obtain ⟨i, hi, hbit⟩ := h
    exact ⟨start + i, by omega, by omega, by simpa [hi] using hbit⟩
  · rintro ⟨k, hle, hlt, hbit⟩ h
    have hk : k - start < len := by omega
    simpa [hk, hle, hbit] using h (k - start) hk

theorem zeroAboveOp_eq_true_iff (w : Word) : zeroAboveOp w = true ↔ w.extractLsb' 4 60 = 0#60 := beq_iff_eq

theorem zeroAboveOp_eq_false_iff (w : Word) :
    zeroAboveOp w = false ↔ ∃ k, 4 ≤ k ∧ k < 64 ∧ w.getLsbD k = true := by
  rw [← Bool.not_eq_true, zeroAboveOp_eq_true_iff]
  exact extractLsb'_ne_zero_iff w 4 60

theorem initBitsClear_eq_true_iff (w : Word) :
    initBitsClear w = true ↔ w.extractLsb' 4 4 = 0#4 ∧ w.extractLsb' 24 40 = 0#40 := by
  simp only [initBitsClear, Bool.and_eq_true, beq_iff_eq]

theorem initBitsClear_eq_false_iff (w : Word) :
    initBitsClear w = false ↔ ∃ k, ((4 ≤ k ∧ k < 8) ∨ (24 ≤ k ∧ k < 64)) ∧ w.getLsbD k = true := by
  rw [← Bool.not_eq_true, initBitsClear_eq_true_iff, not_and_or, ← Ne, ← Ne, extractLsb'_ne_zero_iff,
    extractLsb'_ne_zero_iff, ← exists_or]
  simp only [or_and_right, and_assoc, Nat.reduceAdd]

/-! ### The decoder, case by case -/

theorem decode_init {w : Word} (hop : opField w = 0x1#4) (hclear : initBitsClear w = true) :
    decode w = .ok (.init (rateField w) (delimField w)) := by
  simp [decode, hop, hclear]

theorem decode_initReservedBits {w : Word} (hop : opField w = 0x1#4) (hclear : initBitsClear w = false) :
    decode w = .error .initReservedBits := by
  simp [decode, hop, hclear]

theorem decode_commandOfOp {w : Word} (hop : opField w ≠ 0x1#4) (hzero : zeroAboveOp w = true) :
    decode w = commandOfOp (opField w) := by
  simp [decode, hop, hzero]

theorem decode_bitsAboveOp {w : Word} (hop : opField w ≠ 0x1#4) (hzero : zeroAboveOp w = false) :
    decode w = .error .bitsAboveOp := by
  simp [decode, hop, hzero]

/-! ### Decoding and encoding are inverse -/

theorem opField_encode_init (rate delim : Byte) : opField (encode (.init rate delim)) = 0x1#4 := by
  rw [opField, encode, BitVec.extractLsb'_append_eq_of_add_le (by decide)]
  rfl

theorem rateField_encode_init (rate delim : Byte) : rateField (encode (.init rate delim)) = rate := by
  rw [rateField, encode, BitVec.extractLsb'_append_eq_of_le (by decide),
    BitVec.extractLsb'_append_eq_of_add_le (by decide)]
  exact BitVec.extractLsb'_eq_self

theorem delimField_encode_init (rate delim : Byte) : delimField (encode (.init rate delim)) = delim := by
  rw [delimField, encode, BitVec.extractLsb'_append_eq_of_le (by decide),
    BitVec.extractLsb'_append_eq_of_le (by decide), BitVec.extractLsb'_append_eq_of_add_le (by decide)]
  exact BitVec.extractLsb'_eq_self

theorem initBitsClear_encode_init (rate delim : Byte) : initBitsClear (encode (.init rate delim)) = true := by
  rw [initBitsClear_eq_true_iff, encode]
  constructor
  · rw [BitVec.extractLsb'_append_eq_of_add_le (by decide)]
    rfl
  · rw [BitVec.extractLsb'_append_eq_of_le (by decide), BitVec.extractLsb'_append_eq_of_le (by decide),
      BitVec.extractLsb'_append_eq_of_le (by decide)]
    rfl

/-- A command's word decodes to the command. -/
theorem decode_encode (i : Instr) : decode (encode i) = .ok i := by
  cases i with
  | init rate delim =>
    rw [decode_init (opField_encode_init rate delim) (initBitsClear_encode_init rate delim), rateField_encode_init,
      delimField_encode_init]
  | nop | absorb | finalize | squeeze | permute | reset => rfl

/-- A word with INIT's OP and reserved bits is the word of an INIT with its own RATE and DELIM. -/
theorem eq_encode_init {w : Word} (hop : opField w = 0x1#4) (hclear : initBitsClear w = true) :
    w = encode (.init (rateField w) (delimField w)) := by
  obtain ⟨hlow, hhigh⟩ := (initBitsClear_eq_true_iff w).mp hclear
  have hw := fields_append w
  rw [hlow, hhigh, hop] at hw
  exact hw.symm

/-- The word of a command without operands is its OP under zeros. -/
theorem encode_of_commandOfOp {op : BitVec 4} {i : Instr} (h : commandOfOp op = .ok i) : 0#60 ++ op = encode i := by
  unfold commandOfOp at h
  split_ifs at h <;> cases h <;> subst op <;> rfl

/-- A word that decodes is its command's word. -/
theorem eq_encode_of_decode {w : Word} {i : Instr} (h : decode w = .ok i) : w = encode i := by
  by_cases hop : opField w = 0x1#4
  · cases hclear : initBitsClear w with
    | true =>
      rw [decode_init hop hclear] at h
      cases h
      exact eq_encode_init hop hclear
    | false => simp [decode_initReservedBits hop hclear] at h
  · cases hzero : zeroAboveOp w with
    | true =>
      rw [decode_commandOfOp hop hzero] at h
      rw [← encode_of_commandOfOp h, ← (zeroAboveOp_eq_true_iff w).mp hzero, aboveOp_append_opField]
    | false => simp [decode_bitsAboveOp hop hzero] at h

/-- Settles O1: each direction is one of the two round trips. -/
theorem decodeEncodeAgree : Obligations.DecodeEncodeAgree := fun _ i =>
  ⟨eq_encode_of_decode, fun h => h ▸ decode_encode i⟩

/-- Settles O4: each word is the word of its command. -/
theorem wordsOfTheSpecDecode : Obligations.WordsOfTheSpecDecode :=
  ⟨decode_encode .nop, decode_encode (.init 136 0x06), decode_encode (.init 168 0x1F), decode_encode .absorb,
    decode_encode .finalize, decode_encode .squeeze, decode_encode .permute, decode_encode .reset⟩

/-! ### The rows of the opcode map -/

/-- Every command's word is matched by the row that bears its mnemonic. -/
theorem row_of_encode (i : Instr) : ∃ r ∈ opcodeMap, r.mnemonic = i.mnemonic ∧ encode i &&& r.mask = r.bits := by
  have hlegal : Laws.LegalWord.Statement i := by
    cases i with
    | nop => exact Laws.LegalWord.nop
    | init rate delim => exact Laws.LegalWord.init rate delim
    | absorb => exact Laws.LegalWord.absorb
    | finalize => exact Laws.LegalWord.finalize
    | squeeze => exact Laws.LegalWord.squeeze
    | permute => exact Laws.LegalWord.permute
    | reset => exact Laws.LegalWord.reset
  obtain ⟨r, hr, hname, hmatch⟩ := hlegal
  exact ⟨r, hr, hname, beq_iff_eq.mp hmatch⟩

/-- A field that the mask keeps whole is the field of the matched bits. -/
theorem extractLsb'_of_masked {w mask bits : Word} {start len : Nat} (h : w &&& mask = bits)
    (hmask : mask.extractLsb' start len = BitVec.allOnes len) :
    w.extractLsb' start len = bits.extractLsb' start len := by
  rw [← h, BitVec.extractLsb'_and, hmask, BitVec.and_allOnes]

/-- INIT's row matches the words with INIT's OP and reserved bits. -/
theorem decode_of_initRow {w : Word} (h : w &&& 0xFFFFFFFFFF0000FF = 0x0000000000000001) :
    decode w = .ok (.init (rateField w) (delimField w)) :=
  decode_init (extractLsb'_of_masked h rfl)
    ((initBitsClear_eq_true_iff w).mpr ⟨extractLsb'_of_masked h rfl, extractLsb'_of_masked h rfl⟩)

/-- The row of a command without operands matches its word alone. -/
theorem decode_of_fullMask {w : Word} (i : Instr) (h : w &&& 0xFFFFFFFFFFFFFFFF = encode i) : decode w = .ok i := by
  have hw : w = encode i := BitVec.and_allOnes.symm.trans h
  rw [hw, decode_encode]

/-- A word that a row matches decodes to a command with the row's mnemonic. -/
theorem decode_of_row {w : Word} {r : OpcodeRow} (hr : r ∈ opcodeMap) (h : w &&& r.mask = r.bits) :
    ∃ i, decode w = .ok i ∧ i.mnemonic = r.mnemonic := by
  simp only [opcodeMap, List.mem_cons, List.not_mem_nil, or_false] at hr
  rcases hr with rfl | rfl | rfl | rfl | rfl | rfl | rfl
  · exact ⟨.nop, decode_of_fullMask .nop h, rfl⟩
  · exact ⟨_, decode_of_initRow h, rfl⟩
  · exact ⟨.absorb, decode_of_fullMask .absorb h, rfl⟩
  · exact ⟨.finalize, decode_of_fullMask .finalize h, rfl⟩
  · exact ⟨.squeeze, decode_of_fullMask .squeeze h, rfl⟩
  · exact ⟨.permute, decode_of_fullMask .permute h, rfl⟩
  · exact ⟨.reset, decode_of_fullMask .reset h, rfl⟩

/-- Settles O2: a word that decodes is its command's word, which that command's row matches; and back row by row. -/
theorem legalWordsAreTheOpcodeMaps : Obligations.LegalWordsAreTheOpcodeMaps := by
  refine ⟨fun w i h => ?_, fun w r hr h => decode_of_row hr h, rfl, rfl⟩
  rw [eq_encode_of_decode h]
  exact row_of_encode i

/-! ### Illegal words -/

theorem isOk_eq_false_iff (e : Except IllegalWord Instr) : e.isOk = false ↔ ∀ i, e ≠ .ok i := by
  cases e with
  | ok i => simp [Except.isOk, Except.toBool]
  | error _ => simp [Except.isOk, Except.toBool]

/-- The reserved values of OP, and INIT's, name no command without operands. -/
theorem commandOfOp_isOk_eq_false_iff (op : BitVec 4) :
    (commandOfOp op).isOk = false ↔ op = 0x1#4 ∨ (6 ≤ op.toNat ∧ op.toNat ≤ 14) := by
  revert op
  decide

/-- The three ways a word is illegal (R95 (a) to (c)). -/
theorem decode_illegal_iff (w : Word) :
    (∀ i, decode w ≠ .ok i) ↔
      (6 ≤ w.toNat % 16 ∧ w.toNat % 16 ≤ 14) ∨ (w.toNat % 16 ≠ 1 ∧ zeroAboveOp w = false) ∨
        (w.toNat % 16 = 1 ∧ initBitsClear w = false) := by
  by_cases hop : opField w = 0x1#4
  · have hone := (opField_eq_one_iff w).mp hop
    cases hclear : initBitsClear w with
    | true => simp [decode_init hop hclear, hone]
    | false => simp [decode_initReservedBits hop hclear, hone]
  · have hone := (opField_eq_one_iff w).not.mp hop
    cases hzero : zeroAboveOp w with
    | true =>
      rw [decode_commandOfOp hop hzero, ← isOk_eq_false_iff, commandOfOp_isOk_eq_false_iff, opField_toNat]
      simp [hop, hone]
    | false => simp [decode_bitsAboveOp hop hzero, hone]

end Sys2Proof

namespace Sys2Proof.Machine

/-- A word that decodes is accepted as its command. -/
theorem acceptWord_of_decode {w : Word} {i : Instr} (h : decode w = .ok i) (s : State) : acceptWord w s = exec i s := by
  rw [acceptWord, h]

/-- A word that decodes to no command is accepted as an illegal one. -/
theorem acceptWord_of_illegal {w : Word} (h : ∀ i, decode w ≠ .ok i) (s : State) :
    acceptWord w s = illegalCommand w s := by
  unfold acceptWord
  split
  · next i hd => exact absurd hd (h i)
  · rfl

theorem illegalCommand_faults (w : Word) {s : State} (h : s.faults.err = false) :
    illegalCommand w s = .next (raiseFault w .illegalCommand 0 s) := runCommand_faults _ _ _ _ _ _ h rfl

theorem illegalCommand_locked (w : Word) {s : State} (h : s.faults.err = true) : illegalCommand w s = .next s :=
  runCommand_locked _ _ _ _ h

/-- An INIT with an illegal rate raises BAD_RATE (41_sponge.md R160). -/
theorem exec_init_badRate {rate : Byte} (delim : Byte) {s : State} (hrate : rate.toNat = 0 ∨ 200 < rate.toNat)
    (h : s.faults.err = false) :
    exec (.init rate delim) s = .next (raiseFault (encode (.init rate delim)) .badRate 0 s) :=
  exec_faults h (if_pos hrate)

/-- Settles O3: the decoder's error cases bit by bit, and the shared frame of the commands without and with the
lockout. -/
theorem illegalWordsFaultOrAreIgnored : Obligations.IllegalWordsFaultOrAreIgnored := by
  refine ⟨fun w => ?_, fun w s hw he => ?_, fun w s hw he => ?_,
    fun rate delim hrate => ⟨decode_encode _, fun s he => ?_⟩⟩
  · rw [← zeroAboveOp_eq_false_iff, ← initBitsClear_eq_false_iff]
    exact decode_illegal_iff w
  · rw [acceptWord_of_illegal hw, illegalCommand_faults w he, raiseFault]
  · rw [acceptWord_of_illegal hw, illegalCommand_locked w he]
  · rw [acceptWord_of_decode (decode_encode _), exec_init_badRate delim hrate he, raiseFault]

end Sys2Proof.Machine
end

section
/-! The steps of the permutation, lane by lane (40_permutation.md R120 to R128). Lanes are read at any x and y, mod 5,
so that no lemma carries a bound. -/

namespace Sys2Proof.Machine

/-! ### Lanes -/

theorem laneAt_congr (A : Lanes) {x x' y y' : Nat} (hx : x % 5 = x' % 5) (hy : y % 5 = y' % 5) :
    laneAt A x y = laneAt A x' y' := by
  rw [laneAt, hx, hy, laneAt]

theorem laneAt_of_constant {A : Lanes} {v : Word} (h : ∀ i, i < 25 → lane A i = v) (x y : Nat) : laneAt A x y = v :=
  h _ (by omega)

theorem laneAt_xorLanes (A B : Lanes) (x y : Nat) : laneAt (xorLanes A B) x y = laneAt A x y ^^^ laneAt B x y := by
  rw [xorLanes, laneAt_lanesOfXY, laneAt_mod, laneAt_mod]

theorem rotl64_xor (v w : Word) (n : Nat) : rotl64 (v ^^^ w) n = rotl64 v n ^^^ rotl64 w n := by
  refine BitVec.eq_of_getLsbD_eq fun i hi => ?_
  simp only [getLsbD_rotl64 _ _ hi, BitVec.getLsbD_xor]

/-! ### Theta (R122) -/

theorem columnParity_congr (A : Lanes) {x x' : Nat} (h : x % 5 = x' % 5) : columnParity A x = columnParity A x' := by
  simp only [columnParity, laneAt, h]

theorem thetaMask_mod (A : Lanes) (x : Nat) : thetaMask A (x % 5) = thetaMask A x := by
  rw [thetaMask, columnParity_congr A (Nat.mod_add_mod x 5 4), columnParity_congr A (Nat.mod_add_mod x 5 1), thetaMask]

theorem laneAt_theta (A : Lanes) (x y : Nat) : laneAt (theta A) x y = laneAt A x y ^^^ thetaMask A x := by
  rw [theta, laneAt_lanesOfXY, laneAt_mod, thetaMask_mod]

theorem thetaMask_of_parities_zero {A : Lanes} (h : ∀ x, x < 5 → columnParity A x = 0) (x : Nat) :
    thetaMask A x = 0 := by
  have hall : ∀ z, columnParity A z = 0 := fun z =>
    (columnParity_congr A (Nat.mod_mod z 5)).symm.trans (h (z % 5) (Nat.mod_lt z (by decide)))
  rw [thetaMask, hall, hall]
  rfl

/-- Settles O14: the mask is the two parities, and it is 0 where every parity is. -/
theorem thetaXorsTwoColumnParities : Obligations.ThetaXorsTwoColumnParities := by
  refine ⟨fun A x y _ _ => ?_, fun A h => lanes_ext_xy _ _ fun x y _ _ => ?_⟩
  · rw [laneAt_theta, thetaMask, ← BitVec.xor_assoc]
    rfl
  · rw [laneAt_theta, thetaMask_of_parities_zero h, xor_zero]

theorem columnParity_xorLanes (A B : Lanes) (x : Nat) :
    columnParity (xorLanes A B) x = columnParity A x ^^^ columnParity B x := by
  simp only [columnParity, laneAt_xorLanes]
  ac_rfl

theorem thetaMask_xorLanes (A B : Lanes) (x : Nat) :
    thetaMask (xorLanes A B) x = thetaMask A x ^^^ thetaMask B x := by
  simp only [thetaMask, columnParity_xorLanes, rotl64_xor]
  ac_rfl

theorem theta_xorLanes (A B : Lanes) : theta (xorLanes A B) = xorLanes (theta A) (theta B) := by
  refine lanes_ext_xy _ _ fun x y _ _ => ?_
  simp only [laneAt_theta, laneAt_xorLanes, thetaMask_xorLanes]
  ac_rfl

/-! ### RhoPi (R124) -/

theorem rotationOffset_congr {x x' y y' : Nat} (hx : x % 5 = x' % 5) (hy : y % 5 = y' % 5) :
    rotationOffset x y = rotationOffset x' y' := by
  rw [rotationOffset, hx, hy, rotationOffset]

/-- RhoPi by its destination. -/
theorem laneAt_rhoPi (A : Lanes) (x y : Nat) :
    laneAt (rhoPi A) x y = rotl64 (laneAt A (x + 3 * y) x) (rotationOffset (x + 3 * y) x) := by
  have hx : (x % 5 + 3 * (y % 5)) % 5 = (x + 3 * y) % 5 := by omega
  rw [rhoPi, laneAt_lanesOfXY, laneAt_congr A hx (Nat.mod_mod x 5), rotationOffset_congr hx (Nat.mod_mod x 5)]

/-- RhoPi by its source: 3 · (2x + 3y) + y is x mod 5. -/
theorem laneAt_rhoPi_moved (A : Lanes) (x y : Nat) :
    laneAt (rhoPi A) y (2 * x + 3 * y) = rotl64 (laneAt A x y) (rotationOffset x y) := by
  have hx : (y + 3 * (2 * x + 3 * y)) % 5 = x % 5 := by omega
  rw [laneAt_rhoPi, laneAt_congr A hx rfl, rotationOffset_congr hx rfl]

/-- The index of the lane that RhoPi moves to index i. -/
def rhoPiSource (i : Nat) : Nat := (i % 5 + 3 * (i / 5)) % 5 + 5 * (i % 5)

theorem lane_rhoPi (A : Lanes) {i : Nat} (h : i < 25) :
    lane (rhoPi A) i = rotl64 (lane A (rhoPiSource i)) (rotationOffsets.getD (rhoPiSource i) 0) := by
  rw [lane_eq_laneAt _ i h, laneAt_rhoPi, laneAt, rotationOffset, Nat.mod_mod, rhoPiSource]

/-- The table of source lanes of R124 is the map by destination. -/
theorem rhoPiSources : [0, 6, 12, 18, 24, 3, 9, 10, 16, 22, 1, 7, 13, 19, 20, 4, 5, 11, 17, 23, 2, 8, 14, 15, 21] =
    (List.range 25).map rhoPiSource := by decide

/-- Settles O15: RhoPi by source and by destination, its table, and the inverse (x + 3y, x) of its position map. -/
theorem rhoPiMovesEveryLane : Obligations.RhoPiMovesEveryLane := by
  refine ⟨fun A x y _ _ => laneAt_rhoPi_moved A x y, fun A x y _ _ => laneAt_rhoPi A x y, fun A i j h => ?_,
    fun x y x' y' _ _ _ _ hy hx => ?_, fun x y _ _ => ⟨(x + 3 * y) % 5, x, ?_⟩, fun A => ?_⟩
  · rw [rhoPiSources] at h
    obtain ⟨hi, rfl⟩ : i < 25 ∧ rhoPiSource i = j := by simpa [List.getElem?_eq_some_iff] using h
    exact lane_rhoPi A hi
  · omega
  · omega
  · rw [laneAt_rhoPi]
    exact rotl64_zero _

theorem rhoPi_xorLanes (A B : Lanes) : rhoPi (xorLanes A B) = xorLanes (rhoPi A) (rhoPi B) := by
  refine lanes_ext_xy _ _ fun x y _ _ => ?_
  simp only [laneAt_rhoPi, laneAt_xorLanes, rotl64_xor]

/-! ### Chi (R125) -/

theorem laneAt_chi (B : Lanes) (x y : Nat) :
    laneAt (chi B) x y = laneAt B x y ^^^ (~~~ laneAt B (x + 1) y &&& laneAt B (x + 2) y) := by
  rw [chi, laneAt_lanesOfXY, laneAt_mod, laneAt_congr B (Nat.mod_add_mod x 5 1) (Nat.mod_mod y 5),
    laneAt_congr B (Nat.mod_add_mod x 5 2) (Nat.mod_mod y 5)]

/-- Chi keeps every constant lane file: no bit of a lane is set where its complement is. -/
theorem chi_of_constant {B : Lanes} {v : Word} (h : ∀ i, i < 25 → lane B i = v) : chi B = B := by
  refine lanes_ext_xy _ _ fun x y _ _ => ?_
  rw [laneAt_chi]
  simp only [laneAt_of_constant h]
  simp

/-- Settles O16: Chi's formula with the columns mod 5, and the two constant states. -/
theorem chiReadsTheInputRow : Obligations.ChiReadsTheInputRow := by
  refine ⟨fun B x y _ _ => ?_, fun B h => chi_of_constant h, fun B h => chi_of_constant h⟩
  rw [laneAt_chi, laneAt_congr B (Nat.mod_mod (x + 1) 5) rfl, laneAt_congr B (Nat.mod_mod (x + 2) 5) rfl]

/-- The lane file whose lane (i, 0) is 1 and every other lane 0. -/
def singleLane (i : Nat) : Lanes := lanesOfXY fun x y => if x = i ∧ y = 0 then 1 else 0

/-- Chi's product of lanes (1, 0) and (2, 0): in the second file alone lane (2, 0) reaches lane (0, 0), in the sum lane
(1, 0) stops it. -/
theorem chi_not_linear :
    chi (xorLanes (singleLane 1) (singleLane 2)) ≠ xorLanes (chi (singleLane 1)) (chi (singleLane 2)) := by
  intro h
  have h0 := congrArg (fun A => laneAt A 0 0) h
  simp [laneAt_chi, laneAt_xorLanes, singleLane, laneAt_lanesOfXY] at h0

/-! ### Iota (R126) -/

theorem laneAt_iota (A : Lanes) (ir x y : Nat) :
    laneAt (iota A ir) x y = laneAt A x y ^^^ if x % 5 = 0 ∧ y % 5 = 0 then roundConstant ir else 0 := by
  rw [iota, laneAt_lanesOfXY, laneAt_mod]
  split
  · next h => rw [laneAt_congr A (y := 0) h.1.symm h.2.symm]
  · rw [xor_zero]

/-- Settles O18: what Iota XORs in is the round constant at lane (0, 0) and 0 elsewhere. -/
theorem iotaTouchesLaneZero : Obligations.IotaTouchesLaneZero := by
  refine fun A ir => ⟨laneAt_iota A ir 0 0, fun x y hx hy hne => ?_⟩
  have hxy : ¬ (x % 5 = 0 ∧ y % 5 = 0) := by
    rw [Nat.mod_eq_of_lt hx, Nat.mod_eq_of_lt hy, ← Prod.mk_inj]
    exact hne
  rw [laneAt_iota, if_neg hxy, xor_zero]

theorem xor_xor_xor_cancel (a b m : Word) : (a ^^^ m) ^^^ (b ^^^ m) = a ^^^ b := by
  rw [xor_assoc, xor_comm b m, xor_cancel_left]

/-- What Iota XORs in does not depend on the lanes, so it cancels. -/
theorem xorLanes_iota (A B : Lanes) (ir : Nat) : xorLanes (iota A ir) (iota B ir) = xorLanes A B := by
  refine lanes_ext_xy _ _ fun x y _ _ => ?_
  rw [laneAt_xorLanes, laneAt_iota, laneAt_iota, laneAt_xorLanes, xor_xor_xor_cancel]

/-- Settles O17: linearity step by step, and Chi's counterexample. -/
theorem chiIsTheOnlyNonlinearStep : Obligations.ChiIsTheOnlyNonlinearStep :=
  ⟨theta_xorLanes, rhoPi_xorLanes, xorLanes_iota, singleLane 1, singleLane 2, chi_not_linear⟩

/-! ### The rounds and the tables (R120, R121, R123, R127, R128) -/

/-- Settles O13: the state before round ir is the fold of the rounds below it. -/
theorem permuteRunsTheRounds : Obligations.PermuteRunsTheRounds := by
  refine fun A => ⟨fun ir => (List.range ir).foldl keccakRound A, rfl, fun ir _ => ?_, rfl⟩
  simp only [List.range_succ, List.foldl_append, List.foldl_cons, List.foldl_nil, keccakRound]

/-- Settles O19: both tables are finite, and each generating rule is evaluated at every index. -/
theorem tablesFollowTheirGenerators : Obligations.TablesFollowTheirGenerators :=
  ⟨by decide, by decide +kernel, by decide⟩

end Sys2Proof.Machine
end

section
/-! Permute is a bijection (40_permutation.md R129 (a)): each step is injective, and there are finitely many states. -/

namespace Sys2Proof.Machine

/-! ### Rotation and the steps that act lane by lane -/

theorem rotl64_rotl64 (v : Word) (m n : Nat) : rotl64 (rotl64 v m) n = rotl64 v (m + n) := by
  refine BitVec.eq_of_getLsbD_eq fun i hi => ?_
  have hidx : ((i + 64 - n % 64) % 64 + 64 - m % 64) % 64 = (i + 64 - (m + n) % 64) % 64 := by omega
  rw [getLsbD_rotl64 _ _ hi, getLsbD_rotl64 _ _ (Nat.mod_lt _ (by decide)), getLsbD_rotl64 _ _ hi, hidx]

theorem rotl64_of_mod_eq_zero (v : Word) {n : Nat} (h : n % 64 = 0) : rotl64 v n = v := by
  rw [rotl64, h]
  exact rotl64_zero v

/-- Rotating on by 63 · n completes whole turns. -/
theorem rotl64_injective (n : Nat) : Function.Injective (rotl64 · n) :=
  Function.LeftInverse.injective (g := (rotl64 · (63 * n))) fun v =>
    (rotl64_rotl64 v n (63 * n)).trans (rotl64_of_mod_eq_zero v (by omega))

theorem iota_injective (ir : Nat) : Function.Injective (iota · ir) := by
  refine fun A B h => lanes_ext_xy _ _ fun x y _ _ => ?_
  have hxy := congrArg (laneAt · x y) h
  simpa only [laneAt_iota, BitVec.xor_left_inj] using hxy

/-- Every lane is the source of a lane of RhoPi's result. -/
theorem rhoPi_injective : Function.Injective rhoPi := by
  refine fun A B h => lanes_ext_xy _ _ fun x y _ _ => rotl64_injective (rotationOffset x y) ?_
  simpa only [laneAt_rhoPi_moved] using congrArg (laneAt · y (2 * x + 3 * y)) h

/-! ### Chi -/

/-- Chi's inverse on a row of five lanes. -/
def chiInverse (B : Lanes) : Lanes :=
  lanesOfXY fun x y => laneAt B x y ^^^
    (~~~ laneAt B (x + 1) y &&& (laneAt B (x + 2) y ^^^ (~~~ laneAt B (x + 3) y &&& laneAt B (x + 4) y)))

/-- The inverse in one bit of a row: b0 to b4 are Chi's results from a0 to a4. -/
theorem chi_inverse_bit : ∀ a0 a1 a2 a3 a4 : Bool,
    let b0 := a0 ^^ (!a1 && a2)
    let b1 := a1 ^^ (!a2 && a3)
    let b2 := a2 ^^ (!a3 && a4)
    let b3 := a3 ^^ (!a4 && a0)
    let b4 := a4 ^^ (!a0 && a1)
    (b0 ^^ (!b1 && (b2 ^^ (!b3 && b4)))) = a0 := by decide

theorem chiInverse_chi : Function.LeftInverse chiInverse chi := by
  refine fun A => lanes_ext_xy _ _ fun x y hx hy => ?_
  have hfive : laneAt A (x + 5) y = laneAt A x y := laneAt_congr A (by omega) rfl
  have hsix : laneAt A (x + 6) y = laneAt A (x + 1) y := laneAt_congr A (by omega) rfl
  rw [chiInverse, laneAt_lanesOfXY, Nat.mod_eq_of_lt hx, Nat.mod_eq_of_lt hy]
  simp only [laneAt_chi, Nat.add_assoc, Nat.reduceAdd, hfive, hsix]
  refine BitVec.eq_of_getLsbD_eq fun i hi => ?_
  simpa [hi] using chi_inverse_bit _ _ _ _ _

/-! ### Theta

Theta acts on the column parities by the map `parityMix 1` below. In characteristic 2 its cross terms cancel when it is
applied twice, so that `parityMix a` twice is `parityMix (2 * a)`; and `parityMix 64` rotates no lane. -/

/-- A column's parity, XORed with that of the column a to the left and with that of the column a to the right, rotated
left by a (a column to the left is four to the right). -/
def parityMix (a : Nat) (c : Nat → Word) (x : Nat) : Word := c x ^^^ c (x + 4 * a) ^^^ rotl64 (c (x + a)) a

/-- The five columns in a circle. -/
def FivePeriodic (c : Nat → Word) : Prop := ∀ x x', x % 5 = x' % 5 → c x = c x'

theorem fivePeriodic_columnParity (A : Lanes) : FivePeriodic (columnParity A) := fun _ _ h => columnParity_congr A h

/-- The mask of a column goes into each of its five lanes, so once into its parity. -/
theorem columnParity_theta (A : Lanes) : columnParity (theta A) = parityMix 1 (columnParity A) := by
  funext x
  have honce : columnParity (theta A) x = columnParity A x ^^^ thetaMask A x := by
    simp only [columnParity, laneAt_theta]
    generalize thetaMask A x = m
    simp [xor_assoc, xor_comm m]
  rw [honce, thetaMask, ← xor_assoc, parityMix]

theorem word_xor_left_comm (a b c : Word) : a ^^^ (b ^^^ c) = b ^^^ (a ^^^ c) := by ac_rfl

/-- The cross terms cancel in pairs. -/
theorem parityMix_parityMix {c : Nat → Word} (hc : FivePeriodic c) (a : Nat) :
    parityMix a (parityMix a c) = parityMix (2 * a) c := by
  funext x
  have hleft : c (x + 4 * a + a) = c x := hc _ _ (by omega)
  have hright : c (x + a + 4 * a) = c x := hc _ _ (by omega)
  simp only [parityMix, rotl64_xor, rotl64_rotl64, hleft, hright]
  rw [show x + 4 * a + 4 * a = x + 4 * (2 * a) by omega, show x + a + a = x + 2 * a by omega, ← two_mul]
  simp [xor_assoc, word_xor_left_comm]

/-- Two families of parities that parityMix a does not tell apart. -/
theorem parityMix_eq_double {c d : Nat → Word} (hc : FivePeriodic c) (hd : FivePeriodic d) {a : Nat}
    (h : parityMix a c = parityMix a d) : parityMix (2 * a) c = parityMix (2 * a) d := by
  rw [← parityMix_parityMix hc, ← parityMix_parityMix hd, h]

/-- 64 columns to the right are four, 256 are one, and 64 places are a whole turn. -/
theorem parityMix_64 {c : Nat → Word} (hc : FivePeriodic c) (x : Nat) :
    parityMix 64 c x = c x ^^^ c (x + 1) ^^^ c (x + 4) := by
  rw [parityMix, rotl64_of_mod_eq_zero _ rfl, hc (x + 4 * 64) (x + 1) (by omega), hc (x + 64) (x + 4) (by omega)]

/-- Three values of parityMix 64 hold column x once and every other column twice. -/
theorem parityMix_64_recovers {c : Nat → Word} (hc : FivePeriodic c) (x : Nat) :
    parityMix 64 c x ^^^ parityMix 64 c (x + 2) ^^^ parityMix 64 c (x + 3) = c x := by
  rw [parityMix_64 hc, parityMix_64 hc, parityMix_64 hc, hc (x + 2 + 4) (x + 1) (by omega),
    hc (x + 3 + 4) (x + 2) (by omega)]
  simp [xor_assoc, word_xor_left_comm]

/-- Six doublings lead from parityMix 1 to parityMix 64. -/
theorem parityMix_one_injective {c d : Nat → Word} (hc : FivePeriodic c) (hd : FivePeriodic d)
    (h : parityMix 1 c = parityMix 1 d) : c = d := by
  have double := @parityMix_eq_double c d hc hd
  have h64 : parityMix 64 c = parityMix 64 d := double (double (double (double (double (double h)))))
  funext x
  rw [← parityMix_64_recovers hc x, ← parityMix_64_recovers hd x, h64]

theorem theta_injective : Function.Injective theta := by
  intro A B h
  have hpar : columnParity A = columnParity B := by
    refine parityMix_one_injective (fivePeriodic_columnParity A) (fivePeriodic_columnParity B) ?_
    rw [← columnParity_theta, ← columnParity_theta, h]
  refine lanes_ext_xy _ _ fun x y _ _ => ?_
  have hxy := congrArg (laneAt · x y) h
  simpa only [laneAt_theta, thetaMask, hpar, BitVec.xor_left_inj] using hxy

/-! ### Permute -/

theorem keccakRound_injective (ir : Nat) : Function.Injective (keccakRound · ir) :=
  (iota_injective ir).comp (chiInverse_chi.injective.comp (rhoPi_injective.comp theta_injective))

theorem foldl_injective {α β : Type*} {f : α → β → α} (h : ∀ b, Function.Injective (f · b)) (l : List β) :
    Function.Injective (l.foldl f) := by
  induction l with
  | nil => exact Function.injective_id
  | cons b l ih => exact ih.comp (h b)

theorem finite_lanes : Finite Lanes :=
  Finite.of_injective (fun (A : Lanes) (i : Fin 25) => lane A i) fun A B h =>
    lanes_ext A B fun i hi => congrFun h ⟨i, hi⟩

/-- Settles O20: the rounds are injective, and so, there being finitely many states, their fold is bijective. -/
theorem permuteIsABijection : Obligations.PermuteIsABijection :=
  have := finite_lanes
  (foldl_injective keccakRound_injective _).bijective_of_finite

end Sys2Proof.Machine
end

section
/-! The PERMUTE command (40_permutation.md R133), the bytes of memory each command leaves alone, and the test vector of
the permutation (R129 (d)). -/

namespace Sys2Proof.Machine

/-! ### PERMUTE -/

/-- The range checks pass on admitted buffers (20_memory.md R67). -/
theorem rangeFault_eq_none_of_admitted {p : Platform} {bs : List Buffer}
    (h : ∀ b ∈ bs, admittedBuffer p b.kind b.base.toNat b.len) : rangeFault p bs = none := by
  refine (rangeFault_eq_none p bs).mpr ⟨fun b hb => ?_, fun b hb a hlo hhi => ?_⟩
  · rw [← Bool.not_eq_true, wraps_iff]
    rcases h b hb with hempty | ⟨hfits, -⟩ <;> omega
  · rcases h b hb with hempty | ⟨-, hadmits⟩
    · omega
    · exact hadmits a hlo hhi

theorem permuteCheck_eq_none {s : State} (hsrc : admittedBuffer s.platform .read s.operands.src.toNat 200)
    (hdst : admittedBuffer s.platform .write s.operands.dst.toNat 200) : permuteCheck s = none :=
  rangeFault_eq_none_of_admitted (by simpa using ⟨hsrc, hdst⟩)

/-- Byte k of PERMUTE's input is what the DMA reads there. -/
theorem stateByte_permuteInput (s : State) {k : Nat} (hk : k < 200) :
    stateByte (permuteInput s) k = dmaRead s (s.operands.src.toNat + k) := by
  rw [permuteInput, stateByte_lanesOfBytes _ hk, List.getD_eq_getElem _ 0 (by simpa using hk), dmaReadBytes_getElem]

/-- Byte k of PERMUTE's output stands at DST + k. -/
theorem read_permuteEffect {s : State} (hwf : s.mem.wf = true) (hc : permuteCheck s = none) {k : Nat} (hk : k < 200) :
    (permuteEffect s).mem.read (s.operands.dst.toNat + k) = stateByte (permuteLanes (permuteInput s)) k := by
  have hlen : k < (bytesOfLanes (permuteLanes (permuteInput s))).length := by rwa [bytesOfLanes_length]
  have hfits := permuteCheck_none_fits hc
  rw [permuteEffect_mem, Memory.read_writeBytes_inside _ _ _ _ hwf (by rwa [bytesOfLanes_length]) hlen,
    ← List.getD_eq_getElem _ 0 hlen, bytesOfLanes_getD _ hk]

/-! ### Memory's frame -/

/-- Memory outside the span a command writes is as it was, whether or not the command faults. -/
theorem exec_mem_outside {i : Instr} {s t : State} {a : Nat} (h : exec i s = .next t)
    (ha : spanHolds (writtenSpan i s) a = false) : t.mem.read a = s.mem.read a := by
  rcases exec_cases h with ⟨-, -, rfl⟩ | ⟨-, -, c, b, -, rfl⟩ | ⟨hr, hc, rfl⟩
  · rfl
  · rfl
  · exact commandEffect_mem_outside hr hc ha

/-- A span that is written only where the command runs holds no address outside it. -/
theorem spanHolds_ite_eq_false {b : Bool} {p : Span} {a : Nat} (h : a < p.base ∨ p.base + p.len ≤ a) :
    spanHolds (if b then none else some p) a = false := by
  cases b with
  | true => rfl
  | false => exact (covers_eq_false p a).mpr h

/-- Settles O47: SQUEEZE and PERMUTE write their DST span, the others none. -/
theorem memoryFrames : Obligations.MemoryFrames := by
  intro i s t a h
  cases i with
  | nop | init | absorb | finalize | reset => exact exec_mem_outside h rfl
  | squeeze | permute => exact fun ha => exec_mem_outside h (spanHolds_ite_eq_false ha)

/-- Settles O37: the input is read before the output is written, so the overlap does not matter. -/
theorem permuteCompletes : Obligations.PermuteCompletes := by
  intro s he hwf hsrc hdst
  have hc := permuteCheck_eq_none hsrc hdst
  have hexec : exec .permute s = .next (permuteEffect s) := exec_runs (.inl he) hc
  refine ⟨permuteInput s, (permuteEffect s).mem, ?_, fun k hk => stateByte_permuteInput s hk,
    fun k hk => read_permuteEffect hwf hc hk, fun a ha => memoryFrames .permute s _ a hexec ha⟩
  rw [hexec, permuteEffect]

/-! ### The test vector -/

/-- V-P1 of 95_test_vectors.md. -/
theorem laneAt_permuteLanes_zero : laneAt (permuteLanes (Vector.replicate 25 0)) 0 0 = 0xF1258F7940E1DDE7#64 := by
  decide +kernel

/-- Settles O21: the lane of the test vector is not 0, which every lane of the zero state is. -/
theorem permuteOfTheZeroState : Obligations.PermuteOfTheZeroState := by
  refine ⟨laneAt_permuteLanes_zero, fun h => ?_⟩
  have hlane := laneAt_permuteLanes_zero
  rw [h, laneAt, lane_replicate _ _ (by decide)] at hlane
  exact absurd hlane (by decide)

end Sys2Proof.Machine
end

section
/-! The sponge's loops (41_sponge.md R161, R165): what a run of bytes does that stays in the rate window or fills it, how
two runs join, and how many permutations any run counts (R168). -/

namespace Sys2Proof.Machine

/-! ### Bytes of the state -/

theorem stateByte_setStateByte (A : Lanes) {j k : Nat} (v : Byte) (hj : j < 200) (hk : k < 200) :
    stateByte (setStateByte A j v) k = if k = j then v else stateByte A k := by
  refine BitVec.eq_of_getLsbD_eq fun b hb => ?_
  have hbyte : (8 * (k % 8) + b) / 8 = k % 8 := by omega
  have hbit : (8 * (k % 8) + b) % 8 = b := by omega
  have hsame : k / 8 = j / 8 ∧ k % 8 = j % 8 ↔ k = j := by omega
  rw [getLsbD_stateByte _ _ hb, byteViewOfTheLanes.2 A j v _ _ hj (by omega) (by omega), hbyte, hbit]
  simp only [hsame]
  split
  · rfl
  · exact (getLsbD_stateByte A k hb).symm

theorem stateByte_xorStateByte (A : Lanes) {j k : Nat} (v : Byte) (hj : j < 200) (hk : k < 200) :
    stateByte (xorStateByte A j v) k = stateByte A k ^^^ if k = j then v else 0 := by
  rw [xorStateByte, stateByte_setStateByte A _ hj hk]
  split
  · next h => rw [h]
  · simp

/-- The lane file with bytes XORed in one after the other from byte k on: what ABSORB's loop does between two
permutations. -/
def xorRun : Lanes → Nat → List Byte → Lanes
  | A, _, [] => A
  | A, k, v :: vs => xorRun (xorStateByte A k v) (k + 1) vs

/-- A run of DMA bytes is XORed into the bytes from `base` on, and into no other. -/
theorem stateByte_xorRun_dmaReadBytes (s : State) (A : Lanes) {base n k : Nat} (a : Nat) (hfit : base + n ≤ 200)
    (hk : k < 200) :
    stateByte (xorRun A base (dmaReadBytes s a n)) k =
      if base ≤ k ∧ k < base + n then stateByte A k ^^^ dmaRead s (a + (k - base)) else stateByte A k := by
  induction n generalizing A base a with
  | zero =>
    have hempty : ¬ (base ≤ k ∧ k < base + 0) := by omega
    rw [if_neg hempty]
    rfl
  | succ n ih =>
    rw [dmaReadBytes, xorRun, ih _ (a + 1) (by omega), stateByte_xorStateByte A _ (by omega) hk]
    rcases Nat.lt_trichotomy k base with hlt | rfl | hgt
    · have hout : ¬ base + 1 ≤ k := by omega
      simp [hout, hlt.ne, Nat.not_le.mpr hlt]
    · simp
    · have hin : base ≤ k := hgt.le
      have hnext : k < base + 1 + n ↔ k < base + (n + 1) := by omega
      have haddr : a + 1 + (k - (base + 1)) = a + (k - base) := by omega
      simp [hin, hnext, haddr, hgt.ne', Nat.succ_le_of_lt hgt]

/-! ### One byte -/

/-- R.POS moved on by bytes of the window does not overflow its register. -/
theorem toNat_pos_add {c : Sponge} {n : Nat} (h : c.pos.toNat + n ≤ c.rate.toNat) :
    (c.pos + BitVec.ofNat 8 n).toNat = c.pos.toNat + n := by
  have := c.rate.isLt
  simp only [BitVec.toNat_add, BitVec.toNat_ofNat]
  omega

theorem toNat_pos_succ {c : Sponge} (h : c.pos.toNat + 1 ≤ c.rate.toNat) : (c.pos + 1).toNat = c.pos.toNat + 1 :=
  toNat_pos_add h

/-- A byte that does not fill the window only moves R.POS. -/
theorem advance_within {c : Sponge} (h : c.pos.toNat + 1 < c.rate.toNat) : advance c = { c with pos := c.pos + 1 } := by
  have hne : c.pos + 1 ≠ c.rate := fun he => by
    rw [← toNat_pos_succ h.le, he] at h
    exact absurd h (Nat.lt_irrefl _)
  rw [advance, if_neg hne]

/-- The byte that fills the window permutes at once (41_sponge.md R167). -/
theorem advance_fills {c : Sponge} (h : c.pos.toNat + 1 = c.rate.toNat) :
    advance c = { c with lanes := permuteLanes c.lanes, pos := 0, permcnt := c.permcnt + 1 } := by
  have heq : c.pos + 1 = c.rate := BitVec.eq_of_toNat_eq (by rw [toNat_pos_succ h.le, h])
  rw [advance, if_pos heq, permuteContext]

theorem pos_add_succ (p : Byte) (n : Nat) : p + 1 + BitVec.ofNat 8 n = p + BitVec.ofNat 8 (n + 1) := by
  rw [BitVec.add_assoc, Nat.add_comm n 1, BitVec.ofNat_add]
  rfl

/-! ### ABSORB's loop -/

/-- Input that does not fill the window is XORed in, and R.POS moves on by its length. -/
theorem absorbBytes_within {c : Sponge} {vs : List Byte} (h : c.pos.toNat + vs.length < c.rate.toNat) :
    absorbBytes c vs =
      { c with lanes := xorRun c.lanes c.pos.toNat vs, pos := c.pos + BitVec.ofNat 8 vs.length } := by
  induction vs generalizing c with
  | nil => simp [xorRun]
  | cons v vs ih =>
    rw [List.length_cons] at h
    have hpos : (c.pos + 1).toNat = c.pos.toNat + 1 := toNat_pos_succ (by omega)
    rw [absorbBytes_cons, absorbByte, advance_within (by simp only; omega), ih (by simp only [hpos]; omega)]
    simp only [hpos, pos_add_succ, xorRun, List.length_cons]

/-- Input that fills the window is XORed in and permuted on its last byte. -/
theorem absorbBytes_fills {c : Sponge} {vs : List Byte} (hpos : c.pos.toNat < c.rate.toNat)
    (h : c.pos.toNat + vs.length = c.rate.toNat) :
    absorbBytes c vs =
      { c with lanes := permuteLanes (xorRun c.lanes c.pos.toNat vs), pos := 0, permcnt := c.permcnt + 1 } := by
  induction vs generalizing c with
  | nil => simp only [List.length_nil] at h; omega
  | cons v vs ih =>
    rw [List.length_cons] at h
    by_cases hlast : c.pos.toNat + 1 = c.rate.toNat
    · obtain rfl : vs = [] := List.length_eq_zero_iff.mp (by omega)
      rw [absorbBytes_cons, absorbByte, advance_fills (by simpa only using hlast), absorbBytes_nil, xorRun, xorRun]
    · have hnext : (c.pos + 1).toNat = c.pos.toNat + 1 := toNat_pos_succ (by omega)
      rw [absorbBytes_cons, absorbByte, advance_within (by simp only; omega),
        ih (by simp only [hnext]; omega) (by simp only [hnext]; omega)]
      simp only [hnext, xorRun]

/-- Two inputs one after the other are one input (41_sponge.md R162). -/
theorem absorbBytes_append (c : Sponge) (vs ws : List Byte) :
    absorbBytes c (vs ++ ws) = absorbBytes (absorbBytes c vs) ws := List.foldl_append

/-! ### SQUEEZE's loop -/

/-- Squeezing m + n bytes is squeezing m and then n more (41_sponge.md R166). -/
theorem squeezeContext_add (m n : Nat) (c : Sponge) :
    squeezeContext (m + n) c = squeezeContext n (squeezeContext m c) := by
  induction m generalizing c with
  | zero => rw [Nat.zero_add]; rfl
  | succ m ih => rw [Nat.succ_add]; exact ih (advance c)

theorem squeezeOutput_add (m n : Nat) (c : Sponge) :
    squeezeOutput (m + n) c = squeezeOutput m c ++ squeezeOutput n (squeezeContext m c) := by
  induction m generalizing c with
  | zero => rw [Nat.zero_add]; rfl
  | succ m ih => rw [Nat.succ_add, squeezeOutput, ih (advance c)]; rfl

/-- Byte i of the output is the byte at R.POS once i bytes are out. -/
theorem squeezeOutput_getElem (n : Nat) (c : Sponge) {i : Nat} (h : i < (squeezeOutput n c).length) :
    (squeezeOutput n c)[i] = stateByte (squeezeContext i c).lanes (squeezeContext i c).pos.toNat := by
  induction n generalizing c i with
  | zero => exact absurd h (Nat.not_lt_zero i)
  | succ n ih =>
    cases i with
    | zero => rfl
    | succ i => exact ih (advance c) (by simpa [squeezeOutput] using h)

/-- Output that does not exhaust the window only moves R.POS. -/
theorem squeezeContext_within {c : Sponge} {n : Nat} (h : c.pos.toNat + n < c.rate.toNat) :
    squeezeContext n c = { c with pos := c.pos + BitVec.ofNat 8 n } := by
  induction n generalizing c with
  | zero => simp [squeezeContext]
  | succ n ih =>
    have hpos : (c.pos + 1).toNat = c.pos.toNat + 1 := toNat_pos_succ (by omega)
    rw [squeezeContext, advance_within (by omega), ih (by simp only [hpos]; omega)]
    simp only [pos_add_succ]

/-- Output that exhausts the window permutes on its last byte. -/
theorem squeezeContext_fills {c : Sponge} {n : Nat} (hpos : c.pos.toNat < c.rate.toNat)
    (h : c.pos.toNat + n = c.rate.toNat) :
    squeezeContext n c =
      { c with lanes := permuteLanes c.lanes, pos := 0, permcnt := c.permcnt + 1 } := by
  obtain ⟨m, rfl⟩ : ∃ m, n = m + 1 := ⟨n - 1, by omega⟩
  have hm : c.pos.toNat + m < c.rate.toNat := by omega
  have hlast : (c.pos + BitVec.ofNat 8 m).toNat + 1 = c.rate.toNat := by rw [toNat_pos_add hm.le]; omega
  rw [squeezeContext_add, squeezeContext_within hm, squeezeContext, squeezeContext,
    advance_fills (by simpa only using hlast)]

/-- The output inside the window is the bytes of the state from R.POS on. -/
theorem squeezeOutput_getElem_within {c : Sponge} {n i : Nat} (hfit : c.pos.toNat + n ≤ c.rate.toNat)
    (h : i < (squeezeOutput n c).length) : (squeezeOutput n c)[i] = stateByte c.lanes (c.pos.toNat + i) := by
  have hi : c.pos.toNat + i < c.rate.toNat := by rw [squeezeOutput_length] at h; omega
  rw [squeezeOutput_getElem, squeezeContext_within hi]
  simp only [toNat_pos_add hi.le]

/-! ### SQUEEZE's loop does not read the phase -/

theorem advance_withPhase (c : Sponge) (p : Phase) :
    advance { c with phase := p } = { advance c with phase := p } := by
  unfold advance
  simp only
  split <;> rfl

theorem squeezeContext_withPhase (n : Nat) (c : Sponge) (p : Phase) :
    squeezeContext n { c with phase := p } = { squeezeContext n c with phase := p } := by
  induction n generalizing c with
  | zero => rfl
  | succ n ih => rw [squeezeContext, advance_withPhase, ih, squeezeContext]

theorem squeezeOutput_withPhase (n : Nat) (c : Sponge) (p : Phase) :
    squeezeOutput n { c with phase := p } = squeezeOutput n c := by
  induction n generalizing c with
  | zero => rfl
  | succ n ih => rw [squeezeOutput, advance_withPhase, ih, squeezeOutput]

/-! ### Counting permutations (41_sponge.md R168) -/

/-- From context c the loop took n bytes to context d: where R.POS ends, and how many permutations it counted. -/
def CountsBytes (n : Nat) (c d : Sponge) : Prop :=
  d.pos.toNat = (c.pos.toNat + n) % c.rate.toNat ∧
    d.permcnt = c.permcnt + BitVec.ofNat 64 ((c.pos.toNat + n) / c.rate.toNat)

/-- The count of SQUEEZE's loop: a byte that fills the window starts the next one with one permutation more. -/
theorem countsBytes_squeezeContext {c : Sponge} (h : c.inUse) (n : Nat) : CountsBytes n c (squeezeContext n c) := by
  induction n generalizing c with
  | zero =>
    obtain ⟨-, -, hpos⟩ := h
    simp [CountsBytes, squeezeContext, Nat.mod_eq_of_lt hpos, Nat.div_eq_of_lt hpos]
  | succ n ih =>
    obtain ⟨hp, hcnt⟩ := ih (inUse_advance h)
    obtain ⟨hlo, -, hpos⟩ := h
    rw [CountsBytes, squeezeContext, hp, hcnt]
    by_cases hlast : c.pos.toNat + 1 = c.rate.toNat
    · have hsum : c.pos.toNat + (n + 1) = c.rate.toNat + n := by omega
      rw [advance_fills hlast, hsum, Nat.add_mod_left, Nat.add_div_left _ hlo, Nat.add_comm (n / _), BitVec.ofNat_add,
        ← BitVec.add_assoc]
      simp
    · have hsum : c.pos.toNat + (n + 1) = c.pos.toNat + 1 + n := by omega
      have hnext : (c.pos + 1).toNat = c.pos.toNat + 1 := toNat_pos_succ (by omega)
      rw [advance_within (by omega), hsum]
      simp only [hnext, and_self]

/-- ABSORB's loop moves every register but the lanes as SQUEEZE's does over as many bytes. -/
theorem lanesApart_absorbBytes_squeezeContext {c d : Sponge} (h : c.LanesApart d) (vs : List Byte) :
    (absorbBytes c vs).LanesApart (squeezeContext vs.length d) := by
  induction vs generalizing c d with
  | nil => exact h
  | cons v vs ih => exact ih (lanesApart_advance (by rw [lanesApart_iff] at h ⊢; exact h))

theorem countsBytes_absorbBytes {c : Sponge} (h : c.inUse) (vs : List Byte) :
    CountsBytes vs.length c (absorbBytes c vs) := by
  obtain ⟨-, -, hpos, -, hcnt⟩ :=
    (lanesApart_iff _ _).mp (lanesApart_absorbBytes_squeezeContext (.of_lanes c c.lanes) vs)
  rw [CountsBytes, hpos, hcnt]
  exact countsBytes_squeezeContext h vs.length

/-- On a context INIT has just started the position and the count are those of the input's length alone. -/
theorem absorbBytes_startedSponge_permcnt {rate : Byte} (delim : Byte) (hlo : 1 ≤ rate.toNat) (hhi : rate.toNat ≤ 200)
    (input : List Byte) :
    (absorbBytes (startedSponge rate delim) input).permcnt = BitVec.ofNat 64 (input.length / rate.toNat) := by
  obtain ⟨-, hcnt⟩ := countsBytes_absorbBytes (c := startedSponge rate delim) ⟨hlo, hhi, hlo⟩ input
  simpa using hcnt

end Sys2Proof.Machine
end

section
/-! INIT, ABSORB and FINALIZE (41_sponge.md R160 to R163, R167). -/

namespace Sys2Proof.Machine

/-! ### A command that leaves no fault -/

/-- A command that leaves no fault behind had none before it, passed its checks and took its effect. -/
theorem exec_effect {i : Instr} {s t : State} (hi : i ≠ .reset) (h : exec i s = .next t) (ht : t.faults.err = false) :
    s.faults.err = false ∧ commandCheck i s = none ∧ t = commandEffect i s := by
  rcases exec_cases h with ⟨he, -, rfl⟩ | ⟨-, -, c, a, -, rfl⟩ | ⟨he, hc, rfl⟩
  · simp [he] at ht
  · simp at ht
  · exact ⟨he.resolve_right hi, hc, rfl⟩

/-! ### INIT -/

/-- Settles O24: INIT's one check decides between its effect and BAD_RATE. -/
theorem initStartsAContext : Obligations.InitStartsAContext := by
  refine fun rate delim s he => ⟨fun hlo hhi => ?_, fun hrate => exec_init_badRate delim hrate he⟩
  exact exec_runs (i := .init rate delim) (.inl he) ((initCheck_eq_none rate).mpr ⟨hlo, hhi⟩)

/-! ### ABSORB -/

theorem exec_absorb_completes {s : State} (he : s.faults.err = false) (hp : s.sponge.phase = .absorbing)
    (hb : admittedBuffer s.platform .read s.operands.src.toNat s.operands.len.toNat) :
    exec .absorb s = .next (absorbEffect s) :=
  exec_runs (i := .absorb) (.inl he)
    ((absorbCheck_eq_none s).mpr ⟨hp, rangeFault_eq_none_of_admitted (by simpa [absorbSource] using hb)⟩)

/-- Settles O25: its checks pass, and over no input its loop does nothing. -/
theorem absorbCompletes : Obligations.AbsorbCompletes := by
  refine ⟨fun s he hp hb => exec_absorb_completes he hp hb, fun s he hp hlen => ?_⟩
  have hempty : s.operands.len.toNat = 0 := by simp [hlen]
  rw [exec_absorb_completes he hp (.inl hempty), absorbEffect, hempty]
  rfl

/-- Settles O26: the loop is one run of XORs from R.POS on. -/
theorem absorbWithinTheWindow : Obligations.AbsorbWithinTheWindow := by
  intro s he hp huse hb hfit
  obtain ⟨-, hhi, -⟩ := huse
  refine ⟨xorRun s.sponge.lanes s.sponge.pos.toNat (dmaReadBytes s s.operands.src.toNat s.operands.len.toNat), ?_,
    fun k hk => stateByte_xorRun_dmaReadBytes s _ _ (by omega) hk⟩
  rw [exec_absorb_completes he hp hb, absorbEffect, absorbBytes_within (by rwa [dmaReadBytes_length]),
    dmaReadBytes_length, BitVec.ofNat_toNat]

/-- Settles O27: the run of XORs ends with the byte that fills the window. -/
theorem absorbPermutesAtTheBoundary : Obligations.AbsorbPermutesAtTheBoundary := by
  intro s he hp huse hb hfit
  obtain ⟨-, hhi, hpos⟩ := huse
  refine ⟨xorRun s.sponge.lanes s.sponge.pos.toNat (dmaReadBytes s s.operands.src.toNat s.operands.len.toNat), ?_,
    fun k hk => ?_⟩
  · rw [exec_absorb_completes he hp hb, absorbEffect, absorbBytes_fills hpos (by rwa [dmaReadBytes_length])]
  · rw [← hfit]
    exact stateByte_xorRun_dmaReadBytes s _ _ (by omega) hk

/-- ABSORB takes its input from its own operand registers alone. -/
theorem absorbEffect_withOperands_sponge (s : State) (src dst len : Word) :
    (absorbEffect (s.withOperands src dst len)).sponge =
      absorbBytes s.sponge (dmaReadBytes s src.toNat len.toNat) := by
  rw [absorbEffect_sponge, dmaReadBytes_congr s (s.withOperands src dst len) _ _ rfl rfl rfl rfl]
  rfl

/-- Settles O28: the loop over two inputs joined is the loop over the first and then over the second, which the DMA reads
after the first ABSORB as before it. -/
theorem absorbChunksJoin : Obligations.AbsorbChunksJoin := by
  intro s t₁ t₂ t src₁ dst₁ len₁ src₂ dst₂ len₂ src dst len h₁ he₁ h₂ he₂ h he hread
  obtain ⟨-, -, rfl⟩ := exec_effect (by simp) h₁ he₁
  obtain ⟨-, -, rfl⟩ := exec_effect (by simp) h₂ he₂
  obtain ⟨-, -, rfl⟩ := exec_effect (by simp) h he
  simp only [commandEffect]
  rw [absorbEffect_withOperands_sponge, absorbEffect_withOperands_sponge, absorbEffect_withOperands_sponge, hread,
    absorbBytes_append, dmaReadBytes_congr s (absorbEffect (s.withOperands src₁ dst₁ len₁)) _ _ rfl rfl rfl rfl]

/-! ### FINALIZE -/

/-- Settles O29: the pad is two XORs into the window, and the phase alone decides between the effect and the fault. -/
theorem finalizePadsAndPermutes : Obligations.FinalizePadsAndPermutes := by
  refine ⟨fun s he hp huse => ?_, fun s he hp => ?_, fun s he hp => ?_⟩
  · obtain ⟨hlo, hhi, hpos⟩ := huse
    refine ⟨(padContext s.sponge).lanes, ?_, fun k hk => ?_⟩
    · rw [exec_runs (i := .finalize) (.inl he) ((finalizeCheck_eq_none s).mpr hp), commandEffect, finalizeContext,
        permuteContext, padContext]
    · rw [padContext, stateByte_xorStateByte _ _ (by omega) hk, stateByte_xorStateByte _ _ (by omega) hk]
      rfl
  · exact exec_faults (i := .finalize) he (by simp [commandCheck, finalizeCheck, hp])
  · exact exec_faults (i := .finalize) he (by rcases hp with hp | hp <;> simp [commandCheck, finalizeCheck, hp])

/-- Settles O35: the count of an input's bytes divided by the rate, and one more for FINALIZE. -/
theorem boundaryInputsPermuteEagerly : Obligations.BoundaryInputsPermuteEagerly := by
  intro rate delim input hlo hhi
  simp only [finalizeContext_permcnt, absorbBytes_startedSponge_permcnt delim hlo hhi]
  refine ⟨fun h => ?_, fun h => ?_, fun h2 h => ?_⟩
  · simp [h, Nat.div_self hlo]
  · simp [Nat.div_eq_of_lt (show input.length < rate.toNat by omega)]
  · have hone : input.length / rate.toNat = 1 := Nat.div_eq_of_lt_le (by omega) (by omega)
    simp [hone]

end Sys2Proof.Machine
end

section
/-! SQUEEZE (41_sponge.md R165, R166), and the count of a whole hash (R168). -/

namespace Sys2Proof.Machine

/-! ### SQUEEZE -/

theorem exec_squeeze_completes {s : State} (he : s.faults.err = false)
    (hp : s.sponge.phase = .finalized ∨ s.sponge.phase = .squeezing)
    (hb : admittedBuffer s.platform .write s.operands.dst.toNat s.operands.len.toNat) :
    exec .squeeze s = .next (squeezeEffect s) :=
  exec_runs (i := .squeeze) (.inl he)
    ((squeezeCheck_eq_none s).mpr ⟨hp, rangeFault_eq_none_of_admitted (by simpa [squeezeDestination] using hb)⟩)

/-- Settles O30: its checks pass, and over no output its loop does nothing. -/
theorem squeezeCompletes : Obligations.SqueezeCompletes := by
  refine ⟨fun s he hp hb => exec_squeeze_completes he hp hb, fun s he hp hlen => ?_⟩
  have hempty : s.operands.len.toNat = 0 := by simp [hlen]
  rw [exec_squeeze_completes he hp (.inl hempty), squeezeEffect, hempty]
  rfl

/-- Output that stays in the window or just exhausts it stands at R.DST as the bytes of the state from R.POS on. -/
theorem read_squeezeEffect_within {s : State} (hwf : s.mem.wf = true)
    (hb : admittedBuffer s.platform .write s.operands.dst.toNat s.operands.len.toNat)
    (hfit : s.sponge.pos.toNat + s.operands.len.toNat ≤ s.sponge.rate.toNat) {i : Nat}
    (hi : i < s.operands.len.toNat) :
    (squeezeEffect s).mem.read (s.operands.dst.toNat + i) =
      stateByte s.sponge.lanes (s.sponge.pos.toNat + i) := by
  have hspace : s.operands.dst.toNat + s.operands.len.toNat ≤ Config.dmaSpace := by
    rcases hb with hempty | ⟨hfits, -⟩
    · omega
    · exact hfits
  rw [squeezeEffect_mem, Memory.read_writeBytes_inside _ _ _ _ hwf (by rwa [squeezeOutput_length])
    (by rwa [squeezeOutput_length]), squeezeOutput_getElem_within hfit]

/-- Settles O31: the loop moves R.POS alone. -/
theorem squeezeWithinTheWindow : Obligations.SqueezeWithinTheWindow := by
  intro s he hp huse hwf hb hfit
  have hexec := exec_squeeze_completes he hp hb
  refine ⟨(squeezeEffect s).mem, ?_, fun i hi => read_squeezeEffect_within hwf hb hfit.le hi,
    fun a ha => memoryFrames .squeeze s _ a hexec ha⟩
  rw [hexec, squeezeEffect, squeezeContext_within hfit, BitVec.ofNat_toNat]

/-- Settles O32: the loop's last byte permutes. -/
theorem squeezePermutesAtTheBoundary : Obligations.SqueezePermutesAtTheBoundary := by
  intro s he hp huse hwf hb hfit
  obtain ⟨-, -, hpos⟩ := huse
  have hexec := exec_squeeze_completes he hp hb
  refine ⟨(squeezeEffect s).mem, ?_, fun i hi => read_squeezeEffect_within hwf hb hfit.le hi,
    fun a ha => memoryFrames .squeeze s _ a hexec ha⟩
  rw [hexec, squeezeEffect, squeezeContext_fills hpos hfit]

/-! ### Squeezing in two parts -/

theorem Memory.writeBytes_append (m : Memory) (a : Nat) (vs ws : List Byte) :
    m.writeBytes a (vs ++ ws) = (m.writeBytes a vs).writeBytes (a + vs.length) ws := by
  induction vs generalizing m a with
  | nil => rfl
  | cons v vs ih =>
    rw [List.cons_append, Memory.writeBytes, ih, List.length_cons, Nat.add_assoc, Nat.add_comm 1]
    rfl

/-- Part of an admitted buffer is one. -/
theorem admittedBuffer_part {p : Platform} {kind : AccessKind} {base len base' len' : Nat}
    (h : admittedBuffer p kind base len) (hlo : base ≤ base') (hhi : base' + len' ≤ base + len) :
    admittedBuffer p kind base' len' := by
  rcases h with hempty | ⟨hfits, hadmits⟩
  · exact .inl (by omega)
  · exact .inr ⟨by omega, fun a ha ha' => hadmits a (by omega) (by omega)⟩

theorem squeezeEffect_withOperands_sponge (s : State) (src dst len : Word) :
    (squeezeEffect (s.withOperands src dst len)).sponge =
      { squeezeContext len.toNat s.sponge with phase := .squeezing } := squeezeEffect_sponge _

theorem squeezeEffect_withOperands_mem (s : State) (src dst len : Word) :
    (squeezeEffect (s.withOperands src dst len)).mem =
      s.mem.writeBytes dst.toNat (squeezeOutput len.toNat s.sponge) := squeezeEffect_mem _

/-- Settles O33: the second part starts where the first ended, in the context and in memory; where it is empty, its
address does not matter. -/
theorem squeezeStreams : Obligations.SqueezeStreams := by
  intro s src d k n hkn hn he hp hb
  obtain ⟨j, rfl⟩ := Nat.exists_eq_add_of_le hkn
  have hk : (BitVec.ofNat 64 k).toNat = k := Nat.mod_eq_of_lt (by omega)
  have hj : (BitVec.ofNat 64 j).toNat = j := Nat.mod_eq_of_lt (by omega)
  have hkj : (BitVec.ofNat 64 (k + j)).toNat = k + j := Nat.mod_eq_of_lt hn
  have hdst : j = 0 ∨ (d + BitVec.ofNat 64 k).toNat = d.toNat + k := by
    rcases hb with hempty | ⟨hfits, -⟩
    · exact .inl (by omega)
    · rw [BitVec.toNat_add, hk]
      omega
  rw [Nat.add_sub_cancel_left]
  have hfirst : admittedBuffer s.platform .write d.toNat (BitVec.ofNat 64 k).toNat :=
    admittedBuffer_part hb le_rfl (by omega)
  have hsecond : admittedBuffer s.platform .write (d + BitVec.ofNat 64 k).toNat (BitVec.ofNat 64 j).toNat := by
    rcases hdst with hempty | haddr
    · exact .inl (by omega)
    · exact admittedBuffer_part hb (by omega) (by omega)
  refine ⟨_, _, _, exec_squeeze_completes he hp hfirst, exec_squeeze_completes he (.inr rfl) hsecond,
    exec_squeeze_completes he hp (by rwa [← hkj] at hb), he, he, he, ?_, ?_⟩
  · simp only [squeezeEffect_withOperands_mem, squeezeEffect_withOperands_sponge, squeezeOutput_withPhase, hk, hj, hkj]
    rw [squeezeOutput_add, Memory.writeBytes_append, squeezeOutput_length]
    rcases hdst with rfl | haddr
    · rfl
    · rw [haddr]
  · simp only [squeezeEffect_withOperands_sponge, squeezeContext_withPhase, hk, hj, hkj, squeezeContext_add]

/-! ### Counting permutations -/

theorem countsBytes_absorbEffect {s : State} (h : s.sponge.inUse) :
    CountsBytes s.operands.len.toNat s.sponge (absorbEffect s).sponge := by
  have hcount := countsBytes_absorbBytes h (dmaReadBytes s s.operands.src.toNat s.operands.len.toNat)
  rwa [dmaReadBytes_length, ← absorbEffect_sponge] at hcount

theorem countsBytes_squeezeEffect {s : State} (h : s.sponge.inUse) :
    CountsBytes s.operands.len.toNat s.sponge (squeezeEffect s).sponge := by
  rw [squeezeEffect_sponge]
  exact countsBytes_squeezeContext h s.operands.len.toNat

/-- The whole hash of an input, L bytes of which are squeezed out. -/
theorem permcnt_of_hash {rate : Byte} (delim : Byte) (hlo : 1 ≤ rate.toNat) (hhi : rate.toNat ≤ 200)
    (input : List Byte) (L : Nat) :
    (squeezeContext L (finalizeContext (absorbBytes (startedSponge rate delim) input))).permcnt =
      BitVec.ofNat 64 (input.length / rate.toNat + 1 + L / rate.toNat) := by
  have huse : (absorbBytes (startedSponge rate delim) input).inUse :=
    inUse_absorbBytes (c := startedSponge rate delim) ⟨hlo, hhi, hlo⟩ input
  obtain ⟨-, hcnt⟩ := countsBytes_squeezeContext (inUse_finalizeContext huse) L
  rw [hcnt, finalizeContext_permcnt, absorbBytes_startedSponge_permcnt delim hlo hhi]
  simp [BitVec.ofNat_add]

/-- Settles O34: every command that leaves no fault took its effect, which counts the bytes of its loop. -/
theorem permutationsAreCounted : Obligations.PermutationsAreCounted := by
  refine ⟨fun s t huse _ h ht => ?_, fun s t huse _ h ht => ?_, fun s t _ h ht => ?_,
    fun rate delim s t₁ t₂ t₃ t₄ src₁ dst₁ m src₂ dst₂ len _ h₁ h₂ h₃ h₄ he₄ => ?_⟩
  · obtain ⟨-, -, rfl⟩ := exec_effect (by simp) h ht
    exact countsBytes_absorbEffect huse
  · obtain ⟨-, -, rfl⟩ := exec_effect (by simp) h ht
    exact countsBytes_squeezeEffect huse
  · obtain ⟨-, -, rfl⟩ := exec_effect (by simp) h ht
    exact ⟨congrArg BitVec.toNat (finalizeContext_pos s.sponge), finalizeContext_permcnt s.sponge⟩
  · obtain ⟨he₃, -, rfl⟩ := exec_effect (by simp) h₄ he₄
    obtain ⟨he₂, -, rfl⟩ := exec_effect (by simp) h₃ he₃
    obtain ⟨he₁, -, rfl⟩ := exec_effect (by simp) h₂ he₂
    obtain ⟨-, hc, rfl⟩ := exec_effect (by simp) h₁ he₁
    obtain ⟨hlo, hhi⟩ := (initCheck_eq_none rate).mp hc
    simp only [commandEffect, squeezeEffect_withOperands_sponge, absorbEffect_withOperands_sponge,
      permcnt_of_hash delim hlo hhi, dmaReadBytes_length]

end Sys2Proof.Machine
end

section
/-! The named parameter sets and the one-shot pseudo-instructions (42_parameter_sets.md R200, R201, R203, R204). A
one-shot is served line by line: one equation of a run per line of the assembler (30_encoding.md R99). -/

namespace Sys2Proof.Machine

/-! ### The parameter sets -/

/-- Settles O5: each word is the concatenation of its fields. -/
theorem parameterSetWords : Obligations.ParameterSetWords := ⟨rfl, rfl, rfl, rfl, rfl, rfl, rfl⟩

/-- Every named rate is legal (42_parameter_sets.md R200, R201; 41_sponge.md R160). -/
theorem initCheck_variantRate (v : Variant) : initCheck (variantRate v) = none := by
  cases v <;> rfl

/-! ### An engine without a fault on a quiet bus -/

/-- No fault is recorded, no race is in progress, and neither side of the DMA waits to see anything. -/
structure Undisturbed (s : State) : Prop where
  faults : s.faults = FaultRegs.reset
  overlap : s.overlap = []
  visibility : s.visibility = Visibility.settled

/-- On a quiet bus the DMA reads host memory directly (20_memory.md R63). -/
theorem dmaReadBytes_undisturbed {s : State} (h : Undisturbed s) (a n : Nat) :
    dmaReadBytes s a n = (List.range n).map fun i => s.mem.read (a + i) := by
  refine List.ext_getElem (by simp) fun i hi _ => ?_
  have hset : unsettled s (a + i) = false := by
    rw [unsettled_eq_false, h.overlap, h.visibility]
    simp [Visibility.settled]
  rw [dmaReadBytes_getElem, dmaRead_settled s _ hset]
  simp

theorem Undisturbed.takeUp {s : State} (h : Undisturbed s) (rest : List BusEvent) : Undisturbed (takeUp rest s) :=
  ⟨h.faults, h.overlap, h.visibility⟩

/-- On a quiet bus a command completes with its own memory, and leaves waiting to be seen only what it wrote. -/
theorem completeCommand_undisturbed {s t : State} (h : Undisturbed s) (p : Option Span) (hst : SameSurroundings s t) :
    completeCommand p s t = { markWritten p t with answers := s.answers ++ [.completed] } := by
  have hsettle : settleOverlap p s t = t := by
    rw [settleOverlap_of_quiet p s t h.overlap (by rw [h.visibility]; rfl) (by rw [h.visibility]; rfl), ← h.overlap,
      ← hst.overlap]
  rw [completeCommand, hsettle, markWritten_answers, hst.answers]

/-- On a quiet bus a command whose checks pass takes its effect and completes. -/
theorem step_command_undisturbed {s : State} {rest : List BusEvent} (i : Instr) (h : Undisturbed s)
    (hp : s.pending = regWrite .cmd (encode i) :: rest) (hc : commandCheck i (takeUp rest s) = none) :
    step s = .next { markWritten (writtenSpan i (takeUp rest s)) (commandEffect i (takeUp rest s)) with
      answers := s.answers ++ [.completed] } := by
  have hu := h.takeUp rest
  have hacc : acceptWord (encode i) (takeUp rest s) = .next (commandEffect i (takeUp rest s)) := by
    rw [acceptWord_of_decode (decode_encode i), exec_runs (.inl (by rw [hu.faults]; rfl)) hc]
  have hspan : wordSpan (encode i) (takeUp rest s) = writtenSpan i (takeUp rest s) := by
    rw [wordSpan, decode_encode]
  rw [step_commandWrite hp hacc, hspan, completeCommand_undisturbed hu _ (commandEffect_sameSurroundings i _),
    takeUp_answers]

/-! ### Runs, line by line -/

section
variable {s : State} {rest : List BusEvent} (k : Nat)

theorem run_initLine {rate delim : Byte} (h : Undisturbed s) (hrate : initCheck rate = none)
    (hp : s.pending = assembleLine (.init rate delim) ++ rest) :
    Sys2Proof.core.run (k + 1) s = Sys2Proof.core.run k { s with
      sponge := startedSponge rate delim, pending := rest, answers := s.answers ++ [.completed]
      serial := s.serial + 1 } :=
  run_succ (step_command_undisturbed (.init rate delim) h hp hrate) k

theorem run_finalizeLine (h : Undisturbed s) (hphase : s.sponge.phase = .absorbing)
    (hp : s.pending = assembleLine .finalize ++ rest) :
    Sys2Proof.core.run (k + 1) s = Sys2Proof.core.run k { s with
      sponge := finalizeContext s.sponge, pending := rest, answers := s.answers ++ [.completed]
      serial := s.serial + 1 } := by
  have hstep := step_command_undisturbed .finalize h hp ((finalizeCheck_eq_none (takeUp rest s)).mpr hphase)
  simp only [commandEffect, takeUp, writtenSpan, markWritten] at hstep
  exact run_succ hstep k

/-- A write to any register but CMD is one step of a run. -/
theorem run_regWrite {r : RegName} {v : Word} (hr : r ≠ .cmd) (hp : s.pending = regWrite r v :: rest) :
    Sys2Proof.core.run (k + 1) s = Sys2Proof.core.run k (writeRegister (takeUp rest s) (regOffset r) v) := by
  have hadmitted : admittedAccess (regOffset r) 8 = true := by cases r <;> rfl
  have hoffset : regOffset r ≠ 0x00 := by cases r <;> simp [regOffset] at hr ⊢
  exact run_succ (step_registerWrite hp hadmitted hoffset) k

theorem run_absorbCommand (h : Undisturbed s) (hphase : s.sponge.phase = .absorbing)
    (hb : admittedBuffer s.platform .read s.operands.src.toNat s.operands.len.toNat)
    (hp : s.pending = regWrite .cmd (encode .absorb) :: rest) :
    Sys2Proof.core.run (k + 1) s = Sys2Proof.core.run k { s with
      sponge := absorbBytes s.sponge
        ((List.range s.operands.len.toNat).map fun i => s.mem.read (s.operands.src.toNat + i))
      pending := rest, answers := s.answers ++ [.completed], serial := s.serial + 1 } := by
  have hc : absorbCheck (takeUp rest s) = none :=
    (absorbCheck_eq_none _).mpr ⟨hphase, rangeFault_eq_none_of_admitted (by simpa [absorbSource] using hb)⟩
  have hstep := step_command_undisturbed .absorb h hp hc
  simp only [commandEffect, absorbEffect, dmaReadBytes_undisturbed (h.takeUp rest)] at hstep
  simp only [takeUp, writtenSpan, markWritten] at hstep
  exact run_succ hstep k

theorem run_absorbLine {src n : Word} (h : Undisturbed s) (hphase : s.sponge.phase = .absorbing)
    (hb : admittedBuffer s.platform .read src.toNat n.toNat)
    (hp : s.pending = assembleLine (.absorb src n) ++ rest) :
    Sys2Proof.core.run (k + 3) s = Sys2Proof.core.run k { s with
      sponge := absorbBytes s.sponge ((List.range n.toNat).map fun i => s.mem.read (src.toNat + i))
      operands := { s.operands with src := src, len := n }, pending := rest
      answers := s.answers ++ [.completed], serial := s.serial + 3 } :=
  ((run_regWrite (k + 2) (by decide) hp).trans (run_regWrite (k + 1) (by decide) rfl)).trans
    (run_absorbCommand k ⟨h.faults, h.overlap, h.visibility⟩ hphase hb rfl)

/-- What the host need not see yet after SQUEEZE is left as the model computes it. -/
theorem run_squeezeCommand (h : Undisturbed s) (hphase : s.sponge.phase = .finalized)
    (hb : admittedBuffer s.platform .write s.operands.dst.toNat s.operands.len.toNat)
    (hp : s.pending = regWrite .cmd (encode .squeeze) :: rest) :
    ∃ vis, Sys2Proof.core.run (k + 1) s = Sys2Proof.core.run k { s with
      sponge := { squeezeContext s.operands.len.toNat s.sponge with phase := .squeezing }
      mem := s.mem.writeBytes s.operands.dst.toNat (squeezeOutput s.operands.len.toNat s.sponge)
      visibility := vis, pending := rest, answers := s.answers ++ [.completed], serial := s.serial + 1 } := by
  have hc : squeezeCheck (takeUp rest s) = none := (squeezeCheck_eq_none _).mpr
    ⟨.inl hphase, rangeFault_eq_none_of_admitted (by simpa [squeezeDestination] using hb)⟩
  have hstep := step_command_undisturbed .squeeze h hp hc
  simp only [commandEffect, markWritten_sponge, markWritten_faults, markWritten_operands, markWritten_mem,
    markWritten_platform, markWritten_pending, markWritten_overlap, markWritten_serial, squeezeEffect, takeUp] at hstep
  exact ⟨_, run_succ hstep k⟩

theorem run_squeezeLine {dst n : Word} (h : Undisturbed s) (hphase : s.sponge.phase = .finalized)
    (hb : admittedBuffer s.platform .write dst.toNat n.toNat)
    (hp : s.pending = assembleLine (.squeeze dst n) ++ rest) :
    ∃ vis, Sys2Proof.core.run (k + 3) s = Sys2Proof.core.run k { s with
      sponge := { squeezeContext n.toNat s.sponge with phase := .squeezing }
      mem := s.mem.writeBytes dst.toNat (squeezeOutput n.toNat s.sponge)
      operands := { s.operands with dst := dst, len := n }, visibility := vis, pending := rest
      answers := s.answers ++ [.completed], serial := s.serial + 3 } := by
  have hoperands := (run_regWrite (k + 2) (by decide) hp).trans (run_regWrite (k + 1) (by decide) rfl)
  obtain ⟨vis, hrun⟩ := run_squeezeCommand (rest := rest) k
    (s := writeRegister (takeUp _ (writeRegister (takeUp _ s) 0x30 dst)) 0x38 n)
    ⟨h.faults, h.overlap, h.visibility⟩ hphase hb rfl
  exact ⟨vis, hoperands.trans hrun⟩

/-- STATUS after a SQUEEZE without a fault (10_state.md R32). -/
theorem readRegister_status_squeezing {t : State} (hf : t.faults = FaultRegs.reset)
    (hphase : t.sponge.phase = .squeezing) : readRegister t 0x08 = 0x3 := by
  rw [readRegister, statusWord, hf, hphase]
  rfl

theorem run_statusLine (hf : s.faults = FaultRegs.reset) (hphase : s.sponge.phase = .squeezing)
    (hp : s.pending = assembleLine (.rd .status) ++ rest) :
    Sys2Proof.core.run (k + 1) s = Sys2Proof.core.run k { s with
      visibility := { s.visibility with written := updateWritten .afterRead s.visibility.written }, pending := rest
      answers := s.answers ++ [.register 0x3], serial := s.serial + 1 } := by
  have hstep := step_registerRead hp rfl
  rw [hostRead, regOffset, readRegister_takeUp, readRegister_status_squeezing hf hphase] at hstep
  exact run_succ hstep k

/-! ### A one-shot as a whole -/

/-- INIT, ABSORB and FINALIZE leave the sponge of the message, whatever context stood before, on a quiet bus. -/
theorem run_hashLines {rate delim : Byte} {src n : Word} (h : Undisturbed s) (hrate : initCheck rate = none)
    (hb : admittedBuffer s.platform .read src.toNat n.toNat)
    (hp : s.pending =
      assembleLine (.init rate delim) ++ (assembleLine (.absorb src n) ++ (assembleLine .finalize ++ rest))) :
    ∃ t, Sys2Proof.core.run (k + 5) s = Sys2Proof.core.run k t ∧ Undisturbed t ∧
      t.sponge = finalizeContext (absorbBytes (startedSponge rate delim)
        ((List.range n.toNat).map fun i => s.mem.read (src.toNat + i))) ∧
      t.mem = s.mem ∧ t.platform = s.platform ∧ t.pending = rest ∧
      t.answers = s.answers ++ [.completed, .completed, .completed] := by
  have hinit := run_initLine (k + 4) h hrate hp
  have habsorb := hinit.trans (run_absorbLine (k + 1) ⟨h.faults, h.overlap, h.visibility⟩ rfl hb rfl)
  have hfinalize := habsorb.trans (run_finalizeLine k ⟨h.faults, h.overlap, h.visibility⟩
    (by rw [absorbBytes_phase, startedSponge_phase]) rfl)
  exact ⟨_, hfinalize, ⟨h.faults, h.overlap, h.visibility⟩, rfl, rfl, rfl, rfl, by simp⟩

/-- SQUEEZE and the read of STATUS write the output of the context they find. -/
theorem run_outputLines {dst n : Word} (h : Undisturbed s) (hphase : s.sponge.phase = .finalized)
    (hb : admittedBuffer s.platform .write dst.toNat n.toNat)
    (hp : s.pending = assembleLine (.squeeze dst n) ++ assembleLine (.rd .status)) :
    ∃ t, Sys2Proof.core.run 4 s = .next t ∧
      t.sponge = { squeezeContext n.toNat s.sponge with phase := .squeezing } ∧
      t.mem = s.mem.writeBytes dst.toNat (squeezeOutput n.toNat s.sponge) ∧
      t.faults = FaultRegs.reset ∧ t.answers = s.answers ++ [.completed, .register 0x3] ∧ t.pending = [] := by
  obtain ⟨vis, hrun⟩ := run_squeezeLine 1 h hphase hb hp
  exact ⟨_, hrun.trans (run_statusLine 0 h.faults rfl rfl), rfl, rfl, h.faults, by simp, rfl⟩

end

theorem oneShot_eq_lines (v : Variant) (src n dst asked : Word) :
    oneShot v src n dst asked =
      assembleLine (.init (variantRate v) (variantDelim v)) ++ (assembleLine (.absorb src n) ++
        (assembleLine .finalize ++
          (assembleLine (.squeeze dst (squeezeLength v asked)) ++ assembleLine (.rd .status)))) := rfl

/-- Settles O36: INIT starts a context that nothing of the earlier one reaches, and the lines after it run from
there. -/
theorem oneShotHashesFromAnyContext : Obligations.OneShotHashesFromAnyContext := by
  intro v src n dst asked s hf hp ho hv hsrc hdst
  rw [oneShot_eq_lines] at hp
  obtain ⟨u, hhash, hu, hsponge, hmem, hplat, hpend, hans⟩ :=
    run_hashLines 4 ⟨hf, ho, hv⟩ (initCheck_variantRate v) hsrc hp
  have hphase : u.sponge.phase = .finalized := by rw [hsponge, finalizeContext_phase]
  rw [← hplat] at hdst
  obtain ⟨t, hout, hsponge', hmem', hfaults, hans', hpend'⟩ := run_outputLines hu hphase hdst hpend
  rw [hsponge] at hsponge'
  rw [hmem, hsponge] at hmem'
  refine ⟨t, _, hhash.trans hout, rfl, hsponge', hmem', hfaults, ?_, hpend'⟩
  rw [hans', hans, List.append_assoc]
  rfl

end Sys2Proof.Machine
end

section
/-! The host interface as a whole (43_control.md R220 to R225): NOP and RESET, how a step carries a command word out, and
what serving an interaction leaves as it is. -/

namespace Sys2Proof.Machine

/-! ### NOP and RESET -/

/-- OP settles a word whose other bits are 0. -/
theorem eq_of_zeroAboveOp {v w : Word} (hv : zeroAboveOp v = true) (hw : zeroAboveOp w = true)
    (hop : w.toNat % 16 = v.toNat % 16) : w = v := by
  have hfield : opField w = opField v := by rw [← BitVec.toNat_inj, opField_toNat, opField_toNat, hop]
  rw [zeroAboveOp_eq_true_iff] at hv hw
  rw [← aboveOp_append_opField w, ← aboveOp_append_opField v, hw, hv, hfield]

/-- A command without operands is the only legal word of its OP (30_encoding.md R95 (b)). -/
theorem illegal_of_op_eq {v w : Word} (hv : zeroAboveOp v = true) (hone : v.toNat % 16 ≠ 1)
    (hop : w.toNat % 16 = v.toNat % 16) (hne : w ≠ v) : ∀ i, decode w ≠ .ok i := by
  have hw : zeroAboveOp w = false := Bool.eq_false_iff.mpr fun h => hne (eq_of_zeroAboveOp hv h hop)
  exact (decode_illegal_iff w).mpr (.inr (.inl ⟨hop ▸ hone, hw⟩))

/-- NOP keeps the state under the lockout, as any command does, and by its own effect without. -/
theorem exec_nop_keeps (s : State) : exec .nop s = .next s := by
  cases he : s.faults.err with
  | true => exact exec_locked (by decide) he
  | false => exact exec_runs (.inl he) rfl

/-- Settles O22: NOP's effect, and its word as the only one of OP = 0. -/
theorem nopChangesNothing : Obligations.NopChangesNothing :=
  ⟨exec_nop_keeps, fun s => (acceptWord_of_decode (decode_encode .nop) s).trans (exec_nop_keeps s),
    fun _ hop hne => illegal_of_op_eq (v := encode .nop) rfl (by decide) hop hne⟩

/-- STATUS reads 0 after a reset (10_state.md R32, R39). -/
theorem readRegister_status_resetEngine (s : State) : readRegister (resetEngine s) 0x08 = 0 := by
  have hstatus : statusWord Sponge.reset FaultRegs.reset = 0 := by decide
  exact hstatus

/-- Settles O23: RESET is resetEngine in every state, and its word is the only one of OP = 0xF. -/
theorem resetCommandResetsTheEngine : Obligations.ResetCommandResetsTheEngine := by
  refine ⟨fun s => ⟨resetEngine s, exec_reset s, acceptWord_of_decode (decode_encode .reset) s, rfl,
      readRegister_status_resetEngine s⟩,
    fun w s hop hne => ?_⟩
  have hw : ∀ i, decode w ≠ .ok i := illegal_of_op_eq (v := encode .reset) rfl (by decide) hop hne
  rw [acceptWord_of_illegal hw]
  exact ⟨illegalCommand_faults w, illegalCommand_locked w⟩

/-! ### A command word, from acceptance to completion -/

/-- The span of a word that decodes is its command's. -/
theorem wordSpan_of_decode {w : Word} {i : Instr} (h : decode w = .ok i) (s : State) :
    wordSpan w s = writtenSpan i s := by
  rw [wordSpan, h]

/-- A word that decodes to no command writes nothing. -/
theorem wordSpan_of_illegal {w : Word} (h : ∀ i, decode w ≠ .ok i) (s : State) : wordSpan w s = none := by
  unfold wordSpan
  split
  · next i hd => exact absurd hd (h i)
  · rfl

/-- With no race, no store on its way and nothing for the host to wait for, a completion adds one answer
(20_memory.md R71, R75). -/
theorem completeCommand_quiet {s t : State} (p : Option Span) (hst : SameSurroundings s t) (hover : s.overlap = [])
    (hfence : s.visibility.unfenced = []) (hclean : s.visibility.uncleaned = [])
    (hord : s.platform.hostOrdered = true) (hcoh : s.platform.dmaCoherent = true)
    (hpost : s.platform.postedWrites = false) :
    completeCommand p s t = { t with answers := t.answers ++ [.completed] } := by
  have hsettle : settleOverlap p s t = t := by
    rw [settleOverlap_of_quiet p s t hover hfence hclean, ← hover, ← hst.overlap]
  rw [← hst.platform] at hord hcoh hpost
  rw [completeCommand, hsettle, markWritten_settled p t hpost hcoh hord]

/-- Settles O53: a CMD write is accepted and completed, by the two cases of the decoder. -/
theorem stepRunsTheDecodedCommand : Obligations.StepRunsTheDecodedCommand := by
  refine ⟨fun s t w rest hp ha => step_commandWrite hp ha,
    fun s t w rest hp ha hover hfence hclean hord hcoh hpost => ?_,
    fun s w i hd => ⟨acceptWord_of_decode hd s, wordSpan_of_decode hd s⟩,
    fun s w hw => ⟨wordSpan_of_illegal hw s, ?_⟩, fun _ _ _ => rfl⟩
  · rw [step_commandWrite hp ha,
      completeCommand_quiet _ (acceptWord_sameSurroundings ha) hover hfence hclean hord hcoh hpost]
  · rw [acceptWord_of_illegal hw]
    cases he : s.faults.err with
    | true => exact illegalCommand_locked w he
    | false => exact illegalCommand_faults w he

/-! ### What serving an interaction leaves as it is -/

/-- What no interaction but a change of Admit touches: the queue, the count of served interactions and the platform. -/
structure BusKept (s t : State) : Prop where
  pending : t.pending = s.pending
  serial : t.serial = s.serial
  platform : t.platform = s.platform

theorem busKept_commandWrite {w : Word} {s t : State} (h : commandWrite w s = .next t) : BusKept s t := by
  unfold commandWrite at h
  split at h
  · next u hu =>
    cases h
    have hsu := acceptWord_sameSurroundings hu
    exact ⟨by simpa using hsu.pending, by simpa using hsu.serial, by simpa using hsu.platform⟩
  · cases h
  · cases h

theorem busKept_cutCommand {w : Word} {s t : State} (h : cutCommand w s = .next t) : BusKept s t := by
  unfold cutCommand at h
  split at h
  · cases h
    exact ⟨by simp, by simp, by simp⟩
  · cases h
  · cases h

theorem busKept_registerWrite {offset width : Nat} {v : Word} {s t : State}
    (h : registerWrite offset width v s = .next t) : BusKept s t := by
  unfold registerWrite at h
  split at h
  · split at h
    · exact busKept_commandWrite h
    · cases h
      exact ⟨by simp, by simp, by simp⟩
  · cases h

theorem busKept_memoryAccess {acc : MemAccess} {s t : State} (h : memoryAccess acc s = .next t) : BusKept s t := by
  unfold memoryAccess at h
  split at h
  · cases h
  · cases acc <;> cases h <;> exact ⟨rfl, rfl, rfl⟩

/-- Serving an interaction moves neither the queue nor the count, and only `configureAdmit` the platform. -/
theorem busKept_serve {e : BusEvent} {s t : State} (he : ∀ regions, e ≠ .configureAdmit regions)
    (h : serve e s = .next t) : BusKept s t := by
  cases e with
  | write offset width v => exact busKept_registerWrite h
  | read offset width =>
    simp only [serve, registerRead] at h
    split at h
    · cases h; exact ⟨rfl, rfl, rfl⟩
    · cases h
  | memory acc => exact busKept_memoryAccess h
  | race acc =>
    simp only [serve, raceAccess] at h
    split at h
    · cases h
    · cases h; exact ⟨rfl, rfl, rfl⟩
  | configureAdmit regions => exact absurd rfl (he regions)
  | fence | maintain | hardwareReset => cases h; exact ⟨rfl, rfl, rfl⟩
  | commandCutByReset w => exact busKept_cutCommand h

/-- Settles O55: taking the interaction up dequeues and counts it, and serving it keeps the bus but for Admit. -/
theorem stepsServeInArrivalOrder : Obligations.StepsServeInArrivalOrder := by
  intro s t e rest hp hstep
  rw [step_serves s e rest hp] at hstep
  by_cases he : ∃ regions, e = .configureAdmit regions
  · obtain ⟨regions, rfl⟩ := he
    cases hstep
    exact ⟨rfl, rfl, rfl, rfl, rfl, rfl, rfl, fun h => absurd rfl (h regions)⟩
  · obtain ⟨hpending, hserial, hplatform⟩ := busKept_serve (not_exists.mp he) hstep
    rw [takeUp_platform] at hplatform
    rw [hplatform]
    exact ⟨hpending, hserial, rfl, rfl, rfl, rfl, rfl, fun _ => rfl⟩

end Sys2Proof.Machine
end

section
/-! Range faults (60_exceptions.md R248, R249): which check decides in each phase, and what the range checks of
20_memory.md R67 raise. -/

namespace Sys2Proof.Machine

/-! ### The checks of a command in each phase -/

theorem absorbCheck_uninit {s : State} (hp : s.sponge.phase = .uninit) : absorbCheck s = some (.notInitialised, 0) := by
  simp [absorbCheck, hp]

theorem absorbCheck_absorbing {s : State} (hp : s.sponge.phase = .absorbing) :
    absorbCheck s = rangeFault s.platform [absorbSource s.operands] := by
  simp [absorbCheck, hp]

theorem absorbCheck_finalized {s : State} (hp : s.sponge.phase = .finalized ∨ s.sponge.phase = .squeezing) :
    absorbCheck s = some (.absorbAfterFinalize, 0) := by
  rcases hp with hp | hp <;> simp [absorbCheck, hp]

theorem squeezeCheck_uninit {s : State} (hp : s.sponge.phase = .uninit) :
    squeezeCheck s = some (.notInitialised, 0) := by
  simp [squeezeCheck, hp]

theorem squeezeCheck_absorbing {s : State} (hp : s.sponge.phase = .absorbing) :
    squeezeCheck s = some (.squeezeBeforeFinalize, 0) := by
  simp [squeezeCheck, hp]

theorem squeezeCheck_finalized {s : State} (hp : s.sponge.phase = .finalized ∨ s.sponge.phase = .squeezing) :
    squeezeCheck s = rangeFault s.platform [squeezeDestination s.operands] := by
  rcases hp with hp | hp <;> simp [squeezeCheck, hp]

/-! ### What the range checks raise -/

/-- The first buffer that wraps decides, whatever is admitted (60_exceptions.md R249). -/
theorem rangeFault_of_wraps (p : Platform) {bs : List Buffer} {b : Buffer} (h : bs.find? Buffer.wraps = some b) :
    rangeFault p bs = some (.rangeWrap, b.base) := by
  simp [rangeFault, h]

/-- Where no buffer wraps, the first one with a byte that is not admitted decides (60_exceptions.md R248). -/
theorem rangeFault_of_admissionFault {p : Platform} {bs : List Buffer} {f : Cause × Word}
    (hwrap : ∀ b ∈ bs, b.wraps = false) (h : bs.findSome? (admissionFault p) = some f) : rangeFault p bs = some f := by
  have hnone : bs.find? Buffer.wraps = none := List.find?_eq_none.mpr fun b hb => by simp [hwrap b hb]
  simp [rangeFault, hnone, h]

theorem wraps_eq_false {b : Buffer} (h : b.base.toNat + b.len ≤ 2 ^ 64) : b.wraps = false := by
  rw [← Bool.not_eq_true, wraps_iff]
  omega

/-- The address a is the lowest byte of the buffer that is not admitted (60_exceptions.md R248). -/
structure LowestNotAdmitted (p : Platform) (b : Buffer) (a : Word) : Prop where
  low : b.base.toNat ≤ a.toNat
  high : a.toNat < b.base.toNat + b.len
  refused : admits p b.kind a.toNat = false
  below : ∀ c, b.base.toNat ≤ c → c < a.toNat → admits p b.kind c = true

theorem LowestNotAdmitted.admissionFault {p : Platform} {b : Buffer} {a : Word} (h : LowestNotAdmitted p b a) :
    admissionFault p b = some (.memFault, a) := by
  have hfirst : firstNotAdmitted p b.kind b.base.toNat b.len = some a.toNat :=
    (firstNotAdmitted_eq_some _ _ _ _ _).mpr ⟨h.low, h.high, h.refused, h.below⟩
  simp [Machine.admissionFault, hfirst]

/-- A single buffer that fits raises MEM_FAULT at its lowest byte that is not admitted. -/
theorem LowestNotAdmitted.rangeFault {p : Platform} {b : Buffer} {a : Word} (h : LowestNotAdmitted p b a)
    (hfits : b.base.toNat + b.len ≤ 2 ^ 64) : rangeFault p [b] = some (.memFault, a) :=
  rangeFault_of_admissionFault (by simpa using wraps_eq_false hfits) (by simp [h.admissionFault])

/-- PERMUTE's buffers, neither of which wraps, ask for SRC's admission before DST's (20_memory.md R67). -/
theorem permuteCheck_of_admissionFault {s : State} {f : Cause × Word} (hsrc : s.operands.src.toNat + 200 ≤ 2 ^ 64)
    (hdst : s.operands.dst.toNat + 200 ≤ 2 ^ 64)
    (h : [permuteSource s.operands, permuteDestination s.operands].findSome? (admissionFault s.platform) = some f) :
    permuteCheck s = some f := by
  refine rangeFault_of_admissionFault ?_ h
  simpa using ⟨wraps_eq_false (b := permuteSource s.operands) hsrc,
    wraps_eq_false (b := permuteDestination s.operands) hdst⟩

/-! ### The obligations -/

/-- Settles O40: the first buffer that wraps is the command's only one, or PERMUTE's SRC, or its DST where SRC fits. -/
theorem rangeWrapFaults : Obligations.RangeWrapFaults := by
  refine fun s he => ⟨fun hp hlen hwrap => ?_, fun hp hlen hwrap => ?_, fun hwrap => ?_, fun hfits hwrap => ?_⟩
  · have hw : (absorbSource s.operands).wraps = true := (wraps_iff _).mpr ⟨hlen, hwrap⟩
    exact exec_faults (i := .absorb) he
      ((absorbCheck_absorbing hp).trans (rangeFault_of_wraps _ (List.find?_cons_of_pos hw)))
  · have hw : (squeezeDestination s.operands).wraps = true := (wraps_iff _).mpr ⟨hlen, hwrap⟩
    exact exec_faults (i := .squeeze) he
      ((squeezeCheck_finalized hp).trans (rangeFault_of_wraps _ (List.find?_cons_of_pos hw)))
  · have hw : (permuteSource s.operands).wraps = true := (wraps_iff _).mpr ⟨by simp [permuteSource], hwrap⟩
    exact exec_faults (i := .permute) he (rangeFault_of_wraps _ (List.find?_cons_of_pos hw))
  · have hsrc : (permuteSource s.operands).wraps = false := wraps_eq_false hfits
    have hdst : (permuteDestination s.operands).wraps = true :=
      (wraps_iff _).mpr ⟨by simp [permuteDestination], hwrap⟩
    have hfind : [permuteSource s.operands, permuteDestination s.operands].find? Buffer.wraps =
        some (permuteDestination s.operands) := by simp [hsrc, hdst]
    exact exec_faults (i := .permute) he (rangeFault_of_wraps _ hfind)

/-- ABSORB raises MEM_FAULT at the lowest byte of its input that is not admitted. -/
theorem exec_absorb_memFault {s : State} {a : Word} (he : s.faults.err = false) (hp : s.sponge.phase = .absorbing)
    (hfits : s.operands.src.toNat + s.operands.len.toNat ≤ 2 ^ 64)
    (h : LowestNotAdmitted s.platform (absorbSource s.operands) a) :
    exec .absorb s = .next (raiseFault (encode .absorb) .memFault a s) :=
  exec_faults he ((absorbCheck_absorbing hp).trans (h.rangeFault hfits))

/-- STATUS after a fault: the fault's cause, ERR = 1 and the phase it was raised in (10_state.md R32). -/
theorem readRegister_status_of_raised {i : Instr} {w : Word} {c : Cause} {a : Word} {phase : Phase} {s t : State}
    (hraise : exec i s = .next (raiseFault w c a s)) (hp : s.sponge.phase = phase) (h : exec i s = .next t) :
    readRegister t 0x08 = 0#48 ++ causeCode c ++ 0#5 ++ 1#1 ++ phaseCode phase := by
  subst hp
  cases hraise.symm.trans h
  rfl

/-- Settles O41: the lowest address of the first buffer that fails, which for PERMUTE is DST only where all of SRC is
admitted. -/
theorem memFaultsAtTheLowestAddress : Obligations.MemFaultsAtTheLowestAddress := by
  refine ⟨fun s a he hp hfits hlo hhi hnot hbelow => ?_, fun s a he hp hfits hlo hhi hnot hbelow => ?_,
    fun s a he hsrc hdst hlo hhi hnot hbelow => ?_, fun s a he hsrc hdst hadmit hlo hhi hnot hbelow => ?_,
    fun s t he hp hadmits hsrc hlen h => ?_⟩
  · exact exec_absorb_memFault he hp hfits ⟨hlo, hhi, hnot, hbelow⟩
  · have hlow : LowestNotAdmitted s.platform (squeezeDestination s.operands) a := ⟨hlo, hhi, hnot, hbelow⟩
    exact exec_faults (i := .squeeze) he ((squeezeCheck_finalized hp).trans (hlow.rangeFault hfits))
  · have hlow : LowestNotAdmitted s.platform (permuteSource s.operands) a := ⟨hlo, hhi, hnot, hbelow⟩
    exact exec_faults (i := .permute) he
      (permuteCheck_of_admissionFault hsrc hdst (by simp [hlow.admissionFault]))
  · have hlow : LowestNotAdmitted s.platform (permuteDestination s.operands) a := ⟨hlo, hhi, hnot, hbelow⟩
    have hpass : admissionFault s.platform (permuteSource s.operands) = none :=
      (admissionFault_eq_none _ _).mpr hadmit
    exact exec_faults (i := .permute) he
      (permuteCheck_of_admissionFault hsrc hdst (by simp [hpass, hlow.admissionFault]))
  · have hbase : s.operands.src.toNat = 0x10FF0 := by rw [hsrc]; rfl
    have hcount : s.operands.len.toNat = 0x20 := by rw [hlen]; rfl
    have hlow : LowestNotAdmitted s.platform (absorbSource s.operands) 0x11000#64 := by
      refine ⟨?_, ?_, ?_, fun c hlo hhi => (hadmits c).mpr ⟨?_, hhi⟩⟩
      · simp [absorbSource, hbase]
      · simp [absorbSource, hbase, hcount]
      · exact Bool.eq_false_iff.mpr fun hc => absurd ((hadmits _).mp hc).2 (by decide)
      · simp only [absorbSource, hbase] at hlo
        omega
    have hraise := exec_absorb_memFault he hp (by omega) hlow
    refine ⟨readRegister_status_of_raised hraise hp h, ?_⟩
    cases hraise.symm.trans h
    exact ⟨rfl, rfl⟩

end Sys2Proof.Machine
end

section
/-! Faults and the way out of them (60_exceptions.md R240, R244 to R247, R250, R251, R253, R261). -/

namespace Sys2Proof.Machine

/-! ### Phase faults -/

/-- Settles O39: the phase decides before any buffer is looked at. -/
theorem phaseFaults : Obligations.PhaseFaults := by
  intro s he
  obtain ⟨-, hfinalizeUninit, hfinalizeTwice⟩ := finalizePadsAndPermutes
  have habsorb (hp : s.sponge.phase = .finalized ∨ s.sponge.phase = .squeezing) :
      exec .absorb s = .next (raiseFault (encode .absorb) .absorbAfterFinalize 0 s) :=
    exec_faults he (absorbCheck_finalized hp)
  have hfinalize (hp : s.sponge.phase = .finalized ∨ s.sponge.phase = .squeezing) :
      exec .finalize s = .next (raiseFault (encode .finalize) .finalizeTwice 0 s) := hfinalizeTwice s he hp
  have hsqueeze (hp : s.sponge.phase = .absorbing) :
      exec .squeeze s = .next (raiseFault (encode .squeeze) .squeezeBeforeFinalize 0 s) :=
    exec_faults he (squeezeCheck_absorbing hp)
  refine ⟨fun hp => ⟨?_, hfinalizeUninit s he hp, ?_⟩, fun hp => ⟨habsorb hp, hfinalize hp⟩, hsqueeze,
    fun t hp h => readRegister_status_of_raised (habsorb (.inl hp)) hp h,
    fun t hp h => readRegister_status_of_raised (hfinalize (.inl hp)) hp h,
    fun t hp h => readRegister_status_of_raised (hsqueeze hp) hp h⟩
  · exact exec_faults (i := .absorb) he (absorbCheck_uninit hp)
  · exact exec_faults (i := .squeeze) he (squeezeCheck_uninit hp)

/-! ### Accepting a word, without and with the lockout -/

/-- A word that is accepted without the lockout and leaves a fault has raised that fault, under its own name. -/
theorem acceptWord_raises {w : Word} {s t : State} (he : s.faults.err = false) (h : acceptWord w s = .next t)
    (ht : t.faults.err = true) : ∃ c a, IsRaised c a ∧ t = raiseFault w c a s := by
  rcases acceptWord_cases h with ⟨i, hd, hexec⟩ | ⟨-, rfl | rfl⟩
  · rcases exec_cases hexec with ⟨-, -, rfl⟩ | ⟨-, -, c, a, hc, rfl⟩ | ⟨-, -, rfl⟩
    · simp [he] at ht
    · exact ⟨c, a, commandCheck_isRaised hc, by rw [eq_encode_of_decode hd]⟩
    · rw [commandEffect_faults] at ht
      split at ht
      · cases ht
      · simp [he] at ht
  · simp [he] at ht
  · exact ⟨.illegalCommand, 0, by simp [IsRaised], rfl⟩

/-- Under the lockout every word but RESET's is ignored (60_exceptions.md R250). -/
theorem acceptWord_locked {w : Word} {s : State} (hw : w ≠ encode .reset) (he : s.faults.err = true) :
    acceptWord w s = .next s := by
  by_cases hd : ∃ i, decode w = .ok i
  · obtain ⟨i, hd⟩ := hd
    have hi : i ≠ .reset := by rintro rfl; exact hw (eq_encode_of_decode hd)
    rw [acceptWord_of_decode hd, exec_locked hi he]
  · rw [acceptWord_of_illegal (not_exists.mp hd), illegalCommand_locked w he]

theorem acceptWord_reset (s : State) : acceptWord (encode .reset) s = .next (resetEngine s) :=
  acceptWord_of_decode (decode_encode .reset) s

/-- Settles O38: a fault is raised by raiseFault alone, and under the lockout only RESET acts, which leaves none. -/
theorem faultsArePrecise : Obligations.FaultsArePrecise := by
  refine ⟨fun w s t he h ht => ?_, fun w s t he h ht => ?_⟩
  · obtain ⟨c, a, ⟨hcause, haddr⟩, rfl⟩ := acceptWord_raises he h ht
    refine ⟨rfl, rfl, hcause, fun hmem hrange => ?_⟩
    by_contra ha
    exact (haddr ha).elim hmem hrange
  · by_cases hw : w = encode .reset
    · subst hw
      rw [acceptWord_reset] at h
      cases h
      cases ht
    · rw [acceptWord_locked hw he] at h
      exact (Host.Outcome.next.inj h).symm

/-- Settles O42: the lockout of commands, and the accesses of the register block, which do not ask for it. -/
theorem lockoutIgnoresEveryWordButReset : Obligations.LockoutIgnoresEveryWordButReset := by
  obtain ⟨-, -, -, hread⟩ := registerAccessRules
  refine fun s he => ⟨fun w hw => acceptWord_locked hw he, fun i hi => exec_locked hi he, fun t h => ?_,
    fun offset rest hp hal hin => ?_, fun v rest => (operandRegistersWritable s v rest).1,
    fun v rest => (operandRegistersWritable s v rest).2.1, fun v rest => (operandRegistersWritable s v rest).2.2⟩
  · cases (acceptWord_reset s).symm.trans h
    rfl
  · obtain ⟨t, hstep, hans, -, hfaults, -⟩ := hread s offset rest hp hal hin
    exact ⟨t, hstep, hans, hfaults⟩

/-! ### What becomes of a recorded fault -/

/-- A CMD write of RESET's word clears the fault and the context. -/
theorem commandWrite_reset {s t : State} (h : commandWrite (encode .reset) s = .next t) :
    t.faults = FaultRegs.reset ∧ t.sponge = Sponge.reset := by
  rw [commandWrite, acceptWord_reset] at h
  cases h
  simp

/-- A CMD write of any other word keeps the fault. -/
theorem commandWrite_locked_faults {w : Word} {s t : State} (hw : w ≠ encode .reset) (he : s.faults.err = true)
    (h : commandWrite w s = .next t) : t.faults = s.faults := by
  rw [commandWrite, acceptWord_locked hw he] at h
  cases h
  simp

/-- Abandoning a command resets the engine, whatever the command was. -/
theorem cutCommand_reset {w : Word} {s t : State} (h : cutCommand w s = .next t) :
    t.faults = FaultRegs.reset ∧ t.sponge = Sponge.reset := by
  unfold cutCommand at h
  split at h
  · cases h
    exact ⟨rfl, rfl⟩
  · cases h
  · cases h

/-- A register write keeps the fault unless it writes RESET's word to CMD, which clears it. -/
theorem registerWrite_locked {offset width : Nat} {v : Word} {s t : State} (he : s.faults.err = true)
    (h : registerWrite offset width v s = .next t) :
    if offset = 0x00 ∧ width = 8 ∧ v = encode .reset then t.faults = FaultRegs.reset ∧ t.sponge = Sponge.reset
    else t.faults = s.faults := by
  unfold registerWrite at h
  split at h
  · next ha =>
    obtain ⟨hwidth, -⟩ := (admittedAccess_iff offset width).mp ha
    split at h
    · next hcmd =>
      by_cases hv : v = encode .reset
      · subst hv
        rw [if_pos ⟨hcmd, hwidth, rfl⟩]
        exact commandWrite_reset h
      · rw [if_neg fun hc => hv hc.2.2]
        exact commandWrite_locked_faults hv he h
    · next hcmd =>
      rw [if_neg fun hc => hcmd hc.1]
      cases h
      simp
  · cases h

theorem memoryAccess_faults {acc : MemAccess} {s t : State} (h : memoryAccess acc s = .next t) :
    t.faults = s.faults := by
  unfold memoryAccess at h
  split at h
  · cases h
  · cases acc <;> cases h <;> rfl

/-- Settles O43: each interaction in turn, and an idle step. -/
theorem onlyResetClearsAFault : Obligations.OnlyResetClearsAFault := by
  intro s t he hstep
  cases hp : s.pending with
  | nil =>
    rw [step_idle s hp] at hstep
    cases hstep
    rfl
  | cons e rest =>
    rw [step_serves s e rest hp] at hstep
    cases e with
    | write offset width v => exact registerWrite_locked (s := takeUp rest s) he hstep
    | read offset width =>
      simp only [serve, registerRead] at hstep
      split at hstep
      · cases hstep; rfl
      · cases hstep
    | memory acc => exact memoryAccess_faults (s := takeUp rest s) hstep
    | race acc =>
      simp only [serve, raceAccess] at hstep
      split at hstep
      · cases hstep
      · cases hstep; rfl
    | fence | maintain | configureAdmit => cases hstep; rfl
    | hardwareReset => cases hstep; exact ⟨rfl, rfl⟩
    | commandCutByReset w => exact cutCommand_reset hstep

/-! ### No command stops the machine -/

/-- Settles O44: RESET answers its reset state, and every other command runs in the shared frame. -/
theorem everyCommandAnswers : Obligations.EveryCommandAnswers := exec_completes

/-- Settles O54: an empty queue serves nothing. -/
theorem idleEngineKeepsItsState : Obligations.IdleEngineKeepsItsState := step_idle

end Sys2Proof.Machine
end

section
/-! Hardware reset (70_reset_and_hazards.md R280): between commands it is RESET, and in mid-command it leaves each byte
of the abandoned command as it was or as the command would have left it. -/

namespace Sys2Proof.Machine

/-! ### The memory of an abandoned command -/

/-- A write of the byte that another memory holds there leaves every byte as it was or as that memory holds it. -/
theorem read_write_old_or_new {m : Memory} (after : Memory) (a b : Nat) (h : m.wf = true) :
    (m.write a (after.read a)).read b = m.read b ∨ (m.write a (after.read a)).read b = after.read b := by
  by_cases hb : b = a
  · subst hb
    exact .inr (Memory.read_write_same m 0 b _ h)
  · exact .inl (Memory.read_write_ne m a b _ hb)

theorem read_landSome_old_or_new (serial : Nat) (after : Memory) (a n : Nat) {m : Memory} (b : Nat) (h : m.wf = true)
    (ha : n = 0 ∨ a + n ≤ Config.dmaSpace) :
    (landSome serial after a n m).read b = m.read b ∨ (landSome serial after a n m).read b = after.read b := by
  induction n generalizing a m with
  | zero => exact .inl rfl
  | succ n ih =>
    have hlen : a + (n + 1) ≤ Config.dmaSpace := by simpa using ha
    rw [landSome]
    split
    · rcases ih (a + 1) (Memory.wf_write m a (after.read a) h (by omega)) (.inr (by omega)) with hold | hnew
      · rw [hold]
        exact read_write_old_or_new after a b h
      · exact .inr hnew
    · exact ih (a + 1) h (.inr (by omega))

/-- Memory after an abandoned command holds each byte as it was or as the command would have left it
(70_reset_and_hazards.md R280). -/
theorem read_partlyWritten_old_or_new (serial : Nat) {span : Option Span} (hs : SpanFits span) {before : Memory}
    (after : Memory) (b : Nat) (h : before.wf = true) :
    (partlyWritten serial span before after).read b = before.read b ∨
      (partlyWritten serial span before after).read b = after.read b := by
  cases span with
  | none => exact .inl rfl
  | some p => exact read_landSome_old_or_new serial after p.base p.len b h (hs p rfl)

/-! ### The races of an abandoned command -/

/-- Settling a command's overlap answers its racing loads alone; the completion is not its to give. -/
theorem settleOverlap_answers (span : Option Span) (s t : State) :
    ∃ bytes : List Byte, (settleOverlap span s t).answers = t.answers ++ bytes.map Answer.racedLoad ∧
      bytes.length = (loadedAddresses s.overlap).length :=
  settleRaces_answers s span t.mem 0 s.overlap _

/-- Settling a command's overlap leaves every byte that no other store touches as the command left it. -/
theorem read_settleOverlap_settled (span : Option Span) {s : State} (t : State) {a : Nat} (ha : unsettled s a = false) :
    (settleOverlap span s t).mem.read a = t.mem.read a := by
  obtain ⟨hrace, hfenced, hcleaned⟩ := (unsettled_eq_false s a).mp ha
  rw [settleOverlap, Memory.read_settleRaces _ _ _ _ _ _ _ hrace]
  exact Memory.read_landLate _ _ _ _ _ (by simp [hfenced, hcleaned])

/-! ### The command a reset cuts short -/

theorem cutCommand_of_accepted {w : Word} {s u : State} (h : acceptWord w s = .next u) :
    cutCommand w s = .next (resetEngine (markWritten (wordSpan w s) (settleOverlap (wordSpan w s) s
      { s with mem := partlyWritten s.serial (wordSpan w s) s.mem u.mem }))) := by
  rw [cutCommand, h]

/-- A command that a hardware reset abandons answers its racing loads alone, and leaves each byte that no other store
touches as it was or as accepting the word would have left it (70_reset_and_hazards.md R280, log 10). -/
theorem cutCommand_abandons (w : Word) {s : State} (hwf : s.mem.wf = true) :
    ∃ (t u : State) (bytes : List Byte), cutCommand w s = .next t ∧ acceptWord w s = .next u ∧
      t.operands = OperandRegs.reset ∧ t.answers = s.answers ++ bytes.map Answer.racedLoad ∧
      bytes.length = (loadedAddresses s.overlap).length ∧
      ∀ a, unsettled s a = false → t.mem.read a = s.mem.read a ∨ t.mem.read a = u.mem.read a := by
  obtain ⟨u, hacc⟩ := acceptWord_completes w s
  obtain ⟨bytes, hans, hlen⟩ := settleOverlap_answers (wordSpan w s) s
    { s with mem := partlyWritten s.serial (wordSpan w s) s.mem u.mem }
  refine ⟨_, u, bytes, cutCommand_of_accepted hacc, hacc, rfl, ?_, hlen, fun a ha => ?_⟩
  · rw [resetEngine_answers, markWritten_answers, hans]
  · rw [resetEngine_mem, markWritten_mem, read_settleOverlap_settled _ _ ha]
    exact read_partlyWritten_old_or_new s.serial (wordSpan_fits w s) u.mem a hwf

/-- Settles O56: a hardware reset between commands is RESET's own reset, and one in mid-command settles the races over
the partly written memory before it resets the engine. -/
theorem hardwareResetAbandonsACommand : Obligations.HardwareResetAbandonsACommand := by
  refine ⟨fun s rest hp => (step_serves s _ rest hp).trans (exec_reset _).symm, fun s w rest hp hwf => ?_⟩
  obtain ⟨t, u, bytes, hcut, hacc, hoperands, hans, hlen, hmem⟩ := cutCommand_abandons w (s := takeUp rest s) hwf
  obtain ⟨hfaults, hsponge⟩ := cutCommand_reset hcut
  refine ⟨t, u, bytes.map Answer.racedLoad, (step_serves s _ rest hp).trans hcut, hacc, hsponge, hfaults, hoperands,
    (busKept_cutCommand hcut).pending, hans, by simp, fun ho => ?_, hmem⟩
  rw [takeUp_overlap, ho] at hlen
  rw [List.eq_nil_of_length_eq_zero hlen, List.map_nil]

end Sys2Proof.Machine
end
